-- ==== Sys2Proof/Word.lean ====
section
/-! DEFINITION. The word types of LZWD and the shape of its two small memories (00_scope.md R8, R9). -/

namespace Sys2Proof

/-- One input byte or one output symbol, 8 bits (R8: BYTE_BITS, SYM_BITS). -/
abbrev Byte := BitVec 8

/-- A code zero-extended to 12 bits (R8: DICT_SIZE, CW_MAX; R92). -/
abbrev Code := BitVec 12

/-- A command word (R99). -/
abbrev CmdWord := BitVec 10

/-- One dictionary slot: the pair (PFX, SFX), read and written as one (R32, R66). -/
structure Slot where
  pfx : Code
  sfx : Byte
  deriving DecidableEq, Repr

/-- A memory with numbered cells: the written cells, numbers strictly rising. A cell that is not listed was never
written and holds no value (93_implementation_defined.md U1, log entry 4). -/
abbrev Memory (α : Type) := List (Nat × α)

end Sys2Proof
end

