-- ==== Sys2Proof/Config.lean ====
section
/-! DEFINITION. What the hardware fixes: the parameters of 00_scope.md R8 and the free value of 93 U6. -/

namespace Sys2Proof

/-- Smallest legal minimum code size (R8). -/
@[simp] abbrev Config.mMin : Nat := 1

/-- Largest legal minimum code size (R8; 90_conflicts.md C1). -/
@[simp] abbrev Config.mMax : Nat := 8

/-- Number of code values and dictionary slots (R8). -/
@[simp] abbrev Config.dictSize : Nat := 4096

/-- Largest code width (R8). -/
@[simp] abbrev Config.cwMax : Nat := 12

/-- Capacity of the bit buffer, the default of a parameter the spec leaves to the model (R8, D6, log entry 13). -/
@[simp] abbrev Config.bbBits : Nat := 32

/-- Capacity of the expansion stack, the default of a parameter the spec leaves to the model (R8, D17, log entry 13). -/
@[simp] abbrev Config.stackDepth : Nat := 4096

/-- The value a status read returns while a command is in progress: unspecified (10_state.md R38, 93 U6). A FREE VALUE:
it has no body, and nothing can be proved of it (log entry 8). The first argument is a fresh counter. -/
opaque Config.midCommandStatus : Nat → BitVec 4 → BitVec 32

end Sys2Proof
end

