-- ==== Sys2Proof/Syntax.lean ====
section
/-! DEFINITION. The instructions: one constructor per row of opcode_table.json, in the table's order. -/

namespace Sys2Proof

/-- The causes that fault entry can be given (60_exceptions.md R221). Causes 0, 1, 6 and 7 are never raised (R22, R224),
so they are no operand (log entry 16). -/
inductive RaisedCause where
  | invalidLzwCode
  | truncatedLzwStream
  | badMinCodeSize
  | badCommand
  deriving DecidableEq, Repr

/-- The 36 rows of the opcode table. Commands carry cmd[7:0]; END and CLEAR have one row per minimum code size M; the
state-selected classes carry the code c; the internal operations carry the operands their rules give them. -/
inductive Instr where
  -- format CMD (30_encoding.md R99, R100)
  | start (m : Byte)
  | push (b : Byte)
  | eos (arg : Byte)
  | rsvd (arg : Byte)
  -- format CODE: the End code, one row per M (41_lzw_codes.md R141)
  | endM1
  | endM2
  | endM3
  | endM4
  | endM5
  | endM6
  | endM7
  | endM8
  -- format CODE: the Clear code, one row per M (R142)
  | clearM1
  | clearM2
  | clearM3
  | clearM4
  | clearM5
  | clearM6
  | clearM7
  | clearM8
  -- format CODE: the classes the state selects (R143 to R146)
  | first (c : Code)
  | invalid (c : Code)
  | known (c : Code)
  | kwkwk (c : Code)
  -- format INTERNAL (30_encoding.md R102)
  | shiftIn (b : Byte)
  | hasBits (w : BitVec 4)
  | readCode (w : BitVec 4)
  | readCodeFail (w : BitVec 4)
  | drain
  | codeStep
  | addEntry (p : Code) (s : Byte)
  | grow
  | expand (c : Code)
  | emit (s : List Byte)
  | faultEntry (cause : RaisedCause) (info : BitVec 12)
  | statusRead (a : BitVec 4)
  deriving DecidableEq, Repr

end Sys2Proof
end

