-- ==== Sys2Proof/WellFormed.lean ====
section
/-! DEFINITION. Which instruction terms the spec gives a meaning in some state: the operand checks. -/

namespace Sys2Proof

/-- A width the reader primitives are defined for (40_bit_code_reader.md R125). -/
def widthOk (w : Nat) : Bool := 1 ≤ w && w ≤ Config.cwMax

/-- The operand checks. A reader width is 1 to 12 (R125). A first code is a literal, below CLEARC ≤ 256 (30 R94). An INVALID
or KWKWK code is at least NEXT ≥ 2^M + 2 ≥ 4 (30 R94, 10_state.md R26). A dictionary entry's prefix and an expanded code
are 12-bit values and have no check of their own. -/
def Instr.wellFormed : Instr → Bool
  | .start _ => true
  | .push _ => true
  | .eos _ => true
  | .rsvd _ => true
  | .endM1 => true
  | .endM2 => true
  | .endM3 => true
  | .endM4 => true
  | .endM5 => true
  | .endM6 => true
  | .endM7 => true
  | .endM8 => true
  | .clearM1 => true
  | .clearM2 => true
  | .clearM3 => true
  | .clearM4 => true
  | .clearM5 => true
  | .clearM6 => true
  | .clearM7 => true
  | .clearM8 => true
  | .first c => decide (c.toNat < 256)
  | .invalid c => decide (4 ≤ c.toNat)
  | .known _ => true
  | .kwkwk c => decide (4 ≤ c.toNat)
  | .shiftIn _ => true
  | .hasBits w => widthOk w.toNat
  | .readCode w => widthOk w.toNat
  | .readCodeFail w => widthOk w.toNat
  | .drain => true
  | .codeStep => true
  | .addEntry _ _ => true
  | .grow => true
  | .expand _ => true
  | .emit _ => true
  | .faultEntry _ _ => true
  | .statusRead _ => true

end Sys2Proof
end

