-- ==== Sys2Proof/Decode.lean ====
section
/-! DEFINITION. Decoding of the two instruction streams, and after it the encoder: command words (30_encoding.md R99, R100)
and codes, which the state classifies (R94, R95). Internal operations have no bit pattern (R102). -/

namespace Sys2Proof

/-- Why a word is not decoded. -/
inductive DecodeError where
  /-- a command word has 10 bits (R99) -/
  | commandTooWide
  /-- a code has no class while M is not 1 to 8: CLEARC and ENDC are not defined (10_state.md R27) -/
  | noFrame
  deriving DecidableEq, Repr

/-! Command words. -/

/-- The opcode map of commands (R100): every 10-bit word matches exactly one row. -/
def decodeCmd (w : CmdWord) : Instr :=
  let arg := w.setWidth 8
  match w.toNat / 256 with
  | 0 => .start arg
  | 1 => .push arg
  | 2 => .eos arg
  | _ => .rsvd arg

/-- A command word given as a number; more than 10 bits are rejected by name. -/
def decodeCmdNat (w : Nat) : Except DecodeError Instr :=
  if w < 1024 then .ok (decodeCmd (BitVec.ofNat 10 w)) else .error .commandTooWide

/-! Codes. -/

/-- A minimum code size for which CLEARC and ENDC are defined (10_state.md R24, R27). -/
def frameSize (m : Nat) : Bool := Config.mMin ≤ m && m ≤ Config.mMax

/-- CLEARC = 2^M (10_state.md R27, for M from 1 to 8; used for another M only as log entries 23 and 24 say). -/
def clearCode (m : Nat) : Nat := 2 ^ m

/-- ENDC = CLEARC + 1 (10_state.md R27, for M from 1 to 8; used for another M only as log entries 23 and 24 say). -/
def endCode (m : Nat) : Nat := 2 ^ m + 1

/-- The part of the state that gives a code its class (R94). -/
structure CodeCtx where
  m : BitVec 4
  awaitFirst : Bool
  nextCode : BitVec 13
  deriving DecidableEq, Repr

/-- The six classes of a code (R94). -/
inductive CodeClass where
  | endFrame
  | clear
  | first
  | invalid
  | known
  | kwkwk
  deriving DecidableEq, Repr

/-- The tests of R94 and 41_lzw_codes.md R140, in their order, on unsigned numbers. No class where M is not 1 to 8. -/
def classify (x : CodeCtx) (c : Code) : Option CodeClass :=
  if frameSize x.m.toNat then
    if c.toNat = endCode x.m.toNat then some .endFrame
    else if c.toNat = clearCode x.m.toNat then some .clear
    else if x.awaitFirst then
      if c.toNat < x.nextCode.toNat then some .first else some .invalid
    else if c.toNat < x.nextCode.toNat then some .known
    else if c.toNat = x.nextCode.toNat then some .kwkwk
    else some .invalid
  else none

/-- The End row of a minimum code size (R95). -/
def endRow (m : Nat) : Option Instr :=
  match m with
  | 1 => some .endM1
  | 2 => some .endM2
  | 3 => some .endM3
  | 4 => some .endM4
  | 5 => some .endM5
  | 6 => some .endM6
  | 7 => some .endM7
  | 8 => some .endM8
  | _ => none

/-- The Clear row of a minimum code size (R95). -/
def clearRow (m : Nat) : Option Instr :=
  match m with
  | 1 => some .clearM1
  | 2 => some .clearM2
  | 3 => some .clearM3
  | 4 => some .clearM4
  | 5 => some .clearM5
  | 6 => some .clearM6
  | 7 => some .clearM7
  | 8 => some .clearM8
  | _ => none

/-- The opcode-table row of a class, for a minimum code size and a code. -/
def CodeClass.row (k : CodeClass) (m : Nat) (c : Code) : Option Instr :=
  match k with
  | .endFrame => endRow m
  | .clear => clearRow m
  | .first => some (.first c)
  | .invalid => some (.invalid c)
  | .known => some (.known c)
  | .kwkwk => some (.kwkwk c)

/-- The instruction a code is in a context (R94). -/
def decodeCode (x : CodeCtx) (c : Code) : Except DecodeError Instr :=
  match (classify x c).bind (fun k => k.row x.m.toNat c) with
  | some i => .ok i
  | none => .error .noFrame

/-! The encoder. -/

/-- The words of an instruction: a command word, or a code (sent in CW bits, least significant first), or none. -/
inductive Encoded where
  | cmd (w : CmdWord)
  | code (c : Code)
  | internal
  deriving DecidableEq, Repr

/-- A command word from its op and arg fields (R99). -/
def cmdWord (op : BitVec 2) (arg : Byte) : CmdWord := op ++ arg

/-- The encoding of an instruction (R95, R99, R100). -/
def encode : Instr → Encoded
  | .start m => .cmd (cmdWord 0 m)
  | .push b => .cmd (cmdWord 1 b)
  | .eos arg => .cmd (cmdWord 2 arg)
  | .rsvd arg => .cmd (cmdWord 3 arg)
  | .endM1 => .code 0x003
  | .endM2 => .code 0x005
  | .endM3 => .code 0x009
  | .endM4 => .code 0x011
  | .endM5 => .code 0x021
  | .endM6 => .code 0x041
  | .endM7 => .code 0x081
  | .endM8 => .code 0x101
  | .clearM1 => .code 0x002
  | .clearM2 => .code 0x004
  | .clearM3 => .code 0x008
  | .clearM4 => .code 0x010
  | .clearM5 => .code 0x020
  | .clearM6 => .code 0x040
  | .clearM7 => .code 0x080
  | .clearM8 => .code 0x100
  | .first c => .code c
  | .invalid c => .code c
  | .known c => .code c
  | .kwkwk c => .code c
  | .shiftIn _ => .internal
  | .hasBits _ => .internal
  | .readCode _ => .internal
  | .readCodeFail _ => .internal
  | .drain => .internal
  | .codeStep => .internal
  | .addEntry _ _ => .internal
  | .grow => .internal
  | .expand _ => .internal
  | .emit _ => .internal
  | .faultEntry _ _ => .internal
  | .statusRead _ => .internal

/-- The minimum code size whose End or Clear code an instruction is, if it is one. -/
def Instr.controlSize : Instr → Option Nat
  | .endM1 => some 1
  | .endM2 => some 2
  | .endM3 => some 3
  | .endM4 => some 4
  | .endM5 => some 5
  | .endM6 => some 6
  | .endM7 => some 7
  | .endM8 => some 8
  | .clearM1 => some 1
  | .clearM2 => some 2
  | .clearM3 => some 3
  | .clearM4 => some 4
  | .clearM5 => some 5
  | .clearM6 => some 6
  | .clearM7 => some 7
  | .clearM8 => some 8
  | .start _ => none
  | .push _ => none
  | .eos _ => none
  | .rsvd _ => none
  | .first _ => none
  | .invalid _ => none
  | .known _ => none
  | .kwkwk _ => none
  | .shiftIn _ => none
  | .hasBits _ => none
  | .readCode _ => none
  | .readCodeFail _ => none
  | .drain => none
  | .codeStep => none
  | .addEntry _ _ => none
  | .grow => none
  | .expand _ => none
  | .emit _ => none
  | .faultEntry _ _ => none
  | .statusRead _ => none

/-! The table's words. -/

/-- The End or Clear row whose match value under mask 0xFFF a number is (the table's END and CLEAR rows). Each value belongs
to one row, so M need not be known. -/
def controlRow (w : Nat) : Option Instr :=
  ((List.range 9).filterMap fun m =>
    if frameSize m && w == endCode m then endRow m
    else if frameSize m && w == clearCode m then clearRow m
    else none).head?

/-- The instruction read from a table word (host interface). The table holds two streams: 12-bit codes and 10-bit commands.
A 12-bit word is a code: only END and CLEAR are fixed by their bits, every other code needs the state. A 10-bit word is a
command. In any other number of bits (both rows fill two bytes) the stream is not told: a word whose low byte is not 0 and
whose value is a control code is read as that code, every other word as a command (log entry 12). -/
def decodeTableWord (nbits w : Nat) : Option Instr :=
  if nbits = 12 then controlRow w
  else if nbits = 10 ∨ w % 256 = 0 then (decodeCmdNat w).toOption
  else (controlRow w).orElse fun _ => (decodeCmdNat w).toOption

end Sys2Proof
end

