-- ==== Sys2Proof/Machine/State.lean ====
section
/-! DEFINITION. The state of LZWD as plain data: every register, memory and ghost value of 10_state.md, the inputs the host
has given the block, and the model's own fields. State.reset is the state after hardware reset (R42). -/

namespace Sys2Proof.Machine

/-- ST, the run state of the block (10_state.md R21). -/
inductive RunState where
  | idle
  | run
  | done
  | fault
  deriving DecidableEq, Repr

/-- The encoding of ST (R21). -/
def RunState.bits : RunState → BitVec 2
  | .idle => 0
  | .run => 1
  | .done => 2
  | .fault => 3

/-- CAUSE (10_state.md R22, 60_exceptions.md R221). Values 6 and 7 are never written and have no name. -/
inductive Cause where
  | none
  | insufficientBits
  | invalidLzwCode
  | truncatedLzwStream
  | badMinCodeSize
  | badCommand
  deriving DecidableEq, Repr

/-- The encoding of CAUSE (R22). -/
def Cause.bits : Cause → BitVec 3
  | .none => 0
  | .insufficientBits => 1
  | .invalidLzwCode => 2
  | .truncatedLzwStream => 3
  | .badMinCodeSize => 4
  | .badCommand => 5

/-- The CAUSE value of a raised cause (R221). -/
def causeOf : RaisedCause → Cause
  | .invalidLzwCode => .invalidLzwCode
  | .truncatedLzwStream => .truncatedLzwStream
  | .badMinCodeSize => .badMinCodeSize
  | .badCommand => .badCommand

/-- What the host does to the block through its ports (70_reset_and_hazards.md R258): a command word accepted on the command
port, a status read, a reset. -/
inductive HostInput where
  | cmd (w : CmdWord)
  | statusRead (a : BitVec 4)
  | rst
  deriving DecidableEq, Repr

/-- What an internal operation run as an instruction of its own hands to its caller (40_bit_code_reader.md R122 to R124,
42_expander.md R174). The MODEL's own (log entry 9). -/
inductive Ret where
  | none
  | flag (b : Bool)
  | code (c : Code)
  | insufficientBits
  | symbol (x : Byte)
  deriving DecidableEq, Repr

/-- The state. Registers first, then the memories, the ghost values, the ports and the model's own fields. -/
structure State where
  /-- ST (R21) -/
  st : RunState
  /-- CAUSE (R22) -/
  cause : Cause
  /-- FINFO (R23) -/
  finfo : BitVec 12
  /-- M (R24) -/
  m : BitVec 4
  /-- CW (R25) -/
  cw : BitVec 4
  /-- NEXT (R26) -/
  nextCode : BitVec 13
  /-- PREV (R29) -/
  prev : Code
  /-- AWAIT (R28) -/
  awaitFirst : Bool
  /-- BB (R30) -/
  bb : BitVec 32
  /-- BC (R31) -/
  bc : BitVec 6
  /-- PFX and SFX (R32), with stale slots kept (R45) -/
  dict : Memory Slot
  /-- STK (R33) -/
  stk : Memory Byte
  /-- SP (R33) -/
  sp : BitVec 13
  /-- OUT, ghost (R34) -/
  out : List Byte
  /-- NBYTES, ghost (R35) -/
  nbytes : Nat
  /-- NCODES, ghost (R35) -/
  ncodes : Nat
  /-- what the host has presented and the block has not yet taken, in order; the MODEL's own (log entry 2) -/
  input : List HostInput
  /-- what the last internal operation returned; the MODEL's own (log entry 9) -/
  ret : Ret
  /-- the value last presented on the port sr_data (R204, R258; log entry 9) -/
  srData : BitVec 32
  /-- counter of the free values used so far; the MODEL's own (log entry 8) -/
  fresh : Nat
  deriving DecidableEq, Repr

/-- The machine right after hardware reset (10_state.md R42). -/
def State.reset : State where
  st := .idle
  cause := .none
  finfo := 0
  m := 0
  cw := 0
  nextCode := 0
  prev := 0
  awaitFirst := false
  bb := 0
  bc := 0
  dict := []
  stk := []
  sp := 0
  out := []
  nbytes := 0
  ncodes := 0
  input := []
  ret := .none
  srData := 0
  fresh := 0

/-- Why the MODEL stops where the spec gives no next state. The block's own faults (60_exceptions.md) are next states with
ST = FAULT, never one of these. No step from a state that meets State.Inv (Safety.lean) answers one. -/
inductive Fault where
  /-- Raised by EXPAND, and so by KNOWN and KWKWK: the prefix walk reads a slot ENDC < k < NEXT that nothing has written
  (93 U1). Safe: the model stops. -/
  | unwrittenSlot
  /-- Raised by EXPAND, and so by KNOWN and KWKWK: the prefix walk pushes more than STACK_DEPTH symbols (42 R176 says it
  never does). Safe: the model stops. -/
  | stackOverflow
  /-- Raised by EXPAND, and so by KNOWN and KWKWK: a stack cell that nothing has written is popped (93 U1). Safe. -/
  | unwrittenStackCell
  deriving DecidableEq, Repr

/-- Why the MODEL gives an instruction no meaning in a state. -/
inductive Refusal where
  /-- exec's arm of an instruction that has no meaning yet. Safe. -/
  | notModelled (mnemonic : String)
  /-- Raised by HAS_BITS, READ_CODE, READ_CODE.fail, CODE_STEP, DRAIN and PUSH: the width is not 1 to 12 (40 R125, 93 U2:
  refuse). Safe. -/
  | widthOutOfDomain
  /-- Raised by SHIFT_IN and PUSH: BC > 24, the byte would not fit (40 R121, 93 U3: refuse). Safe. -/
  | shiftInOverflow
  /-- Raised by EXPAND, and so by KNOWN and KWKWK: SEQ of a control code or of a code NEXT or above that is no literal, or
  a walk that reaches one (20 R67, 42 R170, 93 U4: refuse; a literal NEXT or above runs: log entry 23). Safe. -/
  | deadSlot
  /-- Raised by CODE_STEP, EXPAND and what runs them: CLEARC and ENDC are used while M is not 1 to 8 (10 R27). Safe. -/
  | noFrame
  /-- Raised by the END, CLEAR, FIRST, INVALID, KNOWN and KWKWK rows: the row's condition in the opcode table does not hold,
  so the code is not of that class (30 R94). Safe. -/
  | classNotSelected
  /-- Raised by CODE_STEP: ST is not RUN or fewer than CW bits are buffered (41 R140: it is run only otherwise). Safe. -/
  | codeStepNotEnabled
  /-- Raised by READ_CODE.fail: at least w bits are buffered, so the read does not fail (40 R124). Safe. -/
  | readDoesNotFail
  deriving DecidableEq, Repr

end Sys2Proof.Machine
end

