-- ==== Sys2Proof/Machine/Ops.lean ====
section
/-! DEFINITION. The shared operations: the two memories, fault entry, resets, the bit buffer, entry creation, width growth,
emission. -/

namespace Sys2Proof

/-! Memories. -/

/-- Read one cell; none where nothing was written. -/
def Memory.read {α : Type} (m : Memory α) (k : Nat) : Option α :=
  match m with
  | [] => none
  | (a, v) :: rest => if a = k then some v else Memory.read rest k

/-- Write one cell, keeping the cell numbers strictly rising. -/
def Memory.write {α : Type} (m : Memory α) (k : Nat) (v : α) : Memory α :=
  match m with
  | [] => [(k, v)]
  | (a, x) :: rest =>
    if k < a then (k, v) :: (a, x) :: rest
    else if a = k then (k, v) :: rest
    else (a, x) :: Memory.write rest k v

/-- Every cell number is at least `lo` and below `size`, and the numbers rise strictly. -/
def Memory.wfFrom {α : Type} (size : Nat) (lo : Nat) (m : Memory α) : Bool :=
  match m with
  | [] => true
  | (a, _) :: rest => decide (lo ≤ a) && decide (a < size) && Memory.wfFrom size (a + 1) rest

/-- The canonical form of a memory of `size` cells. -/
def Memory.wf {α : Type} (size : Nat) (m : Memory α) : Bool := Memory.wfFrom size 0 m

namespace Machine

/-- Run `f` on the result of `o`, or stop where `o` stops. -/
def andThen {α β : Type} (o : Host.Outcome α Fault Refusal) (f : α → Host.Outcome β Fault Refusal) :
    Host.Outcome β Fault Refusal :=
  match o with
  | .next a => f a
  | .fault r => .fault r
  | .refused r => .refused r

/-! Fault entry and resets. -/

/-- Fault entry, the one exception of the block (60_exceptions.md R226): three registers are written, everything else is
frozen, and the command ends. There is no return from it (R229): START or reset leaves FAULT. -/
def raiseFault (cause : RaisedCause) (info : BitVec 12) (s : State) : State :=
  { s with st := .fault, cause := causeOf cause, finfo := info }

/-- Hardware reset (10_state.md R42, 70_reset_and_hazards.md R250): every register and ghost value as in State.reset; the
dictionary and the stack are not cleared; the host's later inputs stand. -/
def hardReset (s : State) : State :=
  { State.reset with dict := s.dict, stk := s.stk, input := s.input, fresh := s.fresh }

/-- What START with a legal operand leaves (43_host_commands.md R191, 10_state.md R43). -/
def startFrame (m : Byte) (s : State) : State :=
  { s with
    bb := 0, bc := 0
    m := m.setWidth 4
    cw := BitVec.ofNat 4 (m.toNat + 1)
    nextCode := BitVec.ofNat 13 (endCode m.toNat + 1)
    awaitFirst := true, prev := 0
    cause := .none, finfo := 0
    st := .run
    sp := 0
    out := [], nbytes := 0, ncodes := 0 }

/-- What START with an illegal operand clears before its fault entry (R192). -/
def clearFrame (s : State) : State :=
  { s with
    bb := 0, bc := 0, m := 0, cw := 0, nextCode := 0, prev := 0, awaitFirst := false
    out := [], nbytes := 0, ncodes := 0 }

/-! The bit buffer (40_bit_code_reader.md). -/

/-- SHIFT_IN (R121) where BC ≤ 24, so that no bit of the byte is lost. -/
def shiftByte (b : Byte) (s : State) : State :=
  { s with
    bb := s.bb ||| (b.setWidth 32 <<< s.bc.toNat)
    bc := s.bc + 8
    nbytes := s.nbytes + 1 }

/-- HAS_BITS (R122). -/
def hasBits (w : Nat) (s : State) : Bool := decide (w ≤ s.bc.toNat)

/-- READ_CODE for a width in its domain (R123): the code BB[w-1:0] and the state without those bits; none is the status
InsufficientBits (R124). -/
def readBits (w : Nat) (s : State) : Option (Code × State) :=
  if hasBits w s then
    some (BitVec.ofNat 12 (s.bb.toNat % 2 ^ w),
      { s with
        bb := s.bb >>> w
        bc := BitVec.ofNat 6 (s.bc.toNat - w)
        ncodes := s.ncodes + 1 })
  else none

/-- A code is buffered and the block is in RUN: a PUSH is in progress (43 R194). At a command boundary this is false
(10_state.md R37 (b)). -/
def codePending (s : State) : Bool := s.st == .run && hasBits s.cw.toNat s

/-! Dictionary bookkeeping (41_lzw_codes.md). -/

/-- ADD_ENTRY (R147), with DictWrite (20_memory.md R66). -/
def createEntry (p : Code) (x : Byte) (s : State) : State :=
  if s.nextCode.toNat < Config.dictSize then
    { s with
      dict := Memory.write s.dict s.nextCode.toNat ⟨p, x⟩
      nextCode := s.nextCode + 1 }
  else s

/-- GROW (R148). -/
def growWidth (s : State) : State :=
  if s.nextCode.toNat = 2 ^ s.cw.toNat ∧ s.cw.toNat < Config.cwMax then { s with cw := s.cw + 1 } else s

/-- The end of a KNOWN or KWKWK step for code `c` (R144, R145): ADD_ENTRY with prefix PREV, GROW, PREV. -/
def learn (c : Code) (x : Byte) (s : State) : State :=
  { growWidth (createEntry s.prev x s) with prev := c }

/-! Output (42_expander.md R178). -/

/-- Emit: the symbols are transferred in order. -/
def emitSymbols (l : List Byte) (s : State) : State := { s with out := s.out ++ l }

end Machine

end Sys2Proof
end

