-- ==== Sys2Proof/Machine/Flags.lean ====
section
/-! DEFINITION. AWAIT, the only flag of the block (10_state.md R28), what classification reads, and the level lines. -/

namespace Sys2Proof.Machine

/-- Set by START (10_state.md R43) and by CLEAR, with the registers CLEAR resets (41_lzw_codes.md R142). -/
def clearCodes (s : State) : State :=
  { s with
    nextCode := BitVec.ofNat 13 (endCode s.m.toNat + 1)
    cw := BitVec.ofNat 4 (s.m.toNat + 1)
    awaitFirst := true
    prev := 0 }

/-- Cleared by FIRST, which remembers its code (R143). -/
def rememberFirst (c : Code) (s : State) : State := { s with prev := c, awaitFirst := false }

/-- What classification reads of the state (30_encoding.md R94). -/
def codeCtx (s : State) : CodeCtx := ⟨s.m, s.awaitFirst, s.nextCode⟩

/-- The line `done` (60_exceptions.md R230). -/
def doneLine (s : State) : Bool := s.st == .done

/-- The line `fault` (60_exceptions.md R230). -/
def faultLine (s : State) : Bool := s.st == .fault

/-- The port `cmd_ready` (70_reset_and_hazards.md R258): the block is at a command boundary. -/
def cmdReady (s : State) : Bool := !codePending s

/-- The port `out_valid` (R258) as the host sees it between steps: every symbol of a step has been transferred when the step
ends (20_memory.md R69), so none is presented. -/
def outValid (_s : State) : Bool := false

end Sys2Proof.Machine
end

