-- ==== Sys2Proof/Machine/Operands.lean ====
section
/-! DEFINITION. What an operand stands for: the symbol sequence of a code (42_expander.md R170 to R172) and the status
register at an address (10_state.md R38 to R41). -/

namespace Sys2Proof.Machine

/-- CLEARC of the current frame (10_state.md R27, which defines it for M from 1 to 8 only; log entry 23). -/
def clearc (s : State) : Nat := clearCode s.m.toNat

/-- ENDC of the current frame (R27, for M from 1 to 8 only; log entry 23). -/
def endc (s : State) : Nat := endCode s.m.toNat

/-- A code with a dictionary slot: ENDC < c < NEXT (20_memory.md R65, R67). -/
def liveSlot (s : State) (k : Nat) : Bool := decide (endc s < k) && decide (k < s.nextCode.toNat)

/-- A data code with an entry: a literal or a live slot (42_expander.md R170; a literal counts even where it is NEXT or above,
log entry 23, DESIGN CHOICE). -/
def hasEntry (s : State) (k : Nat) : Bool := decide (k < clearc s) || liveSlot s k

/-- SEQ (42_expander.md R170) within a number of prefix links; none for a code that is neither a literal nor a live slot, and
at a live slot that nothing has written. DESIGN CHOICE (log entry 23): R170 does not define SEQ for c NEXT or above; a literal
c there still has the sequence [c], as the procedure of R174 gives it, and so where M is not 1 to 8 (R27). -/
def seqWithin (s : State) : Nat → Code → Option (List Byte)
  | n, c =>
    if c.toNat < clearc s then some [c.setWidth 8]
    else
      match n with
      | 0 => none
      | n + 1 =>
        if liveSlot s c.toNat then
          match Memory.read s.dict c.toNat with
          | some slot => (seqWithin s n slot.pfx).map (· ++ [slot.sfx])
          | none => none
        else none

/-- SEQ(c) (R170; outside its domain log entry 23). A sequence has at most STACK_DEPTH + 1 symbols (R176). -/
def seqOf (s : State) (c : Code) : Option (List Byte) := seqWithin s Config.stackDepth c

/-- FIRST_SYM(c) (R171) within a number of prefix links, on the domain of `seqWithin`: a literal that is NEXT or above, or one
where M is not 1 to 8, is log entry 23 (DESIGN CHOICE). -/
def firstSymWithin (s : State) : Nat → Code → Option Byte
  | n, c =>
    if c.toNat < clearc s then some (c.setWidth 8)
    else
      match n with
      | 0 => none
      | n + 1 =>
        if liveSlot s c.toNat then
          match Memory.read s.dict c.toNat with
          | some slot => firstSymWithin s n slot.pfx
          | none => none
        else none

/-- FIRST_SYM(c) (R171; outside its domain log entry 23). -/
def firstSym (s : State) (c : Code) : Option Byte := firstSymWithin s Config.stackDepth c

/-- LEN(c) (R172; outside its domain log entry 23). -/
def lenOf (s : State) (c : Code) : Option Nat := (seqOf s c).map List.length

/-- STATUS (10_state.md R39): ST in 1:0, AWAIT in 2, CAUSE in 6:4. -/
def statusWord (s : State) : BitVec 32 :=
  (s.cause.bits ++ (0#1 : BitVec 1) ++ BitVec.ofBool s.awaitFirst ++ s.st.bits).setWidth 32

/-- The read-only status registers (R39, R40); the reserved addresses 0xA to 0xF read 0 (R41). -/
def statusReg (s : State) (a : BitVec 4) : BitVec 32 :=
  match a.toNat with
  | 0 => statusWord s
  | 1 => s.finfo.setWidth 32
  | 2 => s.m.setWidth 32
  | 3 => s.cw.setWidth 32
  | 4 => s.nextCode.setWidth 32
  | 5 => s.prev.setWidth 32
  | 6 => s.bc.setWidth 32
  | 7 => s.bb
  | 8 => if frameSize s.m.toNat then BitVec.ofNat 32 (clearc s) else 0
  | 9 => if frameSize s.m.toNat then BitVec.ofNat 32 (endc s) else 0
  | _ => 0

/-- BITPOS = 8 NBYTES - BC (10_state.md R36), the place in the code stream of the next bit. -/
def bitpos (s : State) : Int := 8 * (s.nbytes : Int) - (s.bc.toNat : Int)

end Sys2Proof.Machine
end

