-- ==== Sys2Proof/Machine/Expander.lean ====
section
/-! DEFINITION. The expander: the prefix walk onto the stack and back, EXPAND and EMIT (42_expander.md R174, R178). -/

namespace Sys2Proof.Machine

/-- Push one symbol: STK[SP] <- x, SP <- SP + 1. -/
def pushSymbol (x : Byte) (s : State) : State :=
  { s with stk := Memory.write s.stk s.sp.toNat x, sp := s.sp + 1 }

/-- The first loop of EXPAND with so many places left on the stack: push SFX and follow PFX until a literal is met; the
result is the literal's symbol. A slot outside ENDC < k < NEXT is never read (20_memory.md R67, 93 U4: log entry 7). DESIGN
CHOICE (log entry 23): a literal is k < CLEARC, as in R174's loop, also where R170 leaves SEQ(k) undefined because k is NEXT or
above. -/
def walkPrefixes : Nat → Code → State → Host.Outcome (Byte × State) Fault Refusal
  | n, k, s =>
    if k.toNat < clearc s then .next (k.setWidth 8, s)
    else if liveSlot s k.toNat then
      match Memory.read s.dict k.toNat with
      | none => .fault .unwrittenSlot
      | some slot =>
        match n with
        | 0 => .fault .stackOverflow
        | n + 1 => walkPrefixes n slot.pfx (pushSymbol slot.sfx s)
    else .refused .deadSlot

/-- The second loop of EXPAND, with SP = n: pop and transfer until the stack is empty. -/
def popSymbols : Nat → State → Host.Outcome State Fault Refusal
  | 0, s => .next s
  | n + 1, s =>
    match Memory.read s.stk n with
    | none => .fault .unwrittenStackCell
    | some x => popSymbols n (emitSymbols [x] { s with sp := BitVec.ofNat 13 n })

/-- EXPAND(c) (R174): the symbols of c are transferred in order and the first one is returned. CLEARC and ENDC must be
defined (10_state.md R27). -/
def expandCode (c : Code) (s : State) : Host.Outcome (Byte × State) Fault Refusal :=
  if frameSize s.m.toNat then
    andThen (walkPrefixes Config.stackDepth c { s with sp := 0 }) fun (f, s1) =>
      andThen (popSymbols s1.sp.toNat (emitSymbols [f] s1)) fun s2 => .next (f, s2)
  else .refused .noFrame

/-- EXPAND as an instruction of its own; what it returns goes to `ret` (log entry 9). -/
def execExpand (c : Code) (s : State) : Host.Outcome State Fault Refusal :=
  andThen (expandCode c s) fun (f, s1) => .next { s1 with ret := .symbol f }

/-- EMIT (R178). -/
def execEmit (l : List Byte) (s : State) : Host.Outcome State Fault Refusal := .next (emitSymbols l s)

end Sys2Proof.Machine
end

