-- ==== Sys2Proof/Machine/Codes.lean ====
section
/-! DEFINITION. The codes: the six classes (41_lzw_codes.md R141 to R146), each as a row of the opcode table under its
condition, ADD_ENTRY, GROW, the code step (R140) and the drain loop (43_host_commands.md R194). -/

namespace Sys2Proof.Machine

/-! The class rules, without their conditions. -/

/-- END (R141). -/
def endRule (s : State) : Host.Outcome State Fault Refusal := .next { s with st := .done }

/-- CLEAR (R142). -/
def clearRule (s : State) : Host.Outcome State Fault Refusal := .next (clearCodes s)

/-- FIRST (R143). -/
def firstRule (c : Code) (s : State) : Host.Outcome State Fault Refusal :=
  .next (rememberFirst c (emitSymbols [c.setWidth 8] s))

/-- KNOWN (R144): the entry is read and emitted before the new entry is written (20_memory.md R69 (c)). -/
def knownRule (c : Code) (s : State) : Host.Outcome State Fault Refusal :=
  andThen (expandCode c s) fun (f, s1) => .next (learn c f s1)

/-- KWKWK (R145, 42_expander.md R175): the sequence of PREV and then its first symbol. -/
def kwkwkRule (c : Code) (s : State) : Host.Outcome State Fault Refusal :=
  andThen (expandCode s.prev s) fun (f, s1) => .next (learn c f (emitSymbols [f] s1))

/-- INVALID (R146, 60_exceptions.md R222): fault entry, nothing else. -/
def invalidRule (c : Code) (s : State) : Host.Outcome State Fault Refusal := .next (raiseFault .invalidLzwCode c s)

/-! The rows of the table: a class rule under the row's condition. -/

/-- Run a class rule where ST = RUN and code `c` is of class `k`; the row has no meaning otherwise (log entry 10). -/
def whenClass (k : CodeClass) (c : Code) (s : State) (rule : Host.Outcome State Fault Refusal) :
    Host.Outcome State Fault Refusal :=
  if s.st = .run ∧ classify (codeCtx s) c = some k then rule else .refused .classNotSelected

/-- The End code of minimum code size `m`: the row's condition is M = m and ST = RUN. -/
def endOf (m : Nat) (s : State) : Host.Outcome State Fault Refusal :=
  if s.st = .run ∧ s.m.toNat = m then endRule s else .refused .classNotSelected

/-- The Clear code of minimum code size `m`. -/
def clearOf (m : Nat) (s : State) : Host.Outcome State Fault Refusal :=
  if s.st = .run ∧ s.m.toNat = m then clearRule s else .refused .classNotSelected

/-- END.m1 (R141). -/
def execEndM1 (s : State) : Host.Outcome State Fault Refusal := endOf 1 s
/-- END.m2 (R141). -/
def execEndM2 (s : State) : Host.Outcome State Fault Refusal := endOf 2 s
/-- END.m3 (R141). -/
def execEndM3 (s : State) : Host.Outcome State Fault Refusal := endOf 3 s
/-- END.m4 (R141). -/
def execEndM4 (s : State) : Host.Outcome State Fault Refusal := endOf 4 s
/-- END.m5 (R141). -/
def execEndM5 (s : State) : Host.Outcome State Fault Refusal := endOf 5 s
/-- END.m6 (R141). -/
def execEndM6 (s : State) : Host.Outcome State Fault Refusal := endOf 6 s
/-- END.m7 (R141). -/
def execEndM7 (s : State) : Host.Outcome State Fault Refusal := endOf 7 s
/-- END.m8 (R141). -/
def execEndM8 (s : State) : Host.Outcome State Fault Refusal := endOf 8 s
/-- CLEAR.m1 (R142). -/
def execClearM1 (s : State) : Host.Outcome State Fault Refusal := clearOf 1 s
/-- CLEAR.m2 (R142). -/
def execClearM2 (s : State) : Host.Outcome State Fault Refusal := clearOf 2 s
/-- CLEAR.m3 (R142). -/
def execClearM3 (s : State) : Host.Outcome State Fault Refusal := clearOf 3 s
/-- CLEAR.m4 (R142). -/
def execClearM4 (s : State) : Host.Outcome State Fault Refusal := clearOf 4 s
/-- CLEAR.m5 (R142). -/
def execClearM5 (s : State) : Host.Outcome State Fault Refusal := clearOf 5 s
/-- CLEAR.m6 (R142). -/
def execClearM6 (s : State) : Host.Outcome State Fault Refusal := clearOf 6 s
/-- CLEAR.m7 (R142). -/
def execClearM7 (s : State) : Host.Outcome State Fault Refusal := clearOf 7 s
/-- CLEAR.m8 (R142). -/
def execClearM8 (s : State) : Host.Outcome State Fault Refusal := clearOf 8 s

/-- FIRST (R143). -/
def execFirst (c : Code) (s : State) : Host.Outcome State Fault Refusal := whenClass .first c s (firstRule c s)

/-- INVALID (R146). -/
def execInvalid (c : Code) (s : State) : Host.Outcome State Fault Refusal := whenClass .invalid c s (invalidRule c s)

/-- KNOWN (R144). -/
def execKnown (c : Code) (s : State) : Host.Outcome State Fault Refusal := whenClass .known c s (knownRule c s)

/-- KWKWK (R145). -/
def execKwkwk (c : Code) (s : State) : Host.Outcome State Fault Refusal := whenClass .kwkwk c s (kwkwkRule c s)

/-! The internal operations of DEC and SEQR. -/

/-- ADD_ENTRY(p, x) (R147). -/
def execAddEntry (p : Code) (x : Byte) (s : State) : Host.Outcome State Fault Refusal := .next (createEntry p x s)

/-- GROW (R148). -/
def execGrow (s : State) : Host.Outcome State Fault Refusal := .next (growWidth s)

/-- Execute a fetched code by its class (R140). -/
def runCode (c : Code) (s : State) : Host.Outcome State Fault Refusal :=
  match classify (codeCtx s) c with
  | some .endFrame => endRule s
  | some .clear => clearRule s
  | some .first => firstRule c s
  | some .invalid => invalidRule c s
  | some .known => knownRule c s
  | some .kwkwk => kwkwkRule c s
  | none => .refused .noFrame

/-- The fetch of a code step: READ_CODE(CW), where ST = RUN and BC ≥ CW (R140). -/
def fetchCode (s : State) : Host.Outcome (Code × State) Fault Refusal :=
  if s.st = .run then
    if widthOk s.cw.toNat then
      match readBits s.cw.toNat s with
      | some r => .next r
      | none => .refused .codeStepNotEnabled
    else .refused .widthOutOfDomain
  else .refused .codeStepNotEnabled

/-- CODE_STEP (R140). -/
def execCodeStep (s : State) : Host.Outcome State Fault Refusal :=
  andThen (fetchCode s) fun (c, s1) => runCode c s1

/-- The drain loop (43 R194), at most so many code steps. -/
def drainWithin : Nat → State → Host.Outcome State Fault Refusal
  | 0, s => .next s
  | n + 1, s =>
    if s.st = .run then
      if widthOk s.cw.toNat then
        if hasBits s.cw.toNat s then andThen (execCodeStep s) (drainWithin n) else .next s
      else .refused .widthOutOfDomain
    else .next s

/-- DRAIN (43 R194). Every code step consumes at least one bit, so BC + 1 turns always reach the loop's exit. -/
def execDrain (s : State) : Host.Outcome State Fault Refusal := drainWithin (s.bc.toNat + 1) s

end Sys2Proof.Machine
end

