-- ==== Sys2Proof/Machine/Reader.lean ====
section
/-! DEFINITION. The reader's operations run as instructions of their own: SHIFT_IN, HAS_BITS, READ_CODE, READ_CODE.fail
(40_bit_code_reader.md R121 to R125). What they return goes to `ret` (log entry 9). -/

namespace Sys2Proof.Machine

/-- SHIFT_IN (R121); refused where a bit would be lost (93 U3). -/
def execShiftIn (b : Byte) (s : State) : Host.Outcome State Fault Refusal :=
  if s.bc.toNat + 8 ≤ Config.bbBits then .next (shiftByte b s) else .refused .shiftInOverflow

/-- HAS_BITS (R122): no state changes, the answer is returned. -/
def execHasBits (w : BitVec 4) (s : State) : Host.Outcome State Fault Refusal :=
  if widthOk w.toNat then .next { s with ret := .flag (hasBits w.toNat s) } else .refused .widthOutOfDomain

/-- READ_CODE (R123), and the status InsufficientBits where too few bits are buffered (R124). -/
def execReadCode (w : BitVec 4) (s : State) : Host.Outcome State Fault Refusal :=
  if widthOk w.toNat then
    match readBits w.toNat s with
    | some (c, s') => .next { s' with ret := .code c }
    | none => .next { s with ret := .insufficientBits }
  else .refused .widthOutOfDomain

/-- The failure case of READ_CODE as a row of its own (R124): no code, no state change. -/
def execReadCodeFail (w : BitVec 4) (s : State) : Host.Outcome State Fault Refusal :=
  if widthOk w.toNat then
    if hasBits w.toNat s then .refused .readDoesNotFail
    else .next { s with ret := .insufficientBits }
  else .refused .widthOutOfDomain

end Sys2Proof.Machine
end

