-- ==== Sys2Proof/Machine/Commands.lean ====
section
/-! DEFINITION. The host commands START, PUSH, EOS, RSVD (43_host_commands.md R191 to R200), the status read (R204) and
fault entry as a row of its own (60_exceptions.md R226). -/

namespace Sys2Proof.Machine

/-- START m (R191, R192), accepted in every state. -/
def execStart (m : Byte) (s : State) : Host.Outcome State Fault Refusal :=
  if frameSize m.toNat then .next (startFrame m s)
  else .next (raiseFault .badMinCodeSize (m.setWidth 12) (clearFrame s))

/-- BadCommand with the offending command word in FINFO (R196, R199, R200). -/
def badCommand (w : CmdWord) (s : State) : State := raiseFault .badCommand (w.setWidth 12) s

/-- PUSH b (R193, R195, R196). -/
def execPush (b : Byte) (s : State) : Host.Outcome State Fault Refusal :=
  match s.st with
  | .idle => .next (badCommand (cmdWord 1 b) s)
  | .run => andThen (execShiftIn b s) execDrain
  | .done => .next s
  | .fault => .next s

/-- EOS (R197 to R199). -/
def execEos (arg : Byte) (s : State) : Host.Outcome State Fault Refusal :=
  match s.st with
  | .idle => .next (badCommand (cmdWord 2 arg) s)
  | .run => .next (raiseFault .truncatedLzwStream (s.bc.setWidth 12) s)
  | .done => .next s
  | .fault => .next s

/-- RSVD (R200). -/
def execRsvd (arg : Byte) (s : State) : Host.Outcome State Fault Refusal :=
  match s.st with
  | .idle => .next (badCommand (cmdWord 3 arg) s)
  | .run => .next (badCommand (cmdWord 3 arg) s)
  | .done => .next (badCommand (cmdWord 3 arg) s)
  | .fault => .next s

/-- FAULT_ENTRY (60_exceptions.md R226). -/
def execFaultEntry (cause : RaisedCause) (info : BitVec 12) (s : State) : Host.Outcome State Fault Refusal :=
  .next (raiseFault cause info s)

/-- STATUS_READ (R204): the register at a command boundary; while a command is in progress the value is unspecified, a free
value (10_state.md R38, 93 U6). Only the port sr_data shows it. -/
def execStatusRead (a : BitVec 4) (s : State) : Host.Outcome State Fault Refusal :=
  if cmdReady s then .next { s with srData := statusReg s a }
  else .next { s with srData := Config.midCommandStatus s.fresh a, fresh := s.fresh + 1 }

end Sys2Proof.Machine
end

