-- ==== Sys2Proof/Machine/Dispatch.lean ====
section
/-! DEFINITION. exec: one arm per row of the opcode table, each one call of the row's own meaning. -/

namespace Sys2Proof.Machine

def exec (i : Instr) (s : State) : Host.Outcome State Fault Refusal :=
  match i with
  | .start m => Sys2Proof.Machine.execStart m s
  | .push b => Sys2Proof.Machine.execPush b s
  | .eos arg => Sys2Proof.Machine.execEos arg s
  | .rsvd arg => Sys2Proof.Machine.execRsvd arg s
  | .endM1 => Sys2Proof.Machine.execEndM1 s
  | .endM2 => Sys2Proof.Machine.execEndM2 s
  | .endM3 => Sys2Proof.Machine.execEndM3 s
  | .endM4 => Sys2Proof.Machine.execEndM4 s
  | .endM5 => Sys2Proof.Machine.execEndM5 s
  | .endM6 => Sys2Proof.Machine.execEndM6 s
  | .endM7 => Sys2Proof.Machine.execEndM7 s
  | .endM8 => Sys2Proof.Machine.execEndM8 s
  | .clearM1 => Sys2Proof.Machine.execClearM1 s
  | .clearM2 => Sys2Proof.Machine.execClearM2 s
  | .clearM3 => Sys2Proof.Machine.execClearM3 s
  | .clearM4 => Sys2Proof.Machine.execClearM4 s
  | .clearM5 => Sys2Proof.Machine.execClearM5 s
  | .clearM6 => Sys2Proof.Machine.execClearM6 s
  | .clearM7 => Sys2Proof.Machine.execClearM7 s
  | .clearM8 => Sys2Proof.Machine.execClearM8 s
  | .first c => Sys2Proof.Machine.execFirst c s
  | .invalid c => Sys2Proof.Machine.execInvalid c s
  | .known c => Sys2Proof.Machine.execKnown c s
  | .kwkwk c => Sys2Proof.Machine.execKwkwk c s
  | .shiftIn b => Sys2Proof.Machine.execShiftIn b s
  | .hasBits w => Sys2Proof.Machine.execHasBits w s
  | .readCode w => Sys2Proof.Machine.execReadCode w s
  | .readCodeFail w => Sys2Proof.Machine.execReadCodeFail w s
  | .drain => Sys2Proof.Machine.execDrain s
  | .codeStep => Sys2Proof.Machine.execCodeStep s
  | .addEntry p x => Sys2Proof.Machine.execAddEntry p x s
  | .grow => Sys2Proof.Machine.execGrow s
  | .expand c => Sys2Proof.Machine.execExpand c s
  | .emit l => Sys2Proof.Machine.execEmit l s
  | .faultEntry cause info => Sys2Proof.Machine.execFaultEntry cause info s
  | .statusRead a => Sys2Proof.Machine.execStatusRead a s

end Sys2Proof.Machine
end

