-- ==== Sys2Proof/Machine/Sequencer.lean ====
section
/-! DEFINITION. One step of the machine (00_scope.md R6) and how an instruction is placed where the next step takes it. -/

namespace Sys2Proof.Machine

/-- Run the instruction that a fetched code is (30_encoding.md R94). -/
def runDecoded (c : Code) (s : State) : Host.Outcome State Fault Refusal :=
  match decodeCode (codeCtx s) c with
  | .ok i => exec i s
  | .error _ => .refused .noFrame

/-- One step. A reset takes effect at once (70_reset_and_hazards.md R250). While a code is buffered in RUN a PUSH is in
progress and no command is accepted (43_host_commands.md R190): the step is its next code step. At a command boundary the
next host input is taken and executed completely; with none the block idles with all state held (60_exceptions.md R238). -/
def sequencerStep (s : State) : Host.Outcome State Fault Refusal :=
  match s.input with
  | .rst :: rest => .next (hardReset { s with input := rest })
  | .cmd w :: rest =>
    if codePending s then andThen (fetchCode s) fun (c, s1) => runDecoded c s1
    else exec (decodeCmd w) { s with input := rest }
  | .statusRead a :: rest =>
    if codePending s then andThen (fetchCode s) fun (c, s1) => runDecoded c s1
    else exec (.statusRead a) { s with input := rest }
  | [] =>
    if codePending s then andThen (fetchCode s) fun (c, s1) => runDecoded c s1
    else .next s

/-- The next input is this command word; a PUSH in progress is dropped with its buffered bits, so that the block is at a
command boundary. -/
def placeCommand (w : CmdWord) (s : State) : State :=
  if codePending s then { s with bb := 0, bc := 0, input := .cmd w :: s.input }
  else { s with input := .cmd w :: s.input }

/-- The buffer holds exactly this code, read at the first width of a frame of minimum code size `m`, and the block is in
RUN; a reset the host has asked for is dropped, since it would come first. -/
def placeCode (m : Nat) (c : Code) (s : State) : State :=
  { s with
    st := .run
    m := BitVec.ofNat 4 m
    cw := BitVec.ofNat 4 (m + 1)
    bb := c.setWidth 32
    bc := BitVec.ofNat 6 (m + 1)
    input := s.input.dropWhile (· == .rst) }

/-- The state whose next step runs the instruction of a table word (log entry 12). -/
def placeTableWord (s : State) (nbits w : Nat) : State :=
  match decodeTableWord nbits w with
  | none => s
  | some i =>
    match encode i, i.controlSize with
    | .cmd cw, _ => placeCommand cw s
    | .code c, some m => placeCode m c s
    | .code _, none => s
    | .internal, _ => s

end Sys2Proof.Machine
end

