-- ==== Sys2Proof/Machine/Step.lean ====
section
/-! DEFINITION. The step and the host's way to place an instruction; both only call Sequencer.lean. -/

namespace Sys2Proof.Machine

/-- One step of the machine. -/
def step (s : State) : Host.Outcome State Fault Refusal := sequencerStep s

/-- The state whose next step runs the instruction of a table word. -/
def State.withFetchWord (s : State) (nbits w : Nat) : State := placeTableWord s nbits w

end Sys2Proof.Machine
end

