-- ==== Sys2Proof/Machine/Stream.lean ====
section
/-! DEFINITION. The code stream as bits (20_memory.md R63), the written notation of code streams (30_encoding.md R103) and
the procedure PACK (R105), with the cut of a stream into codes by width bookkeeping alone (R93). -/

namespace Sys2Proof.Machine

/-- The low `n` bits of a number, least significant first (R63). -/
def bitsOf : Nat → Nat → List Bool
  | 0, _ => []
  | n + 1, v => (v % 2 == 1) :: bitsOf n (v / 2)

/-- The number whose bits, least significant first, these are (R92). -/
def valueOf : List Bool → Nat
  | [] => 0
  | b :: rest => b.toNat + 2 * valueOf rest

/-- The bit stream of payload bytes in arrival order (R63). -/
def streamBits (bytes : List Byte) : List Bool := bytes.flatMap fun b => bitsOf 8 b.toNat

/-- Cut bits into at most `n` bytes, filling the high bits of the last with 0 (R105). -/
def bytesWithin : Nat → List Bool → List Byte
  | 0, _ => []
  | n + 1, bits =>
    match bits with
    | [] => []
    | _ :: _ => BitVec.ofNat 8 (valueOf (bits.take 8)) :: bytesWithin n (bits.drop 8)

/-- The bytes of a bit stream. -/
def bytesOf (bits : List Bool) : List Byte := bytesWithin bits.length bits

/-- The width bookkeeping: what decides the width of the next code (R93), without the dictionary's contents. -/
structure WidthCtx where
  m : Nat
  cw : Nat
  next : Nat
  awaitFirst : Bool
  deriving DecidableEq, Repr

/-- The bookkeeping after START or CLEAR (30_encoding.md R95). DESIGN CHOICE (log entry 24): where M is not 1 to 8, for which
10_state.md R27 defines no CLEARC and ENDC, it takes them as 2^M and 2^M + 1 all the same. -/
def WidthCtx.fresh (m : Nat) : WidthCtx := ⟨m, m + 1, endCode m + 1, true⟩

/-- ADD_ENTRY and GROW without the entry (41_lzw_codes.md R147, R148). -/
def WidthCtx.learn (x : WidthCtx) : WidthCtx :=
  let next := if x.next < Config.dictSize then x.next + 1 else x.next
  let cw := if next = 2 ^ x.cw ∧ x.cw < Config.cwMax then x.cw + 1 else x.cw
  { x with next := next, cw := cw }

/-- The bookkeeping after a code (41_lzw_codes.md R140 to R148); End and invalid codes leave it (log entry 21). Where M is not
1 to 8 CLEARC and ENDC are log entry 24 (DESIGN CHOICE). -/
def WidthCtx.after (x : WidthCtx) (c : Nat) : WidthCtx :=
  if c = endCode x.m then x
  else if c = clearCode x.m then WidthCtx.fresh x.m
  else if x.awaitFirst then
    if c < x.next then { x with awaitFirst := false } else x
  else if c ≤ x.next then x.learn
  else x

/-- A code after which no further code is fetched: the End code (41_lzw_codes.md R141) or an invalid one (R146).
Where M is not 1 to 8, log entry 24 (DESIGN CHOICE). -/
def WidthCtx.stops (x : WidthCtx) (c : Nat) : Bool :=
  c == endCode x.m || (c != clearCode x.m && if x.awaitFirst then decide (x.next ≤ c) else decide (x.next < c))

/-- A code list up to and with the first code that stops the block. -/
def WidthCtx.untilStop (x : WidthCtx) : List Nat → List Nat
  | [] => []
  | c :: rest => if x.stops c then [c] else c :: (x.after c).untilStop rest

/-- The bits of a code list, each code in its width; none where a code does not fit its width (R105; log
entry 24, DEDUCED). Where M is not 1 to 8, log entry 24 (DESIGN CHOICE). -/
def packBits (x : WidthCtx) : List Nat → Option (List Bool)
  | [] => some []
  | c :: rest =>
    if c < 2 ^ x.cw then (packBits (x.after c) rest).map (bitsOf x.cw c ++ ·) else none

/-- Cut at most `n` codes from a bit stream (R93): each is as many bits as the bookkeeping says (where M is not 1
to 8, log entry 24). -/
def cutCodes : Nat → WidthCtx → List Bool → List Nat
  | 0, _, _ => []
  | n + 1, x, bits =>
    if x.cw ≤ bits.length then
      let c := valueOf (bits.take x.cw)
      c :: cutCodes n (x.after c) (bits.drop x.cw)
    else []

/-- One item of the written notation: `CLR`, `END` or `#n` (R103). -/
inductive CodeName where
  | clr
  | endOfFrame
  | data (n : Nat)
  deriving DecidableEq, Repr

/-- An item with its optional width check `/w` (R103). -/
structure CodeItem where
  name : CodeName
  width : Option Nat
  deriving DecidableEq, Repr

/-- The value of an item for minimum code size `m` (R103). An item `#n` has the value n, also where n is CLEARC or ENDC, and
CLR and END are 2^m and 2^m + 1 for every m (log entry 24, DESIGN CHOICE). -/
def CodeName.value (m : Nat) : CodeName → Nat
  | .clr => clearCode m
  | .endOfFrame => endCode m
  | .data n => n

/-- Every width written down is the width the rules determine. -/
def widthsAgree (x : WidthCtx) : List CodeItem → Bool
  | [] => true
  | i :: rest => (i.width == none || i.width == some x.cw) && widthsAgree (x.after (i.name.value x.m)) rest

/-- PACK (R105): payload bytes of a written code stream; none where a code does not fit its width.
DESIGN CHOICE (log entry 24): none where a width check fails; and where m is not 1 to 8, for which R27 defines no CLEARC and
ENDC, it packs all the same. -/
def pack (m : Nat) (items : List CodeItem) : Option (List Byte) :=
  if widthsAgree (.fresh m) items then
    (packBits (.fresh m) (items.map (·.name.value m))).map bytesOf
  else none

end Sys2Proof.Machine
end

