-- ==== Sys2Proof/Machine/Feed.lean ====
section
/-! DEFINITION. The host agent's feed procedure (43_host_commands.md R206, R207) and the sub-block framing it reads
(30_encoding.md R98): from the bytes of an image block to the commands the host has to issue while the block is not in
FAULT. That the host stops at a fault (R209) is in HostLoop.lean, which runs these commands on the block. -/

namespace Sys2Proof.Machine

/-- How the host's work on an image block ended. -/
inductive FeedEnd where
  /-- the zero-length sub-block was read and EOS issued (R207) -/
  | endOfStream
  /-- the host's own error: the buffer ended first (R207) -/
  | unexpectedEof
  /-- the block went into FAULT, and the host stopped with the error of this cause (R209); only HostLoop.lean ends so -/
  | blockFault (cause : Cause)
  deriving DecidableEq, Repr

/-- The commands to issue, how the loop ends where no fault stops it, and the bytes after it (after UnexpectedEof, what follows
the last byte read: log entry 18). -/
structure Feed where
  inputs : List HostInput
  ending : FeedEnd
  rest : List Byte
  deriving DecidableEq, Repr

/-- One PUSH per payload byte, in file order. -/
def pushAll (bytes : List Byte) : List HostInput := bytes.map fun b => .cmd (cmdWord 1 b)

/-- The sub-block loop (R207), at most so many sub-blocks: a length byte, then that many payload bytes; length 0 is EOS.
A sub-block that the buffer cuts short issues nothing. -/
def feedWithin : Nat → List Byte → Feed
  | 0, buf => ⟨[], .unexpectedEof, buf⟩
  | n + 1, buf =>
    match buf with
    | [] => ⟨[], .unexpectedEof, []⟩
    | len :: rest =>
      if len.toNat = 0 then ⟨[.cmd (cmdWord 2 0)], .endOfStream, rest⟩
      else if rest.length < len.toNat then ⟨[], .unexpectedEof, rest⟩
      else
        let f := feedWithin n (rest.drop len.toNat)
        { f with inputs := pushAll (rest.take len.toNat) ++ f.inputs }

/-- The sub-block stream, read to its end: of the two ways that R208 allows after the End code, the one that goes on issuing
PUSH and EOS (log entry 18, DEDUCED). Every sub-block takes at least one byte of the buffer, so its length bounds the loop. -/
def feedSubBlocks (buf : List Byte) : Feed := feedWithin (buf.length + 1) buf

/-- The feed of one image block (R206): the `lzw_minimum_code_size` byte is START's operand, then the sub-block stream.
DESIGN CHOICE (log entry 18): R206 does not say what the host does where the buffer holds no such byte; here it issues no
START and ends with its own error UnexpectedEof, as R207 has it for a missing length byte. -/
def feedImage (buf : List Byte) : Feed :=
  match buf with
  | [] => ⟨[], .unexpectedEof, []⟩
  | m :: rest =>
    let f := feedSubBlocks rest
    { f with inputs := .cmd (cmdWord 0 m) :: f.inputs }

/-- The sub-block framing of payloads (R98): each with its length byte, then the zero-length sub-block.
DESIGN CHOICE (log entry 25): R105 splits into runs of 1 to 255 bytes and the spec gives no framing of another; here an empty
run gives a length byte of 0 (an early terminator), and one of more than 255 bytes its length modulo 256. -/
def frameSubBlocks (chunks : List (List Byte)) : List Byte :=
  (chunks.flatMap fun c => BitVec.ofNat 8 c.length :: c) ++ [0]

end Sys2Proof.Machine
end

