-- ==== Sys2Proof/Machine/HostLoop.lean ====
section
/-! DEFINITION. The host agent against the block (43_host_commands.md R206 to R209): it issues the commands of one image block
one at a time and stops the decode when the block is in FAULT. -/

namespace Sys2Proof.Machine

/-- What the host has after one image block: the block's state, the commands it issued, how its work ended, and the bytes it
may go on with (none once a fault has stopped the decode of the whole file, R209). -/
structure HostRun where
  block : State
  issued : List HostInput
  ending : FeedEnd
  rest : List Byte
  deriving DecidableEq, Repr

/-- The host presents one command to the block, which is at a command boundary, and waits until it has completed
(R190); no other input of the host is waiting (log entry 22, DEDUCED). -/
def issueCommand (i : HostInput) (s : State) : Host.Outcome State Fault Refusal := sequencerStep { s with input := [i] }

/-- Issue the commands in turn. The first that leaves the block in FAULT ends the host's work with the error of the block's
cause: no later PUSH and no EOS is issued (R209). With no command left the feed's own ending stands; after UnexpectedEof
that is without EOS (R209). That the host looks at the line `fault` after every command, and that the causes
BadMinCodeSize and BadCommand, which R209 does not name, stop it alike, is log entry 22 (DESIGN CHOICE). -/
def issueUntilFault (ending : FeedEnd) (rest : List Byte) :
    List HostInput → State → Host.Outcome HostRun Fault Refusal
  | [], s => .next ⟨s, [], ending, rest⟩
  | i :: more, s =>
    andThen (issueCommand i s) fun t =>
      if faultLine t then .next ⟨t, [i], .blockFault t.cause, []⟩
      else andThen (issueUntilFault ending rest more t) fun r => .next { r with issued := i :: r.issued }

/-- The host decodes one image block from its buffer (R206 to R209). -/
def decodeImage (buf : List Byte) (s : State) : Host.Outcome HostRun Fault Refusal :=
  let f := feedImage buf
  issueUntilFault f.ending f.rest f.inputs s

end Sys2Proof.Machine
end

