-- ==== Sys2Proof/Machine/Trace.lean ====
section
/-! DEFINITION. Observations of the block, for statements only: its width bookkeeping (30_encoding.md R93) and the codes that
it fetches (41_lzw_codes.md R140, 43_host_commands.md R194). No step of the machine calls them. -/

namespace Sys2Proof.Machine

/-- The part of the block's registers that decides the width of the next code (R93). -/
def widthCtx (s : State) : WidthCtx := ⟨s.m.toNat, s.cw.toNat, s.nextCode.toNat, s.awaitFirst⟩

/-- The codes that the drain loop fetches, in order, in at most so many code steps. -/
def drainCodes : Nat → State → List Code
  | 0, _ => []
  | n + 1, s =>
    if codePending s then
      match fetchCode s with
      | .next (c, u) =>
        match runCode c u with
        | .next t => c :: drainCodes n t
        | .fault _ => [c]
        | .refused _ => [c]
      | .fault _ => []
      | .refused _ => []
    else []

/-- The codes that the block fetches while these bytes are pushed one by one. -/
def pushCodes : List Byte → State → List Code
  | [], _ => []
  | b :: rest, s =>
    match execPush b s with
    | .next t =>
      (if s.st = .run then drainCodes (s.bc.toNat + 9) (shiftByte b s) else []) ++ pushCodes rest t
    | .fault _ => []
    | .refused _ => []

end Sys2Proof.Machine
end

