-- ==== Sys2Proof/Machine/Abstract.lean ====
section
/-! DEFINITION. The spec's equivalent abstract form, for statements only: the reader as a queue of bits
(40_bit_code_reader.md R130) and the dictionary as a map from codes to sequences (41_lzw_codes.md R150), with the eager and
the lazy schedule (43_host_commands.md R201). No step of the machine calls it (log entry 21); with M not 1 to 8, log entry 24. -/

namespace Sys2Proof.Machine

/-- The abstract state: D, P and Q in place of PFX, SFX, PREV, BB and BC. -/
structure AbsState where
  st : RunState
  cause : Cause
  finfo : BitVec 12
  m : Nat
  cw : Nat
  next : Nat
  awaitFirst : Bool
  entries : Memory (List Byte)
  last : List Byte
  queue : List Bool
  out : List Byte
  deriving DecidableEq, Repr

/-- The literal entries c -> [c] for c < 2^m (R150). -/
def literalEntries (m : Nat) : Memory (List Byte) := (List.range (clearCode m)).map fun c => (c, [BitVec.ofNat 8 c])

/-- Fault entry (60_exceptions.md R226). -/
def absFault (cause : RaisedCause) (info : BitVec 12) (a : AbsState) : AbsState :=
  { a with st := .fault, cause := causeOf cause, finfo := info }

/-- The reset that START and CLEAR share (R150). -/
def absClear (m : Nat) (a : AbsState) : AbsState :=
  { a with cw := m + 1, next := endCode m + 1, awaitFirst := true, entries := literalEntries m, last := [] }

/-- START (43 R191, R192). -/
def absStart (m : Byte) (a : AbsState) : AbsState :=
  if frameSize m.toNat then
    { absClear m.toNat a with
      st := .run, cause := .none, finfo := 0, m := m.toNat, queue := [], out := [] }
  else
    absFault .badMinCodeSize (m.setWidth 12)
      { a with m := 0, cw := 0, next := 0, awaitFirst := false, entries := [], last := [], queue := [], out := [] }

/-- The end of a KNOWN or KWKWK step with emitted sequence `e` (R150). -/
def absLearn (e : List Byte) (a : AbsState) : AbsState :=
  let a1 := { a with out := a.out ++ e }
  let a2 :=
    if a1.next < Config.dictSize then
      { a1 with entries := Memory.write a1.entries a1.next (a1.last ++ e.take 1), next := a1.next + 1 }
    else a1
  let a3 := if a2.next = 2 ^ a2.cw ∧ a2.cw < Config.cwMax then { a2 with cw := a2.cw + 1 } else a2
  { a3 with last := e }

/-- The class rules of R150 for a code already taken from the queue; none where D has no entry that the rule needs. -/
def absRunCode (c : Nat) (a : AbsState) : Option AbsState :=
  if c = endCode a.m then some { a with st := .done }
  else if c = clearCode a.m then some (absClear a.m a)
  else if a.awaitFirst then
    if c < a.next then
      (Memory.read a.entries c).map fun e => { a with out := a.out ++ e, last := e, awaitFirst := false }
    else some (absFault .invalidLzwCode (BitVec.ofNat 12 c) a)
  else if c < a.next then (Memory.read a.entries c).map fun e => absLearn e a
  else if c = a.next then
    match a.last with
    | [] => none
    | f :: _ => some (absLearn (a.last ++ [f]) a)
  else some (absFault .invalidLzwCode (BitVec.ofNat 12 c) a)

/-- One code step: take CW bits from the queue (40 R130) and run the code. -/
def absCodeStep (a : AbsState) : Option AbsState :=
  absRunCode (valueOf (a.queue.take a.cw)) { a with queue := a.queue.drop a.cw }

/-- The drain loop, at most so many code steps (43 R194). -/
def absDrainWithin : Nat → AbsState → Option AbsState
  | 0, a => some a
  | n + 1, a =>
    if a.st = .run ∧ a.cw ≤ a.queue.length then (absCodeStep a).bind (absDrainWithin n) else some a

/-- The drain loop. -/
def absDrain (a : AbsState) : Option AbsState := absDrainWithin (a.queue.length + 1) a

/-- SHIFT_IN (40 R130). -/
def absShift (b : Byte) (a : AbsState) : AbsState := { a with queue := a.queue ++ bitsOf 8 b.toNat }

/-- PUSH (43 R193, R195, R196). -/
def absPush (b : Byte) (a : AbsState) : Option AbsState :=
  match a.st with
  | .idle => some (absFault .badCommand ((cmdWord 1 b).setWidth 12) a)
  | .run => absDrain (absShift b a)
  | .done => some a
  | .fault => some a

/-- EOS (43 R197 to R199). -/
def absEos (arg : Byte) (a : AbsState) : AbsState :=
  match a.st with
  | .idle => absFault .badCommand ((cmdWord 2 arg).setWidth 12) a
  | .run => absFault .truncatedLzwStream (BitVec.ofNat 12 a.queue.length) a
  | .done => a
  | .fault => a

/-- RSVD (43 R200). -/
def absRsvd (arg : Byte) (a : AbsState) : AbsState :=
  match a.st with
  | .idle => absFault .badCommand ((cmdWord 3 arg).setWidth 12) a
  | .run => absFault .badCommand ((cmdWord 3 arg).setWidth 12) a
  | .done => absFault .badCommand ((cmdWord 3 arg).setWidth 12) a
  | .fault => a

/-- A command word on the abstract machine (30_encoding.md R100). -/
def absCommand (w : CmdWord) (a : AbsState) : Option AbsState :=
  let arg := w.setWidth 8
  match w.toNat / 256 with
  | 0 => some (absStart arg a)
  | 1 => absPush arg a
  | 2 => some (absEos arg a)
  | _ => some (absRsvd arg a)

/-- The eager schedule: PUSH the bytes one by one (43 R194). -/
def absEager : List Byte → AbsState → Option AbsState
  | [], a => some a
  | b :: rest, a => (absPush b a).bind (absEager rest)

/-- The lazy schedule (43 R201, 95 P5): shift all bytes in, then run all the code steps that can be run. -/
def absLazy (bytes : List Byte) (a : AbsState) : Option AbsState :=
  absDrain (bytes.foldl (fun x b => absShift b x) a)

end Sys2Proof.Machine
end

