-- ==== Sys2Proof/Safety.lean ====
section
/-! DEFINITION. What statements call a good state: the invariant of 10_state.md R37 with what R21 to R31, R129, R149, R152 and
R154 add to it; what a frame cannot see (R45); what relates the machine to its abstract form (41_lzw_codes.md R150). -/

namespace Sys2Proof.Machine

/-- Slot `k` holds a legal entry: its prefix is a data code below `k` (10_state.md R37 (d)). -/
def slotOk (s : State) (k : Nat) : Bool :=
  match Memory.read s.dict k with
  | none => false
  | some slot =>
    decide (slot.pfx.toNat < k) && (decide (slot.pfx.toNat < clearc s) || decide (endc s < slot.pfx.toNat))

/-- Every live slot holds a legal entry (R37 (d)). -/
def dictOk (s : State) : Bool :=
  (List.range s.nextCode.toNat).all fun k => decide (k ≤ endc s) || slotOk s k

/-- What holds between code steps and at command boundaries. -/
structure State.FrameInv (s : State) : Prop where
  /-- R37 (a), R30: the bits of BB at BC and above are 0 -/
  bitsAbove : s.bb.toNat < 2 ^ s.bc.toNat
  /-- R129 -/
  capacity : s.bc.toNat ≤ 19
  /-- R37 (g) -/
  stackEmpty : s.sp.toNat = 0
  /-- the canonical form of the two memories -/
  dictForm : Memory.wf Config.dictSize s.dict = true
  stackForm : Memory.wf Config.stackDepth s.stk = true
  /-- R22: CAUSE is 0 exactly outside FAULT, and 1 is never latched (60 R224) -/
  causeOk : s.cause ≠ .insufficientBits ∧ (s.st = .fault ↔ s.cause ≠ .none)
  /-- R23 -/
  finfoOk : s.st ≠ .fault → s.finfo.toNat = 0
  /-- R24, R37 (f): with no frame configured every frame register is 0, and ST is IDLE, or FAULT with cause 4 or 5 -/
  noFrame : s.m.toNat = 0 →
    (s.st = .idle ∨ (s.st = .fault ∧ (s.cause = .badMinCodeSize ∨ s.cause = .badCommand))) ∧
      s.cw.toNat = 0 ∧ s.nextCode.toNat = 0 ∧ s.prev.toNat = 0 ∧ s.awaitFirst = false ∧ s.bb.toNat = 0 ∧ s.bc.toNat = 0
  /-- R24, R25, R26: the ranges of a configured frame -/
  ranges : s.m.toNat ≠ 0 →
    s.st ≠ .idle ∧ s.m.toNat ≤ 8 ∧ s.m.toNat + 1 ≤ s.cw.toNat ∧ s.cw.toNat ≤ 12 ∧
      endc s + 1 ≤ s.nextCode.toNat ∧ s.nextCode.toNat ≤ 4096
  /-- R37 (b) -/
  awaiting : s.m.toNat ≠ 0 → s.awaitFirst = true →
    s.nextCode.toNat = endc s + 1 ∧ s.cw.toNat = s.m.toNat + 1 ∧ s.prev.toNat = 0
  /-- R37 (c) -/
  prevOk : s.m.toNat ≠ 0 → s.awaitFirst = false → hasEntry s s.prev.toNat = true
  /-- R37 (d) -/
  entriesOk : s.m.toNat ≠ 0 → dictOk s = true
  /-- R37 (e), 41 R154 -/
  widthOfNext : 2 ≤ s.m.toNat →
    if s.nextCode.toNat = 4096 then s.cw.toNat = 12
    else 2 ^ (s.cw.toNat - 1) ≤ s.nextCode.toNat ∧ s.nextCode.toNat < 2 ^ s.cw.toNat
  /-- 41 R152 -/
  widthM1 : s.m.toNat = 1 → s.cw.toNat = 2

/-- The invariant at command boundaries (R37): no whole code is left in the buffer. -/
structure State.Inv (s : State) : Prop where
  frame : s.FrameInv
  drained : s.st = .run → s.bc.toNat < s.cw.toNat

/-- Every emitted symbol and every stored symbol is below 2^M (42_expander.md R176). -/
structure State.SymbolsBelow (s : State) : Prop where
  emitted : ∀ x ∈ s.out, x.toNat < clearc s
  stored : ∀ k slot, liveSlot s k = true → Memory.read s.dict k = some slot → slot.sfx.toNat < clearc s

/-- Two states that no rule can tell apart: equal in every register, ghost value and pending input, and in every live slot;
the stale slots, the stack's cells and the model's own fields may differ (10_state.md R45). -/
structure SameFrame (s t : State) : Prop where
  st : s.st = t.st
  cause : s.cause = t.cause
  finfo : s.finfo = t.finfo
  m : s.m = t.m
  cw : s.cw = t.cw
  nextCode : s.nextCode = t.nextCode
  prev : s.prev = t.prev
  awaitFirst : s.awaitFirst = t.awaitFirst
  bb : s.bb = t.bb
  bc : s.bc = t.bc
  out : s.out = t.out
  nbytes : s.nbytes = t.nbytes
  ncodes : s.ncodes = t.ncodes
  input : s.input = t.input
  live : ∀ k, liveSlot s k = true → Memory.read s.dict k = Memory.read t.dict k

/-- The machine's state stands for an abstract state (40 R130, 41 R150, R151). -/
structure StandsFor (s : State) (a : AbsState) : Prop where
  st : a.st = s.st
  cause : a.cause = s.cause
  finfo : a.finfo = s.finfo
  m : a.m = s.m.toNat
  cw : a.cw = s.cw.toNat
  next : a.next = s.nextCode.toNat
  awaitFirst : a.awaitFirst = s.awaitFirst
  queue : a.queue = bitsOf s.bc.toNat s.bb.toNat
  out : a.out = s.out
  entries : s.m.toNat ≠ 0 → ∀ c : Code, hasEntry s c.toNat = true → Memory.read a.entries c.toNat = seqOf s c
  last : s.m.toNat ≠ 0 → s.awaitFirst = false → some a.last = seqOf s s.prev

/-- What a data-code step (KNOWN or KWKWK) of code `c` does, where `l` is the sequence it emits, `f` that sequence's first
symbol and `depth` the number of stack cells its prefix walk fills (41_lzw_codes.md R144, R145, R147, R148; 42 R174). It is
the whole next state: what changes, and that nothing else does. -/
structure DataCodeStep (s t : State) (c : Code) (l : List Byte) (f : Byte) (depth : Nat) : Prop where
  out : t.out = s.out ++ l
  prev : t.prev = c
  nextCode : t.nextCode.toNat = if s.nextCode.toNat < 4096 then s.nextCode.toNat + 1 else s.nextCode.toNat
  newEntry : s.nextCode.toNat < 4096 → Memory.read t.dict s.nextCode.toNat = some ⟨s.prev, f⟩
  otherSlots : ∀ k, k ≠ s.nextCode.toNat ∨ 4096 ≤ s.nextCode.toNat → Memory.read t.dict k = Memory.read s.dict k
  cw : t.cw.toNat =
    if t.nextCode.toNat = 2 ^ s.cw.toNat ∧ s.cw.toNat < 12 then s.cw.toNat + 1 else s.cw.toNat
  otherCells : ∀ k, depth ≤ k → Memory.read t.stk k = Memory.read s.stk k
  sp : t.sp.toNat = 0
  st : t.st = s.st
  cause : t.cause = s.cause
  finfo : t.finfo = s.finfo
  m : t.m = s.m
  awaitFirst : t.awaitFirst = s.awaitFirst
  bb : t.bb = s.bb
  bc : t.bc = s.bc
  nbytes : t.nbytes = s.nbytes
  ncodes : t.ncodes = s.ncodes
  input : t.input = s.input
  ret : t.ret = s.ret
  srData : t.srData = s.srData
  fresh : t.fresh = s.fresh

/-- The "condition" column of the opcode table for the CODE rows, with M in the range in which CLEARC and ENDC are defined
(10_state.md R27); false for the other rows. -/
def rowCondition (i : Instr) (x : CodeCtx) (c : Code) : Prop :=
  frameSize x.m.toNat = true ∧
    match i with
    | .first d => d = c ∧ c.toNat ≠ endCode x.m.toNat ∧ c.toNat ≠ clearCode x.m.toNat ∧ x.awaitFirst = true ∧
        c.toNat < x.nextCode.toNat
    | .invalid d => d = c ∧ c.toNat ≠ endCode x.m.toNat ∧ c.toNat ≠ clearCode x.m.toNat ∧
        ((x.awaitFirst = true ∧ x.nextCode.toNat ≤ c.toNat) ∨ (x.awaitFirst = false ∧ x.nextCode.toNat < c.toNat))
    | .known d => d = c ∧ c.toNat ≠ endCode x.m.toNat ∧ c.toNat ≠ clearCode x.m.toNat ∧ x.awaitFirst = false ∧
        c.toNat < x.nextCode.toNat
    | .kwkwk d => d = c ∧ c.toNat ≠ endCode x.m.toNat ∧ c.toNat ≠ clearCode x.m.toNat ∧ x.awaitFirst = false ∧
        c.toNat = x.nextCode.toNat
    | .endM1 => x.m.toNat = 1 ∧ c = 0x003
    | .endM2 => x.m.toNat = 2 ∧ c = 0x005
    | .endM3 => x.m.toNat = 3 ∧ c = 0x009
    | .endM4 => x.m.toNat = 4 ∧ c = 0x011
    | .endM5 => x.m.toNat = 5 ∧ c = 0x021
    | .endM6 => x.m.toNat = 6 ∧ c = 0x041
    | .endM7 => x.m.toNat = 7 ∧ c = 0x081
    | .endM8 => x.m.toNat = 8 ∧ c = 0x101
    | .clearM1 => x.m.toNat = 1 ∧ c = 0x002
    | .clearM2 => x.m.toNat = 2 ∧ c = 0x004
    | .clearM3 => x.m.toNat = 3 ∧ c = 0x008
    | .clearM4 => x.m.toNat = 4 ∧ c = 0x010
    | .clearM5 => x.m.toNat = 5 ∧ c = 0x020
    | .clearM6 => x.m.toNat = 6 ∧ c = 0x040
    | .clearM7 => x.m.toNat = 7 ∧ c = 0x080
    | .clearM8 => x.m.toNat = 8 ∧ c = 0x100
    | .start _ => False
    | .push _ => False
    | .eos _ => False
    | .rsvd _ => False
    | .shiftIn _ => False
    | .hasBits _ => False
    | .readCode _ => False
    | .readCodeFail _ => False
    | .drain => False
    | .codeStep => False
    | .addEntry _ _ => False
    | .grow => False
    | .expand _ => False
    | .emit _ => False
    | .faultEntry _ _ => False
    | .statusRead _ => False

/-- The next state of an outcome, if it is one: outcomes themselves cannot be compared. -/
def nextOf (o : Host.Outcome State Fault Refusal) : Option State :=
  match o with
  | .next s => some s
  | .fault _ => none
  | .refused _ => none

end Sys2Proof.Machine
end

