-- ==== Sys2Proof/Certificates/Slice0/Obligations.lean ====
section
/-! DEFINITION. The statements about LZWD, from the numbered rules of spec/, for the provers. -/

open Sys2Proof Sys2Proof.Machine

/-! Encodings. -/

/-- 30_encoding.md R100: the match and mask of every command, and that every 10-bit word matches one row. -/
def Obligations.CommandWordMatchesOneRow : Prop :=
  ∀ w : CmdWord,
    (w &&& 0x300 = 0x000 ∧ decodeCmd w = .start (w.setWidth 8)) ∨
    (w &&& 0x300 = 0x100 ∧ decodeCmd w = .push (w.setWidth 8)) ∨
    (w &&& 0x300 = 0x200 ∧ decodeCmd w = .eos (w.setWidth 8)) ∨
    (w &&& 0x300 = 0x300 ∧ decodeCmd w = .rsvd (w.setWidth 8))

/-- Words of the spec and the instructions they stand for: command words of 30 R104 and of vector CS3, codes of vectors K1
to K3, K5, K9, K10 and K13 in their contexts, and the Clear code of M = 8 and the End code of M = 1 from the table of R95 (R94
tests them before anything else of the state). -/
def Obligations.SpecWordsDecode : Prop :=
  decodeCmd 0x002 = .start 2 ∧ decodeCmd 0x18C = .push 0x8C ∧ decodeCmd 0x200 = .eos 0 ∧ decodeCmd 0x3A5 = .rsvd 0xA5 ∧
  decodeCode ⟨2, true, 6⟩ 0x004 = .ok .clearM2 ∧ decodeCode ⟨2, true, 6⟩ 0x005 = .ok .endM2 ∧
  decodeCode ⟨8, false, 300⟩ 0x100 = .ok .clearM8 ∧ decodeCode ⟨1, false, 7⟩ 0x003 = .ok .endM1 ∧
  decodeCode ⟨2, true, 6⟩ 0x001 = .ok (.first 1) ∧ decodeCode ⟨2, false, 6⟩ 0x002 = .ok (.known 2) ∧
  decodeCode ⟨2, false, 6⟩ 0x006 = .ok (.kwkwk 6) ∧ decodeCode ⟨2, false, 6⟩ 0x007 = .ok (.invalid 7) ∧
  decodeCode ⟨2, true, 6⟩ 0x006 = .ok (.invalid 6)

/-- 30_encoding.md R95 (arithmetic the spec marks as derived): the constants of every M, after START and after CLEAR. -/
def Obligations.FrameConstantsOfEveryM : Prop :=
  ∀ row ∈ [(1, 2, 3, 2, 4), (2, 4, 5, 3, 6), (3, 8, 9, 4, 10), (4, 16, 17, 5, 18), (5, 32, 33, 6, 34), (6, 64, 65, 7, 66),
      (7, 128, 129, 8, 130), (8, 256, 257, 9, 258)],
    clearCode row.1 = row.2.1 ∧ endCode row.1 = row.2.2.1 ∧
      ∀ s : State,
        ((startFrame (BitVec.ofNat 8 row.1) s).cw.toNat = row.2.2.2.1 ∧
          (startFrame (BitVec.ofNat 8 row.1) s).nextCode.toNat = row.2.2.2.2) ∧
        (s.m.toNat = row.1 →
          (clearCodes s).cw.toNat = row.2.2.2.1 ∧ (clearCodes s).nextCode.toNat = row.2.2.2.2)

/-- Decode and encode agree on both streams (30 R94, R99, R100): a command word is the encoding of one command and back; a
code decodes to a row exactly where the row's condition holds, and the row's encoding is that code. -/
def Obligations.DecodeAndEncodeAgree : Prop :=
  (∀ w : CmdWord, encode (decodeCmd w) = .cmd w) ∧
  (∀ (i : Instr) (w : CmdWord), encode i = .cmd w → decodeCmd w = i) ∧
  (∀ (i : Instr) (x : CodeCtx) (c : Code), rowCondition i x c → encode i = .code c ∧ decodeCode x c = .ok i) ∧
  (∀ (i : Instr) (x : CodeCtx) (c : Code), decodeCode x c = .ok i → encode i = .code c ∧ rowCondition i x c)

/-- 41_lzw_codes.md R161 (marked derived): with M legal every code value has exactly one row whose condition holds. -/
def Obligations.EveryCodeHasExactlyOneRow : Prop :=
  ∀ (x : CodeCtx) (c : Code), frameSize x.m.toNat = true →
    ∃ i, rowCondition i x c ∧ ∀ j, rowCondition j x c → j = i

/-! The step. -/

/-- A step at a command boundary runs the command at the head of the host's inputs (00 R6; the input list is the model's
own, log entry 2). -/
def Obligations.StepRunsTheDecodedCommand : Prop :=
  ∀ (s : State) (w : CmdWord) (rest : List HostInput), s.input = .cmd w :: rest → codePending s = false →
    step s = exec (decodeCmd w) { s with input := rest }

/-- A step while a code is buffered in RUN reads CW bits and runs the instruction they decode to (41 R140, 40 R123; that a
state between code steps is a state of the model is log entry 1). -/
def Obligations.StepRunsTheDecodedCode : Prop :=
  ∀ (s : State) (i : Instr), s.st = .run → 1 ≤ s.cw.toNat → s.cw.toNat ≤ 12 → s.cw.toNat ≤ s.bc.toNat →
    s.input.head? ≠ some .rst →
    decodeCode (codeCtx s) (BitVec.ofNat 12 (s.bb.toNat % 2 ^ s.cw.toNat)) = .ok i →
    step s = exec i
      { s with
        bb := s.bb >>> s.cw.toNat
        bc := BitVec.ofNat 6 (s.bc.toNat - s.cw.toNat)
        ncodes := s.ncodes + 1 }

/-- The other inputs: a status read at a command boundary, a reset at any time (70 R250), and idling with all state held
(60 R238). The model's own in it: the list of inputs (log entry 2, DESIGN CHOICE), that a reset at its head comes before a
buffered code (log entry 15, DEDUCED), and what a reset leaves in ret and srData (log entry 9, DESIGN CHOICE). -/
def Obligations.StepTakesReadsResetsAndIdles : Prop :=
  (∀ (s : State) (a : BitVec 4) (rest : List HostInput), s.input = .statusRead a :: rest → codePending s = false →
    step s = exec (.statusRead a) { s with input := rest }) ∧
  (∀ (s : State) (rest : List HostInput), s.input = .rst :: rest → step s = .next (hardReset { s with input := rest })) ∧
  (∀ s : State, s.input = [] → codePending s = false → step s = .next s)

/-- While a code is buffered in RUN, the step's own decoding and CODE_STEP's classification are the same machine. That one
step inside a PUSH is one code step is the model's reading (log entry 1, DEDUCED; 00 R6 steps by commands). -/
def Obligations.BufferedCodeStepIsCodeStep : Prop :=
  ∀ s : State, codePending s = true → s.input.head? ≠ some .rst → step s = exec .codeStep s

/-! Reset. -/

/-- 10_state.md R42: every piece of state after hardware reset; the dictionary and the stack are not reset. -/
def Obligations.HardwareResetLeaves : Prop :=
  ∀ (s : State) (rest : List HostInput), s.input = .rst :: rest →
    ∃ t, step s = .next t ∧
      t.st = .idle ∧ t.cause = .none ∧ t.finfo = 0 ∧ t.m = 0 ∧ t.cw = 0 ∧ t.nextCode = 0 ∧ t.prev = 0 ∧
      t.awaitFirst = false ∧ t.bb = 0 ∧ t.bc = 0 ∧ t.dict = s.dict ∧ t.stk = s.stk ∧ t.sp = 0 ∧ t.out = [] ∧
      t.nbytes = 0 ∧ t.ncodes = 0 ∧ outValid t = false ∧ cmdReady t = true ∧ doneLine t = false ∧ faultLine t = false

/-- The invariant holds at reset. -/
def Obligations.ResetMeetsInvariant : Prop := State.Inv State.reset

/-! The reader. -/

/-- 40_bit_code_reader.md R121. -/
def Obligations.ShiftInAppendsTheByte : Prop :=
  ∀ (b : Byte) (s : State), s.bc.toNat ≤ 24 →
    exec (.shiftIn b) s = .next
      { s with bb := s.bb ||| (b.setWidth 32 <<< s.bc.toNat), bc := s.bc + 8, nbytes := s.nbytes + 1 }

/-- 40_bit_code_reader.md R122: HAS_BITS answers BC ≥ w and changes nothing (the answer goes to the model's field ret). -/
def Obligations.HasBitsComparesTheCount : Prop :=
  ∀ (w : BitVec 4) (s : State), 1 ≤ w.toNat → w.toNat ≤ 12 →
    exec (.hasBits w) s = .next { s with ret := .flag (decide (s.bc.toNat ≥ w.toNat)) }

/-- 40_bit_code_reader.md R123: the success case of READ_CODE. -/
def Obligations.ReadCodeTakesTheLowBits : Prop :=
  ∀ (w : BitVec 4) (s : State), 1 ≤ w.toNat → w.toNat ≤ 12 → w.toNat ≤ s.bc.toNat →
    ∃ c : Code, c.toNat = s.bb.toNat % 2 ^ w.toNat ∧
      exec (.readCode w) s = .next
        { s with bb := s.bb >>> w.toNat, bc := s.bc - w.setWidth 6, ncodes := s.ncodes + 1, ret := .code c }

/-- 40_bit_code_reader.md R124: the failure case of READ_CODE, as the operation and as the table's row of its own. -/
def Obligations.ReadCodeFailureChangesNothing : Prop :=
  ∀ (w : BitVec 4) (s : State), 1 ≤ w.toNat → w.toNat ≤ 12 → s.bc.toNat < w.toNat →
    exec (.readCode w) s = .next { s with ret := .insufficientBits } ∧
      exec (.readCodeFail w) s = .next { s with ret := .insufficientBits }

/-- Where the reader's primitives stop (40 R125; 93 U2, U3; log entries 5, 6, 11). -/
def Obligations.ReaderStopsOutsideItsDomain : Prop :=
  (∀ (w : BitVec 4) (s : State), w.toNat = 0 ∨ 12 < w.toNat →
    exec (.hasBits w) s = .refused .widthOutOfDomain ∧ exec (.readCode w) s = .refused .widthOutOfDomain ∧
      exec (.readCodeFail w) s = .refused .widthOutOfDomain) ∧
  (∀ (b : Byte) (s : State), 24 < s.bc.toNat → exec (.shiftIn b) s = .refused .shiftInOverflow) ∧
  (∀ (w : BitVec 4) (s : State), 1 ≤ w.toNat → w.toNat ≤ 12 → w.toNat ≤ s.bc.toNat →
    exec (.readCodeFail w) s = .refused .readDoesNotFail)

/-- 40_bit_code_reader.md R130 (marked derived): the registers BB and BC are a queue of bits. -/
def Obligations.ReaderIsAQueueOfBits : Prop :=
  ∀ s : State, s.bb.toNat < 2 ^ s.bc.toNat →
    (∀ b : Byte, s.bc.toNat ≤ 24 →
      (shiftByte b s).bb.toNat < 2 ^ (shiftByte b s).bc.toNat ∧
        bitsOf (shiftByte b s).bc.toNat (shiftByte b s).bb.toNat = bitsOf s.bc.toNat s.bb.toNat ++ bitsOf 8 b.toNat) ∧
    (∀ (w : Nat) (c : Code) (t : State), w ≤ 12 → readBits w s = some (c, t) →
      t.bb.toNat < 2 ^ t.bc.toNat ∧
        bitsOf s.bc.toNat s.bb.toNat = bitsOf w c.toNat ++ bitsOf t.bc.toNat t.bb.toNat)

/-! The codes. -/

/-- 41_lzw_codes.md R141: END writes ST and nothing else, as a row for every M and as the fate of a fetched End code. -/
def Obligations.EndCodeFinishesTheFrame : Prop :=
  (∀ s : State, s.st = .run →
    (s.m.toNat = 1 → exec .endM1 s = .next { s with st := .done }) ∧
    (s.m.toNat = 2 → exec .endM2 s = .next { s with st := .done }) ∧
    (s.m.toNat = 3 → exec .endM3 s = .next { s with st := .done }) ∧
    (s.m.toNat = 4 → exec .endM4 s = .next { s with st := .done }) ∧
    (s.m.toNat = 5 → exec .endM5 s = .next { s with st := .done }) ∧
    (s.m.toNat = 6 → exec .endM6 s = .next { s with st := .done }) ∧
    (s.m.toNat = 7 → exec .endM7 s = .next { s with st := .done }) ∧
    (s.m.toNat = 8 → exec .endM8 s = .next { s with st := .done })) ∧
  (∀ (s t : State) (c : Code), fetchCode s = .next (c, t) → frameSize t.m.toNat = true → c.toNat = endc t →
    exec .codeStep s = .next { t with st := .done })

/-- 41_lzw_codes.md R142: CLEAR writes NEXT, CW, AWAIT and PREV and nothing else. -/
def Obligations.ClearCodeResetsTheDecompressor : Prop :=
  (∀ s : State, s.st = .run →
    (s.m.toNat = 1 → exec .clearM1 s = .next { s with nextCode := 4, cw := 2, awaitFirst := true, prev := 0 }) ∧
    (s.m.toNat = 2 → exec .clearM2 s = .next { s with nextCode := 6, cw := 3, awaitFirst := true, prev := 0 }) ∧
    (s.m.toNat = 3 → exec .clearM3 s = .next { s with nextCode := 10, cw := 4, awaitFirst := true, prev := 0 }) ∧
    (s.m.toNat = 4 → exec .clearM4 s = .next { s with nextCode := 18, cw := 5, awaitFirst := true, prev := 0 }) ∧
    (s.m.toNat = 5 → exec .clearM5 s = .next { s with nextCode := 34, cw := 6, awaitFirst := true, prev := 0 }) ∧
    (s.m.toNat = 6 → exec .clearM6 s = .next { s with nextCode := 66, cw := 7, awaitFirst := true, prev := 0 }) ∧
    (s.m.toNat = 7 → exec .clearM7 s = .next { s with nextCode := 130, cw := 8, awaitFirst := true, prev := 0 }) ∧
    (s.m.toNat = 8 → exec .clearM8 s = .next { s with nextCode := 258, cw := 9, awaitFirst := true, prev := 0 })) ∧
  (∀ (s t : State) (c : Code), fetchCode s = .next (c, t) → frameSize t.m.toNat = true → c.toNat = clearc t →
    exec .codeStep s = .next
      { t with
        nextCode := BitVec.ofNat 13 (endc t + 1), cw := BitVec.ofNat 4 (t.m.toNat + 1), awaitFirst := true, prev := 0 })

/-- 41_lzw_codes.md R143: FIRST emits the literal, remembers it and clears AWAIT; nothing else changes. -/
def Obligations.FirstCodeEmitsItsLiteral : Prop :=
  ∀ (c : Code) (s : State), s.st = .run → rowCondition (.first c) (codeCtx s) c →
    exec (.first c) s = .next { s with out := s.out ++ [c.setWidth 8], prev := c, awaitFirst := false }

/-- 41_lzw_codes.md R144: KNOWN emits SEQ(c), creates the entry (PREV, FIRST_SYM(c)) at NEXT, grows the width and remembers
c; the whole next state but the dead cells of the stack is given (42 R174: the stack is empty again). -/
def Obligations.KnownCodeEmitsAndLearns : Prop :=
  ∀ (c : Code) (s : State) (l : List Byte), s.st = .run → rowCondition (.known c) (codeCtx s) c → seqOf s c = some l →
    ∃ (t : State) (f : Byte), exec (.known c) s = .next t ∧ firstSym s c = some f ∧
      DataCodeStep s t c l f (l.length - 1)

/-- 41_lzw_codes.md R145: KWKWK emits SEQ(PREV) and its first symbol, creates the entry at slot c, grows the width and
remembers c. SEQ(PREV) is R170's where PREV is below NEXT, as in every good state (R37 (c)); elsewhere, for a literal PREV that is
NEXT or above, it is the model's (log entry 23, DESIGN CHOICE). -/
def Obligations.KwkwkCodeEmitsAndLearns : Prop :=
  ∀ (c : Code) (s : State) (p : List Byte), s.st = .run → rowCondition (.kwkwk c) (codeCtx s) c →
    seqOf s s.prev = some p →
    ∃ (t : State) (f : Byte), exec (.kwkwk c) s = .next t ∧ firstSym s s.prev = some f ∧
      DataCodeStep s t c (p ++ [f]) f (p.length - 1) ∧ Memory.read t.dict c.toNat = some ⟨s.prev, f⟩

/-- 41_lzw_codes.md R146, 60_exceptions.md R222: INVALID takes the fault InvalidLzwCode and changes nothing else, in both
halves of its condition, as a row and as the fate of a fetched code. -/
def Obligations.InvalidCodeFaults : Prop :=
  (∀ (c : Code) (s : State), s.st = .run → rowCondition (.invalid c) (codeCtx s) c →
    exec (.invalid c) s = .next { s with st := .fault, cause := .invalidLzwCode, finfo := c }) ∧
  (∀ (s t : State) (c : Code), fetchCode s = .next (c, t) → rowCondition (.invalid c) (codeCtx t) c →
    exec .codeStep s = .next { t with st := .fault, cause := .invalidLzwCode, finfo := c })

/-- A CODE row whose condition does not hold, or outside RUN, is not that instruction: it stops by name (30 R94; log
entry 10). -/
def Obligations.RowsStopWhereNotSelected : Prop :=
  ∀ (i : Instr) (c : Code) (s : State), encode i = .code c → (s.st = .run → ¬ rowCondition i (codeCtx s) c) →
    exec i s = .refused .classNotSelected

/-- 41_lzw_codes.md R140: a code step fetches CW bits and then runs the one row that the tests, in their order, give. -/
def Obligations.CodeStepRunsTheTestsInOrder : Prop :=
  ∀ (s t : State) (c : Code), fetchCode s = .next (c, t) → frameSize t.m.toNat = true →
    readBits s.cw.toNat s = some (c, t) ∧
    exec .codeStep s =
      if c.toNat = endc t then .next { t with st := .done }
      else if c.toNat = clearc t then .next (clearCodes t)
      else if t.awaitFirst = true ∧ c.toNat < t.nextCode.toNat then exec (.first c) t
      else if t.awaitFirst = true ∧ t.nextCode.toNat ≤ c.toNat then exec (.invalid c) t
      else if c.toNat < t.nextCode.toNat then exec (.known c) t
      else if c.toNat = t.nextCode.toNat then exec (.kwkwk c) t
      else exec (.invalid c) t

/-- 41_lzw_codes.md R147: ADD_ENTRY. -/
def Obligations.AddEntryWritesSlotNext : Prop :=
  ∀ (p : Code) (x : Byte) (s : State),
    (s.nextCode.toNat < 4096 →
      ∃ t, exec (.addEntry p x) s = .next t ∧ t = { s with dict := t.dict, nextCode := s.nextCode + 1 } ∧
        Memory.read t.dict s.nextCode.toNat = some ⟨p, x⟩ ∧
        ∀ k, k ≠ s.nextCode.toNat → Memory.read t.dict k = Memory.read s.dict k) ∧
    (4096 ≤ s.nextCode.toNat → exec (.addEntry p x) s = .next s)

/-- 41_lzw_codes.md R148: GROW. -/
def Obligations.GrowRaisesTheWidth : Prop :=
  ∀ s : State,
    exec .grow s =
      .next (if s.nextCode.toNat = 2 ^ s.cw.toNat ∧ s.cw.toNat < 12 then { s with cw := s.cw + 1 } else s)

/-- 41_lzw_codes.md R151 (marked derived): after every data code PREV stands for the sequence that was emitted. -/
def Obligations.PrevStandsForTheEmittedSequence : Prop :=
  ∀ (s t : State) (c : Code) (l : List Byte), s.FrameInv → s.st = .run →
    (rowCondition (.first c) (codeCtx s) c ∨ rowCondition (.known c) (codeCtx s) c ∨
      rowCondition (.kwkwk c) (codeCtx s) c) →
    runCode c s = .next t → t.out = s.out ++ l → t.prev = c ∧ seqOf t c = some l

/-! The expander. -/

/-- EXPAND(c) is Emit(SEQ(c)) (42_expander.md R174, the equality the spec marks as derived): it completes exactly where SEQ
is defined, returns FIRST_SYM(c), leaves the stack empty and nothing else changed but the stack's first LEN - 1 cells. That
it stops elsewhere is the model's: where M is not 1 to 8 or a dead slot is reached (log entry 7, DEDUCED), at a live slot
that nothing has written (log entry 4, DESIGN CHOICE) and past the walk's bound (log entry 17, DEDUCED). That a literal c NEXT or
above, where R170 does not define SEQ, has the sequence [c] and completes is the model's too (log entry 23, DESIGN CHOICE). -/
def Obligations.ExpandEmitsTheSequence : Prop :=
  ∀ (c : Code) (s : State),
    (∀ l, frameSize s.m.toNat = true → seqOf s c = some l →
      ∃ (t : State) (f : Byte), exec (.expand c) s = .next t ∧ firstSym s c = some f ∧
        t = { s with out := s.out ++ l, sp := 0, stk := t.stk, ret := .symbol f } ∧
        ∀ k, l.length - 1 ≤ k → Memory.read t.stk k = Memory.read s.stk k) ∧
    (frameSize s.m.toNat = false ∨ seqOf s c = none → ∀ t, exec (.expand c) s ≠ .next t)

/-- FIRST_SYM is the head of SEQ, and LEN follows the prefix (42_expander.md R171, R172, marked derived). For a literal c that
is NEXT or above, and where M is not 1 to 8, the spec defines none of them and the model's values are log entry 23 (DESIGN
CHOICE). -/
def Obligations.FirstSymbolAndLengthOfASequence : Prop :=
  ∀ (s : State) (c : Code) (l : List Byte), seqOf s c = some l →
    l ≠ [] ∧ firstSym s c = l.head? ∧
      (c.toNat < clearc s → lenOf s c = some 1) ∧
      (∀ slot n, ¬ c.toNat < clearc s → Memory.read s.dict c.toNat = some slot → lenOf s slot.pfx = some n →
        lenOf s c = some (n + 1))

/-- 42_expander.md R173, R176 (marked derived): in a good state every entry has a sequence, of at most k - ENDC + 1 symbols,
never more than 4093. -/
def Obligations.SequencesAreBounded : Prop :=
  ∀ (s : State) (c : Code), s.FrameInv → s.m.toNat ≠ 0 → hasEntry s c.toNat = true →
    ∃ l, seqOf s c = some l ∧ l.length ≤ 4093 ∧ (endc s < c.toNat → l.length + endc s ≤ c.toNat + 1)

/-- 42_expander.md R178: Emit appends, and between START commands (and resets, 10 R34) OUT only grows. -/
def Obligations.OutOnlyGrows : Prop :=
  (∀ (l : List Byte) (s : State), exec (.emit l) s = .next { s with out := s.out ++ l }) ∧
  (∀ s t : State, step s = .next t →
    (∃ l, t.out = s.out ++ l) ∨
      (t.out = [] ∧
        (s.input.head? = some .rst ∨ ∃ m : Byte, codePending s = false ∧ s.input.head? = some (.cmd (cmdWord 0 m)))))

/-! Fault entry. -/

/-- 60_exceptions.md R226: fault entry writes ST, CAUSE and FINFO and nothing else; the line `fault` rises and the next
command is accepted. -/
def Obligations.FaultEntryFreezesTheRest : Prop :=
  ∀ (cause : RaisedCause) (info : BitVec 12) (s : State),
    exec (.faultEntry cause info) s = .next { s with st := .fault, cause := causeOf cause, finfo := info } ∧
      faultLine { s with st := .fault, cause := causeOf cause, finfo := info } = true ∧
      cmdReady { s with st := .fault, cause := causeOf cause, finfo := info } = true

/-- 60_exceptions.md R229, R228 (c): only START and hardware reset leave FAULT; any other step changes nothing but the pending
inputs and the port sr_data, so the first cause stands and nothing is emitted. -/
def Obligations.FaultIsLeftOnlyByStartOrReset : Prop :=
  ∀ s t : State, s.st = .fault → step s = .next t →
    t = { s with input := t.input, srData := t.srData } ∨
      (s.input.head? = some .rst ∧ t.st = .idle ∧ t.cause = .none ∧ t.finfo = 0) ∨
      ∃ m : Byte, s.input.head? = some (.cmd (cmdWord 0 m)) ∧
        if frameSize m.toNat then t.st = .run ∧ t.cause = .none ∧ t.finfo = 0
        else t.st = .fault ∧ t.cause = .badMinCodeSize ∧ t.finfo = m.setWidth 12

/-! The host commands. -/

/-- 43_host_commands.md R191: START with a legal operand, in every state; 10_state.md R43 gives SP = 0. -/
def Obligations.StartMakesAFreshFrame : Prop :=
  ∀ (m : Byte) (s : State), 1 ≤ m.toNat → m.toNat ≤ 8 →
    exec (.start m) s = .next
      { s with
        bb := 0, bc := 0, m := m.setWidth 4, cw := BitVec.ofNat 4 (m.toNat + 1)
        nextCode := BitVec.ofNat 13 (2 ^ m.toNat + 2), awaitFirst := true, prev := 0, cause := .none, finfo := 0
        st := .run, sp := 0, out := [], nbytes := 0, ncodes := 0 }

/-- 43_host_commands.md R192: START with an illegal operand, in every state. -/
def Obligations.IllegalStartFaults : Prop :=
  ∀ (m : Byte) (s : State), m.toNat = 0 ∨ 9 ≤ m.toNat →
    exec (.start m) s = .next
      { s with
        bb := 0, bc := 0, m := 0, cw := 0, nextCode := 0, prev := 0, awaitFirst := false
        out := [], nbytes := 0, ncodes := 0
        st := .fault, cause := .badMinCodeSize, finfo := m.setWidth 12 }

/-- 43_host_commands.md R193, 40 R129: PUSH in RUN is SHIFT_IN and then DRAIN; in a good state it completes, the buffer never
holds more than 19 bits, and the invariant holds again. -/
def Obligations.PushInRunShiftsAndDrains : Prop :=
  ∀ (b : Byte) (s : State), s.Inv → s.st = .run →
    s.bc.toNat + 8 ≤ 19 ∧
    exec (.push b) s = exec .drain
      { s with bb := s.bb ||| (b.setWidth 32 <<< s.bc.toNat), bc := s.bc + 8, nbytes := s.nbytes + 1 } ∧
    ∃ t, exec (.push b) s = .next t ∧ t.Inv ∧ t.nbytes = s.nbytes + 1

/-- 43_host_commands.md R195, R196: PUSH outside RUN. -/
def Obligations.PushOutsideRun : Prop :=
  ∀ (b : Byte) (s : State),
    (s.st = .done ∨ s.st = .fault → exec (.push b) s = .next s) ∧
    (s.st = .idle →
      exec (.push b) s = .next
        { s with st := .fault, cause := .badCommand, finfo := (cmdWord 1 b).setWidth 12 })

/-- 43_host_commands.md R197, R198, R199: EOS in every state. -/
def Obligations.EosInEveryState : Prop :=
  ∀ (arg : Byte) (s : State),
    (s.st = .run →
      exec (.eos arg) s = .next
        { s with st := .fault, cause := .truncatedLzwStream, finfo := s.bc.setWidth 12 }) ∧
    (s.st = .done ∨ s.st = .fault → exec (.eos arg) s = .next s) ∧
    (s.st = .idle →
      exec (.eos arg) s = .next
        { s with st := .fault, cause := .badCommand, finfo := (cmdWord 2 arg).setWidth 12 })

/-- 43_host_commands.md R200: the reserved command in every state. -/
def Obligations.ReservedCommandInEveryState : Prop :=
  ∀ (arg : Byte) (s : State),
    (s.st ≠ .fault →
      exec (.rsvd arg) s = .next
        { s with st := .fault, cause := .badCommand, finfo := (cmdWord 3 arg).setWidth 12 }) ∧
    (s.st = .fault → exec (.rsvd arg) s = .next s)

/-- 43_host_commands.md R203 (marked derived): the table of next states and causes, in every good state. -/
def Obligations.CommandTable : Prop :=
  ∀ (s : State) (arg : Byte), s.Inv →
    (∃ t, exec (.start arg) s = .next t ∧
      if frameSize arg.toNat then t.st = .run ∧ t.cause = .none else t.st = .fault ∧ t.cause = .badMinCodeSize) ∧
    (∃ t, exec (.push arg) s = .next t ∧
      match s.st with
      | .idle => t.st = .fault ∧ t.cause = .badCommand
      | .run =>
        (t.st = .run ∧ t.cause = .none) ∨ (t.st = .done ∧ t.cause = .none) ∨
          (t.st = .fault ∧ t.cause = .invalidLzwCode)
      | .done => t = s
      | .fault => t = s) ∧
    (∃ t, exec (.eos arg) s = .next t ∧
      match s.st with
      | .idle => t.st = .fault ∧ t.cause = .badCommand
      | .run => t.st = .fault ∧ t.cause = .truncatedLzwStream
      | .done => t = s
      | .fault => t = s) ∧
    (∃ t, exec (.rsvd arg) s = .next t ∧
      match s.st with
      | .idle => t.st = .fault ∧ t.cause = .badCommand
      | .run => t.st = .fault ∧ t.cause = .badCommand
      | .done => t.st = .fault ∧ t.cause = .badCommand
      | .fault => t = s)

/-- 43_host_commands.md R194: DRAIN is the loop: a code step and the loop again while ST = RUN and BC ≥ CW, else nothing; on
exit ST is not RUN or BC < CW. -/
def Obligations.DrainIsTheLoop : Prop :=
  (∀ s : State, (s.st = .run → widthOk s.cw.toNat = true) →
    exec .drain s =
      if s.st = .run ∧ s.cw.toNat ≤ s.bc.toNat then andThen (exec .codeStep s) (fun t => exec .drain t) else .next s) ∧
  (∀ s t : State, exec .drain s = .next t → t.st ≠ .run ∨ t.bc.toNat < t.cw.toNat)

/-- 43_host_commands.md R194, R202 (marked derived): in a good state DRAIN completes, leaves no whole code in RUN, and from a
command boundary a PUSH runs at most four code steps. R268 says that it completes only with a consumer of the output channel
that always eventually accepts; the model assumes that consumer (log entry 3, DESIGN CHOICE, unsafe; R262). -/
def Obligations.DrainCompletes : Prop :=
  (∀ s : State, s.FrameInv → ∃ t, exec .drain s = .next t ∧ t.FrameInv ∧ (t.st = .run → t.bc.toNat < t.cw.toNat)) ∧
  (∀ (s t : State) (b : Byte), s.Inv → s.st = .run → exec (.push b) s = .next t → t.ncodes ≤ s.ncodes + 4)

/-- 10_state.md R39, R40, R41: the value of every status register at a command boundary, ST and CAUSE with the numbers of R21
and R22; nothing but the port sr_data changes (43 R204). -/
def Obligations.StatusReadShowsTheRegister : Prop :=
  ∀ s : State, cmdReady s = true →
    (∃ v : BitVec 32, exec (.statusRead 0x0) s = .next { s with srData := v } ∧
      (v.extractLsb' 0 2 =
        match s.st with
        | .idle => 0
        | .run => 1
        | .done => 2
        | .fault => 3) ∧
      v.getLsbD 2 = s.awaitFirst ∧ v.getLsbD 3 = false ∧
      (v.extractLsb' 4 3 =
        match s.cause with
        | .none => 0
        | .insufficientBits => 1
        | .invalidLzwCode => 2
        | .truncatedLzwStream => 3
        | .badMinCodeSize => 4
        | .badCommand => 5) ∧
      v.extractLsb' 7 25 = 0) ∧
    exec (.statusRead 0x1) s = .next { s with srData := s.finfo.setWidth 32 } ∧
    exec (.statusRead 0x2) s = .next { s with srData := s.m.setWidth 32 } ∧
    exec (.statusRead 0x3) s = .next { s with srData := s.cw.setWidth 32 } ∧
    exec (.statusRead 0x4) s = .next { s with srData := s.nextCode.setWidth 32 } ∧
    exec (.statusRead 0x5) s = .next { s with srData := s.prev.setWidth 32 } ∧
    exec (.statusRead 0x6) s = .next { s with srData := s.bc.setWidth 32 } ∧
    exec (.statusRead 0x7) s = .next { s with srData := s.bb } ∧
    exec (.statusRead 0x8) s = .next
      { s with srData := if 1 ≤ s.m.toNat ∧ s.m.toNat ≤ 8 then BitVec.ofNat 32 (2 ^ s.m.toNat) else 0 } ∧
    exec (.statusRead 0x9) s = .next
      { s with srData := if 1 ≤ s.m.toNat ∧ s.m.toNat ≤ 8 then BitVec.ofNat 32 (2 ^ s.m.toNat + 1) else 0 } ∧
    ∀ a : BitVec 4, 0xA ≤ a.toNat → exec (.statusRead a) s = .next { s with srData := 0 }

/-- 10_state.md R38, 93 U6 (the value is free, log entry 8): a status read during a command still changes no register. -/
def Obligations.StatusReadDuringACommand : Prop :=
  ∀ (a : BitVec 4) (s : State), cmdReady s = false →
    exec (.statusRead a) s = .next
      { s with srData := Config.midCommandStatus s.fresh a, fresh := s.fresh + 1 }

/-! The machine as a whole. -/

/-- Every code step of a good state completes, keeps what holds between code steps, and consumes exactly CW bits: BITPOS
moves by CW (10_state.md R36, 60 R227). -/
def Obligations.CodeStepKeepsTheFrameInvariant : Prop :=
  ∀ s : State, s.FrameInv → s.st = .run → s.cw.toNat ≤ s.bc.toNat →
    ∃ t, exec .codeStep s = .next t ∧ t.FrameInv ∧ t.bc.toNat + s.cw.toNat = s.bc.toNat ∧ t.ncodes = s.ncodes + 1 ∧
      t.nbytes = s.nbytes ∧ bitpos t = bitpos s + s.cw.toNat ∧ t.input = s.input

/-- Headline, 10_state.md R37 with R129, R149, R152, R154: every step from a good state ends in a good state. -/
def Obligations.StepKeepsTheInvariant : Prop :=
  ∀ s t : State, s.Inv → step s = .next t → t.Inv

/-- Headline, 70_reset_and_hazards.md R268: in a good state every host input completes, and in a good state again. R268 holds
with a consumer of the output channel that always eventually accepts, which the model assumes (log entry 3, DESIGN CHOICE,
unsafe): with any other consumer the block can hang (R262). -/
def Obligations.StepAlwaysAnswers : Prop :=
  ∀ s : State, s.Inv → ∃ t, step s = .next t ∧ t.Inv

/-- 42_expander.md R176 (marked derived): every emitted symbol is below 2^M. -/
def Obligations.SymbolsStayBelowClearc : Prop :=
  ∀ s t : State, s.Inv → s.SymbolsBelow → step s = .next t → t.SymbolsBelow

/-- 41_lzw_codes.md R153 (marked derived): NEXT counts the entries: a code step adds one for KNOWN and KWKWK below 4096 and
nothing otherwise, CLEAR apart. -/
def Obligations.OneEntryPerDataCode : Prop :=
  ∀ (c : Code) (s t : State), s.FrameInv → s.st = .run → runCode c s = .next t →
    (classify (codeCtx s) c = some .clear → t.nextCode.toNat = endc s + 1) ∧
    (classify (codeCtx s) c = some .known ∨ classify (codeCtx s) c = some .kwkwk →
      t.nextCode.toNat = min 4096 (s.nextCode.toNat + 1)) ∧
    (classify (codeCtx s) c = some .endFrame ∨ classify (codeCtx s) c = some .first ∨
      classify (codeCtx s) c = some .invalid → t.nextCode = s.nextCode ∧ t.dict = s.dict)

/-- Headline, 10_state.md R45 (marked derived): stale slots and the stack's dead cells influence nothing. Two good states
that differ only there take corresponding steps, and a status read shows the same value in both. -/
def Obligations.StaleContentIsInvisible : Prop :=
  ∀ s t s' : State, s.Inv → t.Inv → SameFrame s t → step s = .next s' →
    ∃ t', step t = .next t' ∧ SameFrame s' t' ∧
      ∀ (a : BitVec 4) (rest : List HostInput), s.input = .statusRead a :: rest → s'.srData = t'.srData

/-- 43_host_commands.md R205 (marked derived): START with any operand forgets every earlier frame. -/
def Obligations.StartForgetsEarlierFrames : Prop :=
  ∀ (m : Byte) (s t : State), s.input = t.input →
    ∃ s' t', exec (.start m) s = .next s' ∧ exec (.start m) t = .next t' ∧ SameFrame s' t'

/-- Headline, 43_host_commands.md R205 (marked derived): a frame decoded after anything else gives what it gives on a block
fresh from reset, step by step; and where the last step took a status read, it shows the same value. -/
def Obligations.FramesAreIndependentOfHistory : Prop :=
  ∀ (n : Nat) (m : Byte) (rest : List HostInput) (s s' : State), s.Inv → frameSize m.toNat = true →
    s.input = .cmd (cmdWord 0 m) :: rest → core.run (n + 1) s = .next s' →
    ∃ t' : State, core.run (n + 1) { State.reset with input := s.input } = .next t' ∧ SameFrame s' t' ∧
      ∀ (u : State) (a : BitVec 4) (more : List HostInput), core.run n s = .next u → u.input = .statusRead a :: more →
        s'.srData = t'.srData

/-- Headline, 41_lzw_codes.md R150, 40 R130 (marked derived): the block does what the abstract form does, command by
command. -/
def Obligations.BlockRefinesTheAbstractForm : Prop :=
  ∀ (w : CmdWord) (s : State) (a : AbsState), s.Inv → StandsFor s a →
    ∃ s' a', exec (decodeCmd w) s = .next s' ∧ absCommand w a = some a' ∧ StandsFor s' a'

/-- 43_host_commands.md R201, 95 P5 (marked derived). First on the abstract form, which no step of the machine calls (log
entry 21): decoding eagerly after every byte and decoding once after all bytes give the same output and the same final
registers. Then against the machine: the block, with every byte pushed, ends as the lazy schedule of the abstract form. -/
def Obligations.LazyScheduleAgrees : Prop :=
  (∀ (bytes : List Byte) (a e : AbsState), a.st = .run → a.queue.length < a.cw → absEager bytes a = some e →
    ∃ z, absLazy bytes a = some z ∧ z.out = e.out ∧ z.st = e.st ∧ z.cause = e.cause ∧ z.finfo = e.finfo ∧ z.cw = e.cw ∧
      z.next = e.next ∧ z.awaitFirst = e.awaitFirst ∧ z.last = e.last ∧ z.entries = e.entries ∧
      (e.st = .run → z.queue = e.queue)) ∧
  (∀ (bytes : List Byte) (s : State) (a : AbsState), s.Inv → StandsFor s a → s.st = .run →
    ∃ (t : State) (z : AbsState), core.run bytes.length { s with input := pushAll bytes } = .next t ∧
      absLazy bytes a = some z ∧ z.out = t.out ∧ z.st = t.st ∧ z.cause = t.cause ∧ z.finfo = t.finfo ∧
      z.cw = t.cw.toNat ∧ z.next = t.nextCode.toNat ∧ z.awaitFirst = t.awaitFirst ∧
      (t.awaitFirst = false → some z.last = seqOf t t.prev) ∧
      (∀ c : Code, hasEntry t c.toNat = true → Memory.read z.entries c.toNat = seqOf t c) ∧
      (t.st = .run → z.queue = bitsOf t.bc.toNat t.bb.toNat))

/-- 30_encoding.md R93 with 41 R140 to R148: the width bookkeeping is the block's. A code step in RUN takes the code that is
the next CW bits of the buffer, and moves M, CW, NEXT and AWAIT as the bookkeeping says; and it goes on in RUN exactly where
the bookkeeping says that the code does not stop it. -/
def Obligations.CodeStepFollowsTheBookkeeping : Prop :=
  ∀ s : State, s.FrameInv → s.st = .run → s.cw.toNat ≤ s.bc.toNat →
    ∃ (c : Code) (u t : State), fetchCode s = .next (c, u) ∧ exec .codeStep s = .next t ∧
      c.toNat = valueOf ((bitsOf s.bc.toNat s.bb.toNat).take s.cw.toNat) ∧
      widthCtx t = (widthCtx s).after c.toNat ∧
      (t.st = .run ↔ (widthCtx s).stops c.toNat = false)

/-- 30_encoding.md R105, R93 (marked derived): PACK is the inverse of the fetch rule. Cutting the packed bytes by the width
bookkeeping gives the codes back (in a context with M not 1 to 8, the bookkeeping is the model's: log entry 24, DESIGN CHOICE);
and the block, given START m and the packed bytes one by one, fetches these codes, up to
the first that stops it (what it fetches after the last of them comes from the padding bits of the last byte). -/
def Obligations.PackedCodesAreCutBack : Prop :=
  (∀ (codes : List Nat) (x : WidthCtx) (bits : List Bool), packBits x codes = some bits →
    cutCodes codes.length x (streamBits (bytesOf bits)) = codes) ∧
  (∀ (m : Byte) (codes : List Nat) (bits : List Bool) (s s0 : State), s.Inv → frameSize m.toNat = true →
    exec (.start m) s = .next s0 → packBits (.fresh m.toNat) codes = some bits →
    ((pushCodes (bytesOf bits) s0).map (·.toNat)).take codes.length = (WidthCtx.fresh m.toNat).untilStop codes)

/-- 43_host_commands.md R206, R207, 30 R98: the host's feed of a framed image block is START, one PUSH per payload byte in
order, and EOS, whatever the split into sub-blocks. That the feed goes on to the terminator after the End code is one of the
two ways that R208 allows (log entry 18, DEDUCED). -/
def Obligations.FeedOfAFramedImage : Prop :=
  ∀ (m : Byte) (chunks : List (List Byte)) (rest : List Byte), (∀ c ∈ chunks, 1 ≤ c.length ∧ c.length ≤ 255) →
    feedImage (m :: frameSubBlocks chunks ++ rest) =
      ⟨.cmd (cmdWord 0 m) :: pushAll chunks.flatten ++ [.cmd (cmdWord 2 0)], .endOfStream, rest⟩

/-- 43_host_commands.md R209 with R206, R207: the host, decoding an image block on a good block, issues its commands one at a
time, stops at the first that leaves the block in FAULT with the error of its cause (InvalidLzwCode, TruncatedLzwStream, or
BadMinCodeSize for an illegal START), and otherwise ends as the feed does. That it looks at the line `fault` after every
command, and stops at BadMinCodeSize alike, is log entry 22 (DESIGN CHOICE). -/
def Obligations.HostStopsAtTheFirstFault : Prop :=
  ∀ (buf : List Byte) (s : State), s.Inv →
    ∃ r : HostRun, decodeImage buf s = .next r ∧
      core.run r.issued.length { s with input := r.issued } = .next { r.block with input := [] } ∧
      (∀ (k : Nat) (u : State), 1 ≤ k → k < r.issued.length → core.run k { s with input := r.issued } = .next u →
        u.st ≠ .fault) ∧
      ((r.issued ≠ [] ∧ (∃ more, (feedImage buf).inputs = r.issued ++ more) ∧ r.block.st = .fault ∧
          (r.block.cause = .invalidLzwCode ∨ r.block.cause = .truncatedLzwStream ∨ r.block.cause = .badMinCodeSize) ∧
          r.ending = .blockFault r.block.cause ∧ r.rest = []) ∨
        (r.issued = (feedImage buf).inputs ∧ r.ending = (feedImage buf).ending ∧ r.rest = (feedImage buf).rest ∧
          (r.issued ≠ [] → r.block.st ≠ .fault)))
end

