-- ==== Sys2Proof/Laws/Memory.lean ====
section
/-! SUPPORT. The laws of the two memories: read after write, and the canonical form. -/

namespace Sys2Proof

variable {α : Type}

theorem Memory.read_write_same (m : Memory α) (k : Nat) (v : α) : Memory.read (Memory.write m k v) k = some v := by
  induction m with
  | nil => simp [Memory.write, Memory.read]
  | cons e rest ih =>
    obtain ⟨a, x⟩ := e
    simp only [Memory.write]
    split
    · simp [Memory.read]
    · split
      · simp [Memory.read]
      · rename_i _ hne
        simp [Memory.read, hne, ih]

theorem Memory.read_write_other (m : Memory α) {k j : Nat} (v : α) (h : j ≠ k) :
    Memory.read (Memory.write m k v) j = Memory.read m j := by
  induction m with
  | nil => simp [Memory.write, Memory.read, h.symm]
  | cons e rest ih =>
    obtain ⟨a, x⟩ := e
    simp only [Memory.write]
    split
    · simp [Memory.read, h.symm]
    · split
      · rename_i _ hak
        subst hak
        simp [Memory.read, h.symm]
      · simp [Memory.read, ih]

/-- Writing a cell keeps the canonical form, from any lower bound that admits the cell. -/
theorem Memory.wfFrom_write {size lo k : Nat} {m : Memory α} (v : α) (h : Memory.wfFrom size lo m = true)
    (hlo : lo ≤ k) (hk : k < size) : Memory.wfFrom size lo (Memory.write m k v) = true := by
  induction m generalizing lo with
  | nil => simp [Memory.write, Memory.wfFrom, hlo, hk]
  | cons e rest ih =>
    obtain ⟨a, x⟩ := e
    simp only [Memory.wfFrom, Bool.and_eq_true, decide_eq_true_eq] at h
    obtain ⟨⟨hloa, ha⟩, hrest⟩ := h
    simp only [Memory.write]
    split
    · simp [Memory.wfFrom, hlo, hk, ha, hrest]; omega
    · split
      · rename_i _ hak
        subst hak
        simp [Memory.wfFrom, hloa, ha, hrest]
      · rename_i h1 h2
        simp only [Memory.wfFrom, Bool.and_eq_true, decide_eq_true_eq]
        exact ⟨⟨hloa, ha⟩, ih hrest (by omega)⟩

/-- Every memory write inside the memory keeps the canonical form. -/
theorem Memory.wf_write {size k : Nat} {m : Memory α} (v : α) (h : Memory.wf size m = true) (hk : k < size) :
    Memory.wf size (Memory.write m k v) = true :=
  Memory.wfFrom_write v h (Nat.zero_le k) hk

end Sys2Proof
end

