-- ==== Sys2Proof/Laws/State.lean ====
section
/-! SUPPORT. What every update of the state does to every field: one lemma per field per update. -/

namespace Sys2Proof.Machine

/-! raiseFault -/

@[simp] theorem raiseFault_st (c : RaisedCause) (i : BitVec 12) (s : State) : (raiseFault c i s).st = .fault := rfl
@[simp] theorem raiseFault_cause (c : RaisedCause) (i : BitVec 12) (s : State) : (raiseFault c i s).cause = causeOf c := rfl
@[simp] theorem raiseFault_finfo (c : RaisedCause) (i : BitVec 12) (s : State) : (raiseFault c i s).finfo = i := rfl
@[simp] theorem raiseFault_m (c : RaisedCause) (i : BitVec 12) (s : State) : (raiseFault c i s).m = s.m := rfl
@[simp] theorem raiseFault_cw (c : RaisedCause) (i : BitVec 12) (s : State) : (raiseFault c i s).cw = s.cw := rfl
@[simp] theorem raiseFault_nextCode (c : RaisedCause) (i : BitVec 12) (s : State) : (raiseFault c i s).nextCode = s.nextCode := rfl
@[simp] theorem raiseFault_prev (c : RaisedCause) (i : BitVec 12) (s : State) : (raiseFault c i s).prev = s.prev := rfl
@[simp] theorem raiseFault_awaitFirst (c : RaisedCause) (i : BitVec 12) (s : State) : (raiseFault c i s).awaitFirst = s.awaitFirst := rfl
@[simp] theorem raiseFault_bb (c : RaisedCause) (i : BitVec 12) (s : State) : (raiseFault c i s).bb = s.bb := rfl
@[simp] theorem raiseFault_bc (c : RaisedCause) (i : BitVec 12) (s : State) : (raiseFault c i s).bc = s.bc := rfl
@[simp] theorem raiseFault_dict (c : RaisedCause) (i : BitVec 12) (s : State) : (raiseFault c i s).dict = s.dict := rfl
@[simp] theorem raiseFault_stk (c : RaisedCause) (i : BitVec 12) (s : State) : (raiseFault c i s).stk = s.stk := rfl
@[simp] theorem raiseFault_sp (c : RaisedCause) (i : BitVec 12) (s : State) : (raiseFault c i s).sp = s.sp := rfl
@[simp] theorem raiseFault_out (c : RaisedCause) (i : BitVec 12) (s : State) : (raiseFault c i s).out = s.out := rfl
@[simp] theorem raiseFault_nbytes (c : RaisedCause) (i : BitVec 12) (s : State) : (raiseFault c i s).nbytes = s.nbytes := rfl
@[simp] theorem raiseFault_ncodes (c : RaisedCause) (i : BitVec 12) (s : State) : (raiseFault c i s).ncodes = s.ncodes := rfl
@[simp] theorem raiseFault_input (c : RaisedCause) (i : BitVec 12) (s : State) : (raiseFault c i s).input = s.input := rfl
@[simp] theorem raiseFault_ret (c : RaisedCause) (i : BitVec 12) (s : State) : (raiseFault c i s).ret = s.ret := rfl
@[simp] theorem raiseFault_srData (c : RaisedCause) (i : BitVec 12) (s : State) : (raiseFault c i s).srData = s.srData := rfl
@[simp] theorem raiseFault_fresh (c : RaisedCause) (i : BitVec 12) (s : State) : (raiseFault c i s).fresh = s.fresh := rfl

/-! emitSymbols -/

@[simp] theorem emitSymbols_st (l : List Byte) (s : State) : (emitSymbols l s).st = s.st := rfl
@[simp] theorem emitSymbols_cause (l : List Byte) (s : State) : (emitSymbols l s).cause = s.cause := rfl
@[simp] theorem emitSymbols_finfo (l : List Byte) (s : State) : (emitSymbols l s).finfo = s.finfo := rfl
@[simp] theorem emitSymbols_m (l : List Byte) (s : State) : (emitSymbols l s).m = s.m := rfl
@[simp] theorem emitSymbols_cw (l : List Byte) (s : State) : (emitSymbols l s).cw = s.cw := rfl
@[simp] theorem emitSymbols_nextCode (l : List Byte) (s : State) : (emitSymbols l s).nextCode = s.nextCode := rfl
@[simp] theorem emitSymbols_prev (l : List Byte) (s : State) : (emitSymbols l s).prev = s.prev := rfl
@[simp] theorem emitSymbols_awaitFirst (l : List Byte) (s : State) : (emitSymbols l s).awaitFirst = s.awaitFirst := rfl
@[simp] theorem emitSymbols_bb (l : List Byte) (s : State) : (emitSymbols l s).bb = s.bb := rfl
@[simp] theorem emitSymbols_bc (l : List Byte) (s : State) : (emitSymbols l s).bc = s.bc := rfl
@[simp] theorem emitSymbols_dict (l : List Byte) (s : State) : (emitSymbols l s).dict = s.dict := rfl
@[simp] theorem emitSymbols_stk (l : List Byte) (s : State) : (emitSymbols l s).stk = s.stk := rfl
@[simp] theorem emitSymbols_sp (l : List Byte) (s : State) : (emitSymbols l s).sp = s.sp := rfl
@[simp] theorem emitSymbols_out (l : List Byte) (s : State) : (emitSymbols l s).out = s.out ++ l := rfl
@[simp] theorem emitSymbols_nbytes (l : List Byte) (s : State) : (emitSymbols l s).nbytes = s.nbytes := rfl
@[simp] theorem emitSymbols_ncodes (l : List Byte) (s : State) : (emitSymbols l s).ncodes = s.ncodes := rfl
@[simp] theorem emitSymbols_input (l : List Byte) (s : State) : (emitSymbols l s).input = s.input := rfl
@[simp] theorem emitSymbols_ret (l : List Byte) (s : State) : (emitSymbols l s).ret = s.ret := rfl
@[simp] theorem emitSymbols_srData (l : List Byte) (s : State) : (emitSymbols l s).srData = s.srData := rfl
@[simp] theorem emitSymbols_fresh (l : List Byte) (s : State) : (emitSymbols l s).fresh = s.fresh := rfl

/-! pushSymbol -/

@[simp] theorem pushSymbol_st (x : Byte) (s : State) : (pushSymbol x s).st = s.st := rfl
@[simp] theorem pushSymbol_cause (x : Byte) (s : State) : (pushSymbol x s).cause = s.cause := rfl
@[simp] theorem pushSymbol_finfo (x : Byte) (s : State) : (pushSymbol x s).finfo = s.finfo := rfl
@[simp] theorem pushSymbol_m (x : Byte) (s : State) : (pushSymbol x s).m = s.m := rfl
@[simp] theorem pushSymbol_cw (x : Byte) (s : State) : (pushSymbol x s).cw = s.cw := rfl
@[simp] theorem pushSymbol_nextCode (x : Byte) (s : State) : (pushSymbol x s).nextCode = s.nextCode := rfl
@[simp] theorem pushSymbol_prev (x : Byte) (s : State) : (pushSymbol x s).prev = s.prev := rfl
@[simp] theorem pushSymbol_awaitFirst (x : Byte) (s : State) : (pushSymbol x s).awaitFirst = s.awaitFirst := rfl
@[simp] theorem pushSymbol_bb (x : Byte) (s : State) : (pushSymbol x s).bb = s.bb := rfl
@[simp] theorem pushSymbol_bc (x : Byte) (s : State) : (pushSymbol x s).bc = s.bc := rfl
@[simp] theorem pushSymbol_dict (x : Byte) (s : State) : (pushSymbol x s).dict = s.dict := rfl
@[simp] theorem pushSymbol_stk (x : Byte) (s : State) : (pushSymbol x s).stk = Memory.write s.stk s.sp.toNat x := rfl
@[simp] theorem pushSymbol_sp (x : Byte) (s : State) : (pushSymbol x s).sp = s.sp + 1 := rfl
@[simp] theorem pushSymbol_out (x : Byte) (s : State) : (pushSymbol x s).out = s.out := rfl
@[simp] theorem pushSymbol_nbytes (x : Byte) (s : State) : (pushSymbol x s).nbytes = s.nbytes := rfl
@[simp] theorem pushSymbol_ncodes (x : Byte) (s : State) : (pushSymbol x s).ncodes = s.ncodes := rfl
@[simp] theorem pushSymbol_input (x : Byte) (s : State) : (pushSymbol x s).input = s.input := rfl
@[simp] theorem pushSymbol_ret (x : Byte) (s : State) : (pushSymbol x s).ret = s.ret := rfl
@[simp] theorem pushSymbol_srData (x : Byte) (s : State) : (pushSymbol x s).srData = s.srData := rfl
@[simp] theorem pushSymbol_fresh (x : Byte) (s : State) : (pushSymbol x s).fresh = s.fresh := rfl

/-! shiftByte -/

@[simp] theorem shiftByte_st (b : Byte) (s : State) : (shiftByte b s).st = s.st := rfl
@[simp] theorem shiftByte_cause (b : Byte) (s : State) : (shiftByte b s).cause = s.cause := rfl
@[simp] theorem shiftByte_finfo (b : Byte) (s : State) : (shiftByte b s).finfo = s.finfo := rfl
@[simp] theorem shiftByte_m (b : Byte) (s : State) : (shiftByte b s).m = s.m := rfl
@[simp] theorem shiftByte_cw (b : Byte) (s : State) : (shiftByte b s).cw = s.cw := rfl
@[simp] theorem shiftByte_nextCode (b : Byte) (s : State) : (shiftByte b s).nextCode = s.nextCode := rfl
@[simp] theorem shiftByte_prev (b : Byte) (s : State) : (shiftByte b s).prev = s.prev := rfl
@[simp] theorem shiftByte_awaitFirst (b : Byte) (s : State) : (shiftByte b s).awaitFirst = s.awaitFirst := rfl
@[simp] theorem shiftByte_bb (b : Byte) (s : State) : (shiftByte b s).bb = s.bb ||| (b.setWidth 32 <<< s.bc.toNat) := rfl
@[simp] theorem shiftByte_bc (b : Byte) (s : State) : (shiftByte b s).bc = s.bc + 8 := rfl
@[simp] theorem shiftByte_dict (b : Byte) (s : State) : (shiftByte b s).dict = s.dict := rfl
@[simp] theorem shiftByte_stk (b : Byte) (s : State) : (shiftByte b s).stk = s.stk := rfl
@[simp] theorem shiftByte_sp (b : Byte) (s : State) : (shiftByte b s).sp = s.sp := rfl
@[simp] theorem shiftByte_out (b : Byte) (s : State) : (shiftByte b s).out = s.out := rfl
@[simp] theorem shiftByte_nbytes (b : Byte) (s : State) : (shiftByte b s).nbytes = s.nbytes + 1 := rfl
@[simp] theorem shiftByte_ncodes (b : Byte) (s : State) : (shiftByte b s).ncodes = s.ncodes := rfl
@[simp] theorem shiftByte_input (b : Byte) (s : State) : (shiftByte b s).input = s.input := rfl
@[simp] theorem shiftByte_ret (b : Byte) (s : State) : (shiftByte b s).ret = s.ret := rfl
@[simp] theorem shiftByte_srData (b : Byte) (s : State) : (shiftByte b s).srData = s.srData := rfl
@[simp] theorem shiftByte_fresh (b : Byte) (s : State) : (shiftByte b s).fresh = s.fresh := rfl

/-! clearCodes -/

@[simp] theorem clearCodes_st (s : State) : (clearCodes s).st = s.st := rfl
@[simp] theorem clearCodes_cause (s : State) : (clearCodes s).cause = s.cause := rfl
@[simp] theorem clearCodes_finfo (s : State) : (clearCodes s).finfo = s.finfo := rfl
@[simp] theorem clearCodes_m (s : State) : (clearCodes s).m = s.m := rfl
@[simp] theorem clearCodes_cw (s : State) : (clearCodes s).cw = BitVec.ofNat 4 (s.m.toNat + 1) := rfl
@[simp] theorem clearCodes_nextCode (s : State) : (clearCodes s).nextCode = BitVec.ofNat 13 (endCode s.m.toNat + 1) := rfl
@[simp] theorem clearCodes_prev (s : State) : (clearCodes s).prev = 0 := rfl
@[simp] theorem clearCodes_awaitFirst (s : State) : (clearCodes s).awaitFirst = true := rfl
@[simp] theorem clearCodes_bb (s : State) : (clearCodes s).bb = s.bb := rfl
@[simp] theorem clearCodes_bc (s : State) : (clearCodes s).bc = s.bc := rfl
@[simp] theorem clearCodes_dict (s : State) : (clearCodes s).dict = s.dict := rfl
@[simp] theorem clearCodes_stk (s : State) : (clearCodes s).stk = s.stk := rfl
@[simp] theorem clearCodes_sp (s : State) : (clearCodes s).sp = s.sp := rfl
@[simp] theorem clearCodes_out (s : State) : (clearCodes s).out = s.out := rfl
@[simp] theorem clearCodes_nbytes (s : State) : (clearCodes s).nbytes = s.nbytes := rfl
@[simp] theorem clearCodes_ncodes (s : State) : (clearCodes s).ncodes = s.ncodes := rfl
@[simp] theorem clearCodes_input (s : State) : (clearCodes s).input = s.input := rfl
@[simp] theorem clearCodes_ret (s : State) : (clearCodes s).ret = s.ret := rfl
@[simp] theorem clearCodes_srData (s : State) : (clearCodes s).srData = s.srData := rfl
@[simp] theorem clearCodes_fresh (s : State) : (clearCodes s).fresh = s.fresh := rfl

/-! rememberFirst -/

@[simp] theorem rememberFirst_st (c : Code) (s : State) : (rememberFirst c s).st = s.st := rfl
@[simp] theorem rememberFirst_cause (c : Code) (s : State) : (rememberFirst c s).cause = s.cause := rfl
@[simp] theorem rememberFirst_finfo (c : Code) (s : State) : (rememberFirst c s).finfo = s.finfo := rfl
@[simp] theorem rememberFirst_m (c : Code) (s : State) : (rememberFirst c s).m = s.m := rfl
@[simp] theorem rememberFirst_cw (c : Code) (s : State) : (rememberFirst c s).cw = s.cw := rfl
@[simp] theorem rememberFirst_nextCode (c : Code) (s : State) : (rememberFirst c s).nextCode = s.nextCode := rfl
@[simp] theorem rememberFirst_prev (c : Code) (s : State) : (rememberFirst c s).prev = c := rfl
@[simp] theorem rememberFirst_awaitFirst (c : Code) (s : State) : (rememberFirst c s).awaitFirst = false := rfl
@[simp] theorem rememberFirst_bb (c : Code) (s : State) : (rememberFirst c s).bb = s.bb := rfl
@[simp] theorem rememberFirst_bc (c : Code) (s : State) : (rememberFirst c s).bc = s.bc := rfl
@[simp] theorem rememberFirst_dict (c : Code) (s : State) : (rememberFirst c s).dict = s.dict := rfl
@[simp] theorem rememberFirst_stk (c : Code) (s : State) : (rememberFirst c s).stk = s.stk := rfl
@[simp] theorem rememberFirst_sp (c : Code) (s : State) : (rememberFirst c s).sp = s.sp := rfl
@[simp] theorem rememberFirst_out (c : Code) (s : State) : (rememberFirst c s).out = s.out := rfl
@[simp] theorem rememberFirst_nbytes (c : Code) (s : State) : (rememberFirst c s).nbytes = s.nbytes := rfl
@[simp] theorem rememberFirst_ncodes (c : Code) (s : State) : (rememberFirst c s).ncodes = s.ncodes := rfl
@[simp] theorem rememberFirst_input (c : Code) (s : State) : (rememberFirst c s).input = s.input := rfl
@[simp] theorem rememberFirst_ret (c : Code) (s : State) : (rememberFirst c s).ret = s.ret := rfl
@[simp] theorem rememberFirst_srData (c : Code) (s : State) : (rememberFirst c s).srData = s.srData := rfl
@[simp] theorem rememberFirst_fresh (c : Code) (s : State) : (rememberFirst c s).fresh = s.fresh := rfl

/-! startFrame -/

@[simp] theorem startFrame_st (m : Byte) (s : State) : (startFrame m s).st = .run := rfl
@[simp] theorem startFrame_cause (m : Byte) (s : State) : (startFrame m s).cause = .none := rfl
@[simp] theorem startFrame_finfo (m : Byte) (s : State) : (startFrame m s).finfo = 0 := rfl
@[simp] theorem startFrame_m (m : Byte) (s : State) : (startFrame m s).m = m.setWidth 4 := rfl
@[simp] theorem startFrame_cw (m : Byte) (s : State) : (startFrame m s).cw = BitVec.ofNat 4 (m.toNat + 1) := rfl
@[simp] theorem startFrame_nextCode (m : Byte) (s : State) : (startFrame m s).nextCode = BitVec.ofNat 13 (endCode m.toNat + 1) := rfl
@[simp] theorem startFrame_prev (m : Byte) (s : State) : (startFrame m s).prev = 0 := rfl
@[simp] theorem startFrame_awaitFirst (m : Byte) (s : State) : (startFrame m s).awaitFirst = true := rfl
@[simp] theorem startFrame_bb (m : Byte) (s : State) : (startFrame m s).bb = 0 := rfl
@[simp] theorem startFrame_bc (m : Byte) (s : State) : (startFrame m s).bc = 0 := rfl
@[simp] theorem startFrame_dict (m : Byte) (s : State) : (startFrame m s).dict = s.dict := rfl
@[simp] theorem startFrame_stk (m : Byte) (s : State) : (startFrame m s).stk = s.stk := rfl
@[simp] theorem startFrame_sp (m : Byte) (s : State) : (startFrame m s).sp = 0 := rfl
@[simp] theorem startFrame_out (m : Byte) (s : State) : (startFrame m s).out = [] := rfl
@[simp] theorem startFrame_nbytes (m : Byte) (s : State) : (startFrame m s).nbytes = 0 := rfl
@[simp] theorem startFrame_ncodes (m : Byte) (s : State) : (startFrame m s).ncodes = 0 := rfl
@[simp] theorem startFrame_input (m : Byte) (s : State) : (startFrame m s).input = s.input := rfl
@[simp] theorem startFrame_ret (m : Byte) (s : State) : (startFrame m s).ret = s.ret := rfl
@[simp] theorem startFrame_srData (m : Byte) (s : State) : (startFrame m s).srData = s.srData := rfl
@[simp] theorem startFrame_fresh (m : Byte) (s : State) : (startFrame m s).fresh = s.fresh := rfl

/-! clearFrame -/

@[simp] theorem clearFrame_st (s : State) : (clearFrame s).st = s.st := rfl
@[simp] theorem clearFrame_cause (s : State) : (clearFrame s).cause = s.cause := rfl
@[simp] theorem clearFrame_finfo (s : State) : (clearFrame s).finfo = s.finfo := rfl
@[simp] theorem clearFrame_m (s : State) : (clearFrame s).m = 0 := rfl
@[simp] theorem clearFrame_cw (s : State) : (clearFrame s).cw = 0 := rfl
@[simp] theorem clearFrame_nextCode (s : State) : (clearFrame s).nextCode = 0 := rfl
@[simp] theorem clearFrame_prev (s : State) : (clearFrame s).prev = 0 := rfl
@[simp] theorem clearFrame_awaitFirst (s : State) : (clearFrame s).awaitFirst = false := rfl
@[simp] theorem clearFrame_bb (s : State) : (clearFrame s).bb = 0 := rfl
@[simp] theorem clearFrame_bc (s : State) : (clearFrame s).bc = 0 := rfl
@[simp] theorem clearFrame_dict (s : State) : (clearFrame s).dict = s.dict := rfl
@[simp] theorem clearFrame_stk (s : State) : (clearFrame s).stk = s.stk := rfl
@[simp] theorem clearFrame_sp (s : State) : (clearFrame s).sp = s.sp := rfl
@[simp] theorem clearFrame_out (s : State) : (clearFrame s).out = [] := rfl
@[simp] theorem clearFrame_nbytes (s : State) : (clearFrame s).nbytes = 0 := rfl
@[simp] theorem clearFrame_ncodes (s : State) : (clearFrame s).ncodes = 0 := rfl
@[simp] theorem clearFrame_input (s : State) : (clearFrame s).input = s.input := rfl
@[simp] theorem clearFrame_ret (s : State) : (clearFrame s).ret = s.ret := rfl
@[simp] theorem clearFrame_srData (s : State) : (clearFrame s).srData = s.srData := rfl
@[simp] theorem clearFrame_fresh (s : State) : (clearFrame s).fresh = s.fresh := rfl

/-! hardReset -/

@[simp] theorem hardReset_st (s : State) : (hardReset s).st = .idle := rfl
@[simp] theorem hardReset_cause (s : State) : (hardReset s).cause = .none := rfl
@[simp] theorem hardReset_finfo (s : State) : (hardReset s).finfo = 0 := rfl
@[simp] theorem hardReset_m (s : State) : (hardReset s).m = 0 := rfl
@[simp] theorem hardReset_cw (s : State) : (hardReset s).cw = 0 := rfl
@[simp] theorem hardReset_nextCode (s : State) : (hardReset s).nextCode = 0 := rfl
@[simp] theorem hardReset_prev (s : State) : (hardReset s).prev = 0 := rfl
@[simp] theorem hardReset_awaitFirst (s : State) : (hardReset s).awaitFirst = false := rfl
@[simp] theorem hardReset_bb (s : State) : (hardReset s).bb = 0 := rfl
@[simp] theorem hardReset_bc (s : State) : (hardReset s).bc = 0 := rfl
@[simp] theorem hardReset_dict (s : State) : (hardReset s).dict = s.dict := rfl
@[simp] theorem hardReset_stk (s : State) : (hardReset s).stk = s.stk := rfl
@[simp] theorem hardReset_sp (s : State) : (hardReset s).sp = 0 := rfl
@[simp] theorem hardReset_out (s : State) : (hardReset s).out = [] := rfl
@[simp] theorem hardReset_nbytes (s : State) : (hardReset s).nbytes = 0 := rfl
@[simp] theorem hardReset_ncodes (s : State) : (hardReset s).ncodes = 0 := rfl
@[simp] theorem hardReset_input (s : State) : (hardReset s).input = s.input := rfl
@[simp] theorem hardReset_ret (s : State) : (hardReset s).ret = .none := rfl
@[simp] theorem hardReset_srData (s : State) : (hardReset s).srData = 0 := rfl
@[simp] theorem hardReset_fresh (s : State) : (hardReset s).fresh = s.fresh := rfl

/-! createEntry, growWidth and learn: the fields they leave. -/

@[simp] theorem createEntry_st (p : Code) (x : Byte) (s : State) : (createEntry p x s).st = s.st := by
  unfold createEntry; split <;> rfl
@[simp] theorem createEntry_cause (p : Code) (x : Byte) (s : State) : (createEntry p x s).cause = s.cause := by
  unfold createEntry; split <;> rfl
@[simp] theorem createEntry_finfo (p : Code) (x : Byte) (s : State) : (createEntry p x s).finfo = s.finfo := by
  unfold createEntry; split <;> rfl
@[simp] theorem createEntry_m (p : Code) (x : Byte) (s : State) : (createEntry p x s).m = s.m := by
  unfold createEntry; split <;> rfl
@[simp] theorem createEntry_cw (p : Code) (x : Byte) (s : State) : (createEntry p x s).cw = s.cw := by
  unfold createEntry; split <;> rfl
@[simp] theorem createEntry_prev (p : Code) (x : Byte) (s : State) : (createEntry p x s).prev = s.prev := by
  unfold createEntry; split <;> rfl
@[simp] theorem createEntry_awaitFirst (p : Code) (x : Byte) (s : State) : (createEntry p x s).awaitFirst = s.awaitFirst := by
  unfold createEntry; split <;> rfl
@[simp] theorem createEntry_bb (p : Code) (x : Byte) (s : State) : (createEntry p x s).bb = s.bb := by
  unfold createEntry; split <;> rfl
@[simp] theorem createEntry_bc (p : Code) (x : Byte) (s : State) : (createEntry p x s).bc = s.bc := by
  unfold createEntry; split <;> rfl
@[simp] theorem createEntry_stk (p : Code) (x : Byte) (s : State) : (createEntry p x s).stk = s.stk := by
  unfold createEntry; split <;> rfl
@[simp] theorem createEntry_sp (p : Code) (x : Byte) (s : State) : (createEntry p x s).sp = s.sp := by
  unfold createEntry; split <;> rfl
@[simp] theorem createEntry_out (p : Code) (x : Byte) (s : State) : (createEntry p x s).out = s.out := by
  unfold createEntry; split <;> rfl
@[simp] theorem createEntry_nbytes (p : Code) (x : Byte) (s : State) : (createEntry p x s).nbytes = s.nbytes := by
  unfold createEntry; split <;> rfl
@[simp] theorem createEntry_ncodes (p : Code) (x : Byte) (s : State) : (createEntry p x s).ncodes = s.ncodes := by
  unfold createEntry; split <;> rfl
@[simp] theorem createEntry_input (p : Code) (x : Byte) (s : State) : (createEntry p x s).input = s.input := by
  unfold createEntry; split <;> rfl
@[simp] theorem createEntry_ret (p : Code) (x : Byte) (s : State) : (createEntry p x s).ret = s.ret := by
  unfold createEntry; split <;> rfl
@[simp] theorem createEntry_srData (p : Code) (x : Byte) (s : State) : (createEntry p x s).srData = s.srData := by
  unfold createEntry; split <;> rfl
@[simp] theorem createEntry_fresh (p : Code) (x : Byte) (s : State) : (createEntry p x s).fresh = s.fresh := by
  unfold createEntry; split <;> rfl

@[simp] theorem growWidth_st (s : State) : (growWidth s).st = s.st := by
  unfold growWidth; split <;> rfl
@[simp] theorem growWidth_cause (s : State) : (growWidth s).cause = s.cause := by
  unfold growWidth; split <;> rfl
@[simp] theorem growWidth_finfo (s : State) : (growWidth s).finfo = s.finfo := by
  unfold growWidth; split <;> rfl
@[simp] theorem growWidth_m (s : State) : (growWidth s).m = s.m := by
  unfold growWidth; split <;> rfl
@[simp] theorem growWidth_nextCode (s : State) : (growWidth s).nextCode = s.nextCode := by
  unfold growWidth; split <;> rfl
@[simp] theorem growWidth_prev (s : State) : (growWidth s).prev = s.prev := by
  unfold growWidth; split <;> rfl
@[simp] theorem growWidth_awaitFirst (s : State) : (growWidth s).awaitFirst = s.awaitFirst := by
  unfold growWidth; split <;> rfl
@[simp] theorem growWidth_bb (s : State) : (growWidth s).bb = s.bb := by
  unfold growWidth; split <;> rfl
@[simp] theorem growWidth_bc (s : State) : (growWidth s).bc = s.bc := by
  unfold growWidth; split <;> rfl
@[simp] theorem growWidth_dict (s : State) : (growWidth s).dict = s.dict := by
  unfold growWidth; split <;> rfl
@[simp] theorem growWidth_stk (s : State) : (growWidth s).stk = s.stk := by
  unfold growWidth; split <;> rfl
@[simp] theorem growWidth_sp (s : State) : (growWidth s).sp = s.sp := by
  unfold growWidth; split <;> rfl
@[simp] theorem growWidth_out (s : State) : (growWidth s).out = s.out := by
  unfold growWidth; split <;> rfl
@[simp] theorem growWidth_nbytes (s : State) : (growWidth s).nbytes = s.nbytes := by
  unfold growWidth; split <;> rfl
@[simp] theorem growWidth_ncodes (s : State) : (growWidth s).ncodes = s.ncodes := by
  unfold growWidth; split <;> rfl
@[simp] theorem growWidth_input (s : State) : (growWidth s).input = s.input := by
  unfold growWidth; split <;> rfl
@[simp] theorem growWidth_ret (s : State) : (growWidth s).ret = s.ret := by
  unfold growWidth; split <;> rfl
@[simp] theorem growWidth_srData (s : State) : (growWidth s).srData = s.srData := by
  unfold growWidth; split <;> rfl
@[simp] theorem growWidth_fresh (s : State) : (growWidth s).fresh = s.fresh := by
  unfold growWidth; split <;> rfl

@[simp] theorem learn_st (c : Code) (x : Byte) (s : State) : (learn c x s).st = s.st := by
  simp [learn]
@[simp] theorem learn_cause (c : Code) (x : Byte) (s : State) : (learn c x s).cause = s.cause := by
  simp [learn]
@[simp] theorem learn_finfo (c : Code) (x : Byte) (s : State) : (learn c x s).finfo = s.finfo := by
  simp [learn]
@[simp] theorem learn_m (c : Code) (x : Byte) (s : State) : (learn c x s).m = s.m := by
  simp [learn]
@[simp] theorem learn_awaitFirst (c : Code) (x : Byte) (s : State) : (learn c x s).awaitFirst = s.awaitFirst := by
  simp [learn]
@[simp] theorem learn_bb (c : Code) (x : Byte) (s : State) : (learn c x s).bb = s.bb := by
  simp [learn]
@[simp] theorem learn_bc (c : Code) (x : Byte) (s : State) : (learn c x s).bc = s.bc := by
  simp [learn]
@[simp] theorem learn_stk (c : Code) (x : Byte) (s : State) : (learn c x s).stk = s.stk := by
  simp [learn]
@[simp] theorem learn_sp (c : Code) (x : Byte) (s : State) : (learn c x s).sp = s.sp := by
  simp [learn]
@[simp] theorem learn_out (c : Code) (x : Byte) (s : State) : (learn c x s).out = s.out := by
  simp [learn]
@[simp] theorem learn_nbytes (c : Code) (x : Byte) (s : State) : (learn c x s).nbytes = s.nbytes := by
  simp [learn]
@[simp] theorem learn_ncodes (c : Code) (x : Byte) (s : State) : (learn c x s).ncodes = s.ncodes := by
  simp [learn]
@[simp] theorem learn_input (c : Code) (x : Byte) (s : State) : (learn c x s).input = s.input := by
  simp [learn]
@[simp] theorem learn_ret (c : Code) (x : Byte) (s : State) : (learn c x s).ret = s.ret := by
  simp [learn]
@[simp] theorem learn_srData (c : Code) (x : Byte) (s : State) : (learn c x s).srData = s.srData := by
  simp [learn]
@[simp] theorem learn_fresh (c : Code) (x : Byte) (s : State) : (learn c x s).fresh = s.fresh := by
  simp [learn]

@[simp] theorem learn_prev (c : Code) (x : Byte) (s : State) : (learn c x s).prev = c := rfl

@[simp] theorem learn_dict (c : Code) (x : Byte) (s : State) :
    (learn c x s).dict = (createEntry s.prev x s).dict := by simp [learn]

@[simp] theorem learn_nextCode (c : Code) (x : Byte) (s : State) :
    (learn c x s).nextCode = (createEntry s.prev x s).nextCode := by simp [learn]

@[simp] theorem learn_cw (c : Code) (x : Byte) (s : State) :
    (learn c x s).cw = (growWidth (createEntry s.prev x s)).cw := rfl

end Sys2Proof.Machine
end

