-- ==== Sys2Proof/Laws/Expander.lean ====
section
/-! SUPPORT. What EXPAND can do: it emits SEQ(c) and touches only the stack's first cells (42_expander.md R174). -/

namespace Sys2Proof.Machine

/-- The whole effect of EXPAND for a code with sequence `l`: only OUT, the stack's first cells and SP change. -/
structure Expanded (s t : State) (l : List Byte) : Prop where
  out : t.out = s.out ++ l
  sp : t.sp.toNat = 0
  otherCells : ∀ k, l.length - 1 ≤ k → Memory.read t.stk k = Memory.read s.stk k
  stackForm : Memory.wf Config.stackDepth s.stk = true → Memory.wf Config.stackDepth t.stk = true
  rest : t = { s with out := t.out, stk := t.stk, sp := t.sp }

/-- `a` agrees with `b` on everything SEQ reads. -/
structure SameTable (a b : State) : Prop where
  m : a.m = b.m
  nextCode : a.nextCode = b.nextCode
  dict : a.dict = b.dict

theorem clearc_congr {a b : State} (h : a.m = b.m) : clearc a = clearc b := by simp [clearc, h]

theorem endc_congr {a b : State} (h : a.m = b.m) : endc a = endc b := by simp [endc, h]

theorem liveSlot_congr {a b : State} (h : SameTable a b) (k : Nat) : liveSlot a k = liveSlot b k := by
  simp [liveSlot, endc_congr h.m, h.nextCode]

theorem seqWithin_congr {a b : State} (h : SameTable a b) (n : Nat) (c : Code) : seqWithin a n c = seqWithin b n c := by
  induction n generalizing c with
  | zero => simp [seqWithin, clearc_congr h.m]
  | succ n ih =>
    simp only [seqWithin, clearc_congr h.m, liveSlot_congr h, h.dict]
    split
    · rfl
    · split
      · split
        · rw [ih]
        · rfl
      · rfl

/-- A defined SEQ is a literal, or the prefix's sequence and the trailing symbol of a live slot (R170). -/
theorem seqWithin_cases {s : State} {n : Nat} {c : Code} {l : List Byte} (h : seqWithin s n c = some l) :
    (c.toNat < clearc s ∧ l = [c.setWidth 8]) ∨
      (¬ c.toNat < clearc s ∧ ∃ n' slot l', n = n' + 1 ∧ liveSlot s c.toNat = true ∧
        Memory.read s.dict c.toNat = some slot ∧ seqWithin s n' slot.pfx = some l' ∧ l = l' ++ [slot.sfx]) := by
  cases n with
  | zero =>
    simp only [seqWithin] at h
    split at h
    · exact .inl ⟨‹_›, by simpa using h.symm⟩
    · simp at h
  | succ n =>
    simp only [seqWithin] at h
    split at h
    · exact .inl ⟨‹_›, by simpa using h.symm⟩
    · split at h
      · split at h
        · rename_i hl _ slot hr
          simp only [Option.map_eq_some_iff] at h
          obtain ⟨l', hl', rfl⟩ := h
          exact .inr ⟨‹_›, n, slot, l', rfl, hl, hr, hl', rfl⟩
        · simp at h
      · simp at h

theorem seqWithin_ne_nil {s : State} {n : Nat} {c : Code} {l : List Byte} (h : seqWithin s n c = some l) : l ≠ [] := by
  rcases seqWithin_cases h with ⟨_, rfl⟩ | ⟨_, _, _, _, _, _, _, _, rfl⟩ <;> simp

theorem seqWithin_length {s : State} {n : Nat} {c : Code} {l : List Byte} (h : seqWithin s n c = some l) :
    1 ≤ l.length ∧ l.length ≤ n + 1 := by
  induction n generalizing c l with
  | zero =>
    rcases seqWithin_cases h with ⟨_, rfl⟩ | ⟨_, _, _, _, h0, _⟩
    · simp
    · omega
  | succ n ih =>
    rcases seqWithin_cases h with ⟨_, rfl⟩ | ⟨_, n', slot, l', h0, _, _, h1, rfl⟩
    · simp
    · have : n' = n := by omega
      subst this
      have := ih h1
      simp only [List.length_append, List.length_singleton]
      omega

/-- The first symbol is the head of the sequence (R171). -/
theorem firstSymWithin_eq_head {s : State} {n : Nat} {c : Code} {l : List Byte} (h : seqWithin s n c = some l) :
    firstSymWithin s n c = l.head? := by
  induction n generalizing c l with
  | zero =>
    rcases seqWithin_cases h with ⟨h1, rfl⟩ | ⟨_, _, _, _, h0, _⟩
    · simp [firstSymWithin, h1]
    · omega
  | succ n ih =>
    rcases seqWithin_cases h with ⟨h1, rfl⟩ | ⟨hn, n', slot, l', h0, hl, hr, h1, rfl⟩
    · simp [firstSymWithin, h1]
    · have : n' = n := by omega
      subst this
      have hne := seqWithin_ne_nil h1
      simp only [firstSymWithin, hn, if_false, hl, if_true, hr, ih h1]
      cases l' with
      | nil => exact absurd rfl hne
      | cons => rfl

/-- The stack holds, below SP, the symbols `tail` with the first to be popped on top. -/
def stackHolds (s : State) (tail : List Byte) : Prop :=
  s.sp.toNat = tail.length ∧ ∀ i (h : i < tail.length), Memory.read s.stk (tail.length - 1 - i) = some tail[i]

/-- The prefix walk (first loop of R174): it pushes the symbols after the first and returns the first. -/
theorem walkPrefixes_spec {s : State} {n : Nat} {c : Code} {l tail : List Byte} (h : seqWithin s n c = some l)
    (hs : stackHolds s tail) (hroom : tail.length + n ≤ Config.stackDepth) :
    ∃ f more t, l = f :: more ∧ walkPrefixes n c s = .next (f, t) ∧ stackHolds t (more ++ tail) ∧
      t = { s with stk := t.stk, sp := t.sp } ∧
      (∀ k, (more ++ tail).length ≤ k → Memory.read t.stk k = Memory.read s.stk k) ∧
      (Memory.wf Config.stackDepth s.stk = true → Memory.wf Config.stackDepth t.stk = true) := by
  induction n generalizing s c l tail with
  | zero =>
    rcases seqWithin_cases h with ⟨h1, rfl⟩ | ⟨_, _, _, _, h0, _⟩
    · exact ⟨_, [], s, rfl, by simp [walkPrefixes, h1], by simpa using hs, rfl, by simp, id⟩
    · omega
  | succ n ih =>
    rcases seqWithin_cases h with ⟨h1, rfl⟩ | ⟨hn, n', slot, l', h0, hl, hr, h1, rfl⟩
    · exact ⟨_, [], s, rfl, by simp [walkPrefixes, h1], by simpa using hs, rfl, by simp, id⟩
    · have hnn : n' = n := by omega
      subst hnn
      simp only [Config.stackDepth] at hroom
      have hsp : s.sp.toNat = tail.length := hs.1
      have hpush : stackHolds (pushSymbol slot.sfx s) (slot.sfx :: tail) := by
        refine ⟨?_, ?_⟩
        · simp only [pushSymbol_sp, List.length_cons, BitVec.toNat_add, hsp]
          simp
          omega
        · intro i hi
          cases i with
          | zero => simp [hsp, Memory.read_write_same]
          | succ i =>
            simp only [List.length_cons] at hi
            have hne : (slot.sfx :: tail).length - 1 - (i + 1) ≠ tail.length := by simp; omega
            simp only [pushSymbol_stk, hsp, Memory.read_write_other _ _ hne, List.getElem_cons_succ]
            have := hs.2 i (by omega)
            rw [← this]
            congr 1
            simp only [List.length_cons]
            omega
      have hseq : seqWithin (pushSymbol slot.sfx s) n' slot.pfx = some l' :=
        (seqWithin_congr (a := pushSymbol slot.sfx s) (b := s) ⟨rfl, rfl, rfl⟩ n' slot.pfx).trans h1
      obtain ⟨f, more, t, hl', hw, hst, hrest, hcells, hform⟩ := ih hseq hpush (by simp only [List.length_cons, Config.stackDepth]; omega)
      refine ⟨f, more ++ [slot.sfx], t, by simp [hl'], ?_, by simpa using hst, ?_, ?_, ?_⟩
      · simp only [walkPrefixes, hn, if_false, hl, if_true, hr, hw]
      · rw [hrest]; rfl
      · intro k hk
        simp only [List.length_append, List.length_cons, List.length_nil] at hk
        rw [hcells k (by simp only [List.length_append, List.length_cons]; omega)]
        simp only [pushSymbol_stk, hsp]
        exact Memory.read_write_other _ _ (by omega)
      · intro hwf
        exact hform (Memory.wf_write _ hwf (by simp only [hsp, Config.stackDepth]; omega))

/-- The second loop of R174: everything on the stack is transferred, top first. -/
theorem popSymbols_spec {s : State} {tail : List Byte} (hs : stackHolds s tail) (hlen : tail.length ≤ Config.stackDepth) :
    ∃ t, popSymbols tail.length s = .next t ∧ t.out = s.out ++ tail ∧ t.sp.toNat = 0 ∧
      t = { s with out := t.out, sp := t.sp } := by
  induction tail generalizing s with
  | nil => exact ⟨s, rfl, by simp, hs.1, rfl⟩
  | cons x tail ih =>
    have hx : Memory.read s.stk tail.length = some x := by
      have := hs.2 0 (by simp)
      simpa using this
    simp only [Config.stackDepth, List.length_cons] at hlen
    have hs' : stackHolds (emitSymbols [x] { s with sp := BitVec.ofNat 13 tail.length }) tail := by
      refine ⟨by simp; omega, fun i hi => ?_⟩
      have := hs.2 (i + 1) (by simpa using hi)
      simp only [emitSymbols_stk, List.getElem_cons_succ, List.length_cons] at this ⊢
      rw [← this]
      congr 1
      omega
    obtain ⟨t, ht, hout, hsp, hrest⟩ := ih hs' (by simp only [Config.stackDepth]; omega)
    refine ⟨t, by simp only [List.length_cons, popSymbols, hx, ht], by simp [hout], hsp, ?_⟩
    rw [hrest]; rfl

/-- EXPAND(c) transfers SEQ(c) and returns its first symbol (R174). -/
theorem expandCode_spec {s : State} {c : Code} {l : List Byte} (hm : frameSize s.m.toNat = true)
    (h : seqOf s c = some l) :
    ∃ f t, expandCode c s = .next (f, t) ∧ l.head? = some f ∧ Expanded s t l := by
  have h0 : stackHolds { s with sp := 0 } [] := ⟨rfl, fun i hi => by simp at hi⟩
  have hseq : seqWithin { s with sp := 0 } Config.stackDepth c = some l :=
    (seqWithin_congr (a := { s with sp := 0 }) (b := s) ⟨rfl, rfl, rfl⟩ _ c).trans h
  obtain ⟨f, more, t, hl, hw, hst, hrest, hcells, hform⟩ := walkPrefixes_spec hseq h0 (by simp)
  have hlen := (seqWithin_length h).2
  simp only [List.append_nil] at hst hcells
  have hst' : stackHolds (emitSymbols [f] t) more := ⟨hst.1, fun i hi => hst.2 i hi⟩
  obtain ⟨u, hu, hout, hsp, hrest'⟩ := popSymbols_spec hst' (by
    rw [hl] at hlen; simp only [List.length_cons, Config.stackDepth] at hlen ⊢; omega)
  have hstk : u.stk = t.stk := by rw [hrest']; rfl
  refine ⟨f, u, ?_, by simp [hl], ?_, hsp, ?_, ?_, ?_⟩
  · simp only [expandCode, hm, if_true, hw, andThen, hst.1, hu]
  · rw [hout, hl, hrest]; simp
  · intro k hk
    rw [hstk, hcells k (by rw [hl] at hk; simpa using hk)]
  · intro hwf
    rw [hstk]; exact hform hwf
  · rw [hrest', hrest]; rfl

/-- Where SEQ is not defined the walk stops (93_implementation_defined.md U4). -/
theorem walkPrefixes_none {s : State} {n : Nat} {c : Code} (h : seqWithin s n c = none) :
    ∀ r, walkPrefixes n c s ≠ .next r := by
  induction n generalizing s c with
  | zero =>
    intro r hr
    simp only [seqWithin] at h
    rw [walkPrefixes] at hr
    split at h
    · simp at h
    · rename_i hn
      simp only [hn, if_false] at hr
      split at hr
      · split at hr <;> simp at hr
      · simp at hr
  | succ n ih =>
    intro r hr
    simp only [seqWithin] at h
    rw [walkPrefixes] at hr
    split at h
    · simp at h
    · rename_i hn
      simp only [hn, if_false] at hr
      split at hr
      · rename_i hl
        simp only [hl, if_true] at h
        cases hd : Memory.read s.dict c.toNat with
        | none => simp [hd] at hr
        | some slot =>
          simp only [hd] at h hr
          exact ih ((seqWithin_congr (a := pushSymbol slot.sfx s) (b := s) ⟨rfl, rfl, rfl⟩ n slot.pfx).trans (by simpa using h)) r hr
      · simp at hr

end Sys2Proof.Machine
end

