-- ==== Sys2Proof/Laws/Codes.lean ====
section
/-! SUPPORT. What the shared operations of a code step can do: the fetch, the classes, a data code's step, the drain loop. -/

namespace Sys2Proof.Machine

/-! The fetch. -/

theorem hasBits_iff (w : Nat) (s : State) : hasBits w s = true ↔ w ≤ s.bc.toNat := by simp [hasBits]

theorem widthOk_iff (w : Nat) : widthOk w = true ↔ 1 ≤ w ∧ w ≤ 12 := by
  simp [widthOk, decide_eq_true_eq]

theorem frameSize_iff (m : Nat) : frameSize m = true ↔ 1 ≤ m ∧ m ≤ 8 := by
  simp [frameSize, decide_eq_true_eq]

/-- The state after CW bits have been read (R123). -/
def afterRead (w : Nat) (s : State) : State :=
  { s with
    bb := s.bb >>> w
    bc := BitVec.ofNat 6 (s.bc.toNat - w)
    ncodes := s.ncodes + 1 }

theorem readBits_of_le {w : Nat} {s : State} (h : w ≤ s.bc.toNat) :
    readBits w s = some (BitVec.ofNat 12 (s.bb.toNat % 2 ^ w), afterRead w s) := by
  simp [readBits, hasBits, h, afterRead]

theorem readBits_eq_some {w : Nat} {s t : State} {c : Code} :
    readBits w s = some (c, t) ↔ w ≤ s.bc.toNat ∧ c = BitVec.ofNat 12 (s.bb.toNat % 2 ^ w) ∧ t = afterRead w s := by
  by_cases h : w ≤ s.bc.toNat
  · rw [readBits_of_le h]
    simp only [Option.some.injEq, Prod.mk.injEq, h, true_and]
    exact ⟨fun ⟨a, b⟩ => ⟨a.symm, b.symm⟩, fun ⟨a, b⟩ => ⟨a.symm, b.symm⟩⟩
  · simp [readBits, hasBits, h]

/-- When a fetch answers, and what (R140). -/
theorem fetchCode_eq_next {s t : State} {c : Code} :
    fetchCode s = .next (c, t) ↔
      s.st = .run ∧ widthOk s.cw.toNat = true ∧ s.cw.toNat ≤ s.bc.toNat ∧
        c = BitVec.ofNat 12 (s.bb.toNat % 2 ^ s.cw.toNat) ∧ t = afterRead s.cw.toNat s := by
  unfold fetchCode
  split
  · split
    · split
      · rename_i hr hw _ r h
        obtain ⟨c', t'⟩ := r
        obtain ⟨h1, h2, h3⟩ := readBits_eq_some.mp h
        subst h2 h3
        simp only [Host.Outcome.next.injEq, Prod.mk.injEq]
        exact ⟨fun ⟨a, b⟩ => ⟨hr, hw, h1, a.symm, b.symm⟩, fun ⟨_, _, _, a, b⟩ => ⟨a.symm, b.symm⟩⟩
      · rename_i hr hw _ h
        simp only [reduceCtorEq, false_iff, not_and]
        intro _ _ hle
        rw [readBits_of_le hle] at h
        simp at h
    · simp_all
  · simp_all

theorem codePending_iff (s : State) : codePending s = true ↔ s.st = .run ∧ s.cw.toNat ≤ s.bc.toNat := by
  simp [codePending, hasBits]

@[simp] theorem afterRead_st (w : Nat) (s : State) : (afterRead w s).st = s.st := rfl
@[simp] theorem afterRead_cause (w : Nat) (s : State) : (afterRead w s).cause = s.cause := rfl
@[simp] theorem afterRead_finfo (w : Nat) (s : State) : (afterRead w s).finfo = s.finfo := rfl
@[simp] theorem afterRead_m (w : Nat) (s : State) : (afterRead w s).m = s.m := rfl
@[simp] theorem afterRead_cw (w : Nat) (s : State) : (afterRead w s).cw = s.cw := rfl
@[simp] theorem afterRead_nextCode (w : Nat) (s : State) : (afterRead w s).nextCode = s.nextCode := rfl
@[simp] theorem afterRead_prev (w : Nat) (s : State) : (afterRead w s).prev = s.prev := rfl
@[simp] theorem afterRead_awaitFirst (w : Nat) (s : State) : (afterRead w s).awaitFirst = s.awaitFirst := rfl
@[simp] theorem afterRead_bb (w : Nat) (s : State) : (afterRead w s).bb = s.bb >>> w := rfl
@[simp] theorem afterRead_bc (w : Nat) (s : State) : (afterRead w s).bc = BitVec.ofNat 6 (s.bc.toNat - w) := rfl
@[simp] theorem afterRead_dict (w : Nat) (s : State) : (afterRead w s).dict = s.dict := rfl
@[simp] theorem afterRead_stk (w : Nat) (s : State) : (afterRead w s).stk = s.stk := rfl
@[simp] theorem afterRead_sp (w : Nat) (s : State) : (afterRead w s).sp = s.sp := rfl
@[simp] theorem afterRead_out (w : Nat) (s : State) : (afterRead w s).out = s.out := rfl
@[simp] theorem afterRead_nbytes (w : Nat) (s : State) : (afterRead w s).nbytes = s.nbytes := rfl
@[simp] theorem afterRead_ncodes (w : Nat) (s : State) : (afterRead w s).ncodes = s.ncodes + 1 := rfl
@[simp] theorem afterRead_input (w : Nat) (s : State) : (afterRead w s).input = s.input := rfl
@[simp] theorem afterRead_ret (w : Nat) (s : State) : (afterRead w s).ret = s.ret := rfl
@[simp] theorem afterRead_srData (w : Nat) (s : State) : (afterRead w s).srData = s.srData := rfl
@[simp] theorem afterRead_fresh (w : Nat) (s : State) : (afterRead w s).fresh = s.fresh := rfl

theorem afterRead_bc_toNat (w : Nat) (s : State) : (afterRead w s).bc.toNat = s.bc.toNat - w := by
  simp only [afterRead_bc, BitVec.toNat_ofNat]
  have := s.bc.isLt
  omega

/-! Entry creation and width growth, as numbers. -/

theorem createEntry_nextCode_toNat (p : Code) (x : Byte) (s : State) :
    (createEntry p x s).nextCode.toNat = if s.nextCode.toNat < 4096 then s.nextCode.toNat + 1 else s.nextCode.toNat := by
  by_cases h : s.nextCode.toNat < 4096
  · simp only [createEntry, h, if_true, BitVec.toNat_add]
    simp
    omega
  · simp [createEntry, h]

theorem createEntry_read_new {p : Code} {x : Byte} {s : State} (h : s.nextCode.toNat < 4096) :
    Memory.read (createEntry p x s).dict s.nextCode.toNat = some ⟨p, x⟩ := by
  simp [createEntry, h, Memory.read_write_same]

theorem createEntry_read_other {p : Code} {x : Byte} {s : State} {k : Nat}
    (h : k ≠ s.nextCode.toNat ∨ 4096 ≤ s.nextCode.toNat) :
    Memory.read (createEntry p x s).dict k = Memory.read s.dict k := by
  unfold createEntry
  split
  · rename_i hlt
    simp only [Config.dictSize] at hlt
    exact Memory.read_write_other _ _ (by omega)
  · rfl

theorem createEntry_dictForm {p : Code} {x : Byte} {s : State} (h : Memory.wf Config.dictSize s.dict = true) :
    Memory.wf Config.dictSize (createEntry p x s).dict = true := by
  unfold createEntry
  split
  · exact Memory.wf_write _ h ‹_›
  · exact h

theorem growWidth_cw_toNat (s : State) :
    (growWidth s).cw.toNat =
      if s.nextCode.toNat = 2 ^ s.cw.toNat ∧ s.cw.toNat < 12 then s.cw.toNat + 1 else s.cw.toNat := by
  unfold growWidth
  simp only [Config.cwMax]
  split
  · rename_i h
    simp only [BitVec.toNat_add]
    simp
    omega
  · rfl

/-- The end of a data-code step after the emission: what `learn` adds (R147, R148). -/
theorem dataCodeStep_learn {s t : State} {c : Code} {l : List Byte} {f : Byte} {depth : Nat}
    (hout : t.out = s.out ++ l) (hsp : t.sp.toNat = 0)
    (hcells : ∀ k, depth ≤ k → Memory.read t.stk k = Memory.read s.stk k)
    (hrest : t = { s with out := t.out, stk := t.stk, sp := t.sp }) :
    DataCodeStep s (learn c f t) c l f depth := by
  have hn : t.nextCode = s.nextCode := by rw [hrest]
  have hd : t.dict = s.dict := by rw [hrest]
  have hp : t.prev = s.prev := by rw [hrest]
  have hc : t.cw = s.cw := by rw [hrest]
  constructor
  case out => simp [hout]
  case prev => simp
  case nextCode => simp [createEntry_nextCode_toNat, hn]
  case newEntry =>
    intro h
    rw [learn_dict, hp, ← hn]
    exact createEntry_read_new (by rw [hn]; exact h)
  case otherSlots =>
    intro k hk
    rw [learn_dict, createEntry_read_other (by rw [hn]; exact hk), hd]
  case cw => simp [growWidth_cw_toNat, hc]
  case otherCells => intro k hk; simp [hcells k hk]
  case sp => simp [hsp]
  all_goals (rw [hrest]; simp)

/-- KNOWN's rule (R144). -/
theorem knownRule_spec {s : State} {c : Code} {l : List Byte} (hm : frameSize s.m.toNat = true)
    (h : seqOf s c = some l) :
    ∃ t f, knownRule c s = .next t ∧ firstSym s c = some f ∧ l.head? = some f ∧ DataCodeStep s t c l f (l.length - 1) ∧
      (Memory.wf Config.stackDepth s.stk = true → Memory.wf Config.stackDepth t.stk = true) ∧
      (Memory.wf Config.dictSize s.dict = true → Memory.wf Config.dictSize t.dict = true) := by
  obtain ⟨f, t, he, hf, ex⟩ := expandCode_spec hm h
  refine ⟨learn c f t, f, by simp [knownRule, he, andThen], ?_, hf, ?_, ?_, ?_⟩
  · rw [← hf]; exact firstSymWithin_eq_head h
  · exact dataCodeStep_learn ex.out ex.sp ex.otherCells ex.rest
  · intro hw; simpa using ex.stackForm hw
  · intro hw
    rw [learn_dict]
    exact createEntry_dictForm (by rw [ex.rest]; exact hw)

/-- KWKWK's rule (R145). -/
theorem kwkwkRule_spec {s : State} {c : Code} {p : List Byte} (hm : frameSize s.m.toNat = true)
    (h : seqOf s s.prev = some p) :
    ∃ t f, kwkwkRule c s = .next t ∧ firstSym s s.prev = some f ∧ p.head? = some f ∧
      DataCodeStep s t c (p ++ [f]) f (p.length - 1) ∧
      (Memory.wf Config.stackDepth s.stk = true → Memory.wf Config.stackDepth t.stk = true) ∧
      (Memory.wf Config.dictSize s.dict = true → Memory.wf Config.dictSize t.dict = true) := by
  obtain ⟨f, t, he, hf, ex⟩ := expandCode_spec hm h
  refine ⟨learn c f (emitSymbols [f] t), f, by simp [kwkwkRule, he, andThen], ?_, hf, ?_, ?_, ?_⟩
  · rw [← hf]; exact firstSymWithin_eq_head h
  · refine dataCodeStep_learn (t := emitSymbols [f] t) ?_ ex.sp ex.otherCells ?_
    · simp [ex.out]
    · rw [ex.rest]; rfl
  · intro hw; simpa using ex.stackForm hw
  · intro hw
    rw [learn_dict]
    exact createEntry_dictForm (by rw [emitSymbols_dict, ex.rest]; exact hw)

/-! The drain loop. -/

/-- EXPAND moves no bit of the buffer. -/
theorem walkPrefixes_bc {n : Nat} {c : Code} {s t : State} {f : Byte} (h : walkPrefixes n c s = .next (f, t)) :
    t.bc = s.bc := by
  induction n generalizing s c with
  | zero =>
    rw [walkPrefixes] at h
    split at h
    · simp only [Host.Outcome.next.injEq, Prod.mk.injEq] at h; rw [← h.2]
    · split at h
      · split at h <;> simp at h
      · simp at h
  | succ n ih =>
    rw [walkPrefixes] at h
    split at h
    · simp only [Host.Outcome.next.injEq, Prod.mk.injEq] at h; rw [← h.2]
    · split at h
      · split at h
        · simp at h
        · exact (ih h).trans rfl
      · simp at h

theorem popSymbols_bc {n : Nat} {s t : State} (h : popSymbols n s = .next t) : t.bc = s.bc := by
  induction n generalizing s with
  | zero => simp only [popSymbols, Host.Outcome.next.injEq] at h; rw [h]
  | succ n ih =>
    rw [popSymbols] at h
    split at h
    · simp at h
    · exact (ih h).trans rfl

theorem andThen_eq_next {α β : Type} {o : Host.Outcome α Fault Refusal} {f : α → Host.Outcome β Fault Refusal} {b : β} :
    andThen o f = .next b ↔ ∃ a, o = .next a ∧ f a = .next b := by
  cases o <;> simp [andThen]

theorem expandCode_bc {c : Code} {s t : State} {f : Byte} (h : expandCode c s = .next (f, t)) : t.bc = s.bc := by
  unfold expandCode at h
  split at h
  · obtain ⟨⟨g, t1⟩, h1, h2⟩ := andThen_eq_next.mp h
    obtain ⟨t2, h3, h4⟩ := andThen_eq_next.mp h2
    simp only [Host.Outcome.next.injEq, Prod.mk.injEq] at h4
    rw [← h4.2, popSymbols_bc h3, emitSymbols_bc, walkPrefixes_bc h1]
  · simp at h

/-- No class rule moves a bit of the buffer: only the fetch does. -/
theorem runCode_bc {c : Code} {s t : State} (h : runCode c s = .next t) : t.bc = s.bc := by
  unfold runCode at h
  split at h
  · simp only [endRule, Host.Outcome.next.injEq] at h; rw [← h]
  · simp only [clearRule, Host.Outcome.next.injEq] at h; rw [← h]; simp
  · simp only [firstRule, Host.Outcome.next.injEq] at h; rw [← h]; simp
  · simp only [invalidRule, Host.Outcome.next.injEq] at h; rw [← h]; simp
  · obtain ⟨⟨f, t1⟩, h1, h2⟩ := andThen_eq_next.mp h
    simp only [Host.Outcome.next.injEq] at h2
    rw [← h2, learn_bc, expandCode_bc h1]
  · obtain ⟨⟨f, t1⟩, h1, h2⟩ := andThen_eq_next.mp h
    simp only [Host.Outcome.next.injEq] at h2
    rw [← h2, learn_bc, emitSymbols_bc, expandCode_bc h1]
  · simp at h

/-- A code step uses up CW bits, at least one. -/
theorem execCodeStep_bc {s t : State} (h : execCodeStep s = .next t) :
    1 ≤ s.cw.toNat ∧ t.bc.toNat + s.cw.toNat = s.bc.toNat := by
  obtain ⟨⟨c, s1⟩, h1, h2⟩ := andThen_eq_next.mp h
  obtain ⟨_, hw, hle, _, rfl⟩ := fetchCode_eq_next.mp h1
  rw [runCode_bc h2, afterRead_bc_toNat]
  have := (widthOk_iff _).mp hw
  omega

/-- More turns than BC + 1 change nothing: the drain loop's bound is no limit. -/
theorem drainWithin_enough {n : Nat} {s : State} (h : s.bc.toNat + 1 ≤ n) : drainWithin n s = execDrain s := by
  suffices H : ∀ (k : Nat) (s : State) (n m : Nat), s.bc.toNat ≤ k → s.bc.toNat + 1 ≤ n → s.bc.toNat + 1 ≤ m →
      drainWithin n s = drainWithin m s from H s.bc.toNat s n _ (Nat.le_refl _) h (Nat.le_refl _)
  intro k
  induction k with
  | zero =>
    intro s n m hk hn hm
    obtain ⟨n, rfl⟩ : ∃ j, n = j + 1 := ⟨n - 1, by omega⟩
    obtain ⟨m, rfl⟩ : ∃ j, m = j + 1 := ⟨m - 1, by omega⟩
    simp only [drainWithin]
    split
    · split
      · rename_i hw
        have hno : hasBits s.cw.toNat s = false := by
          have := (widthOk_iff _).mp hw
          simp only [hasBits, decide_eq_false_iff_not]
          omega
        simp [hno]
      · rfl
    · rfl
  | succ k ih =>
    intro s n m hk hn hm
    obtain ⟨n, rfl⟩ : ∃ j, n = j + 1 := ⟨n - 1, by omega⟩
    obtain ⟨m, rfl⟩ : ∃ j, m = j + 1 := ⟨m - 1, by omega⟩
    simp only [drainWithin]
    split
    · split
      · split
        · cases hc : execCodeStep s with
          | next t =>
            have hb := execCodeStep_bc hc
            exact ih t n m (by omega) (by omega) (by omega)
          | fault r => rfl
          | refused r => rfl
        · rfl
      · rfl
    · rfl

end Sys2Proof.Machine
end

