-- ==== Sys2Proof/Laws/Step.lean ====
section
/-! SUPPORT. What one step can do, what a classification says, and what a good dictionary gives: the lemmas to cite instead
of unfolding the step, the classifier or SEQ. -/

namespace Sys2Proof.Machine

/-! The step. -/

/-- While a code is buffered a step is the fetch and the decoded instruction, unless a reset comes first. -/
theorem step_pending {s : State} (hp : codePending s = true) (hi : s.input.head? ≠ some .rst) :
    step s = andThen (fetchCode s) fun (c, s1) => runDecoded c s1 := by
  unfold step sequencerStep
  split
  · rename_i h; simp [h] at hi
  · simp [hp]
  · simp [hp]
  · simp [hp]

/-- Everything a step can do, with the guard of each case. -/
theorem step_cases {s t : State} (h : step s = .next t) :
    (∃ rest, s.input = .rst :: rest ∧ t = hardReset { s with input := rest }) ∨
    (codePending s = true ∧ ∃ c u, fetchCode s = .next (c, u) ∧ runDecoded c u = .next t) ∨
    (codePending s = false ∧ ∃ w rest, s.input = .cmd w :: rest ∧ exec (decodeCmd w) { s with input := rest } = .next t) ∨
    (codePending s = false ∧ ∃ a rest, s.input = .statusRead a :: rest ∧
      exec (.statusRead a) { s with input := rest } = .next t) ∨
    (codePending s = false ∧ s.input = [] ∧ t = s) := by
  unfold step sequencerStep at h
  cases hp : codePending s <;> simp only [hp, if_true, Bool.false_eq_true, if_false] at h
  · split at h
    · rename_i rest hi
      exact .inl ⟨rest, hi, by simpa using h.symm⟩
    · rename_i w rest hi
      exact .inr (.inr (.inl ⟨rfl, w, rest, hi, h⟩))
    · rename_i a rest hi
      exact .inr (.inr (.inr (.inl ⟨rfl, a, rest, hi, h⟩)))
    · rename_i hi
      exact .inr (.inr (.inr (.inr ⟨rfl, hi, by simpa using h.symm⟩)))
  · split at h
    · rename_i rest hi
      exact .inl ⟨rest, hi, by simpa using h.symm⟩
    all_goals
      obtain ⟨⟨c, u⟩, h1, h2⟩ := andThen_eq_next.mp h
      exact .inr (.inl ⟨rfl, c, u, h1, h2⟩)

/-- At a command boundary of a good state no code is buffered. -/
theorem codePending_of_inv {s : State} (hi : s.Inv) : codePending s = false := by
  cases h : codePending s with
  | false => rfl
  | true =>
    have h' := (codePending_iff s).mp h
    have := hi.drained h'.1
    omega

/-! Classification (30_encoding.md R94). -/

theorem frameSize_cases {m : Nat} (h : frameSize m = true) :
    m = 1 ∨ m = 2 ∨ m = 3 ∨ m = 4 ∨ m = 5 ∨ m = 6 ∨ m = 7 ∨ m = 8 := by
  have := (frameSize_iff m).mp h
  omega

theorem endc_eq (s : State) : endc s = clearc s + 1 := rfl

theorem hasEntry_iff (s : State) (k : Nat) :
    hasEntry s k = true ↔ k < clearc s ∨ (endc s < k ∧ k < s.nextCode.toNat) := by
  simp [hasEntry, liveSlot]

theorem classify_first {s : State} {c : Code} (h : classify (codeCtx s) c = some .first) :
    frameSize s.m.toNat = true ∧ s.awaitFirst = true ∧ c.toNat < s.nextCode.toNat ∧ c.toNat ≠ clearc s ∧
      c.toNat ≠ endc s := by
  unfold classify at h
  repeat' split at h
  all_goals simp at h
  rename_i h1 h2 h3 h4 h5
  exact ⟨h1, h4, h5, h3, h2⟩

theorem classify_known {s : State} {c : Code} (h : classify (codeCtx s) c = some .known) :
    frameSize s.m.toNat = true ∧ s.awaitFirst = false ∧ hasEntry s c.toNat = true := by
  unfold classify at h
  repeat' split at h
  all_goals simp at h
  rename_i h1 h2 h3 h4 h5
  refine ⟨h1, by change (codeCtx s).awaitFirst = false; simpa using h4, ?_⟩
  have h2 : ¬ c.toNat = endc s := h2
  have h3 : ¬ c.toNat = clearc s := h3
  have h5 : c.toNat < s.nextCode.toNat := h5
  have := endc_eq s
  exact (hasEntry_iff _ _).mpr (by omega)

theorem classify_kwkwk {s : State} {c : Code} (h : classify (codeCtx s) c = some .kwkwk) :
    frameSize s.m.toNat = true ∧ s.awaitFirst = false ∧ c.toNat = s.nextCode.toNat ∧ c.toNat ≠ clearc s ∧
      c.toNat ≠ endc s := by
  unfold classify at h
  repeat' split at h
  all_goals simp at h
  rename_i h1 h2 h3 h4 h5 h6
  exact ⟨h1, by change (codeCtx s).awaitFirst = false; simpa using h4, h6, h3, h2⟩

/-- With M legal every code has a class (41_lzw_codes.md R161). -/
theorem classify_some {x : CodeCtx} (c : Code) (h : frameSize x.m.toNat = true) : ∃ k, classify x c = some k := by
  unfold classify
  simp only [h, if_true]
  repeat' split
  all_goals exact ⟨_, rfl⟩

/-! Good dictionaries (10_state.md R37 (d)). -/

theorem dictOk_iff (s : State) :
    dictOk s = true ↔ ∀ k, liveSlot s k = true →
      ∃ slot, Memory.read s.dict k = some slot ∧ slot.pfx.toNat < k ∧ hasEntry s slot.pfx.toNat = true := by
  simp only [dictOk, List.all_eq_true, List.mem_range, Bool.or_eq_true, decide_eq_true_eq, liveSlot, Bool.and_eq_true]
  constructor
  · intro h k hk
    have := (h k hk.2).resolve_left (by omega)
    unfold slotOk at this
    split at this
    · simp at this
    · rename_i slot hs
      simp only [Bool.and_eq_true, Bool.or_eq_true, decide_eq_true_eq] at this
      exact ⟨slot, hs, this.1, (hasEntry_iff _ _).mpr (by omega)⟩
  · intro h k hk
    by_cases hle : k ≤ endc s
    · exact .inl hle
    · obtain ⟨slot, h1, h2, h3⟩ := h k ⟨by omega, hk⟩
      have h3 := (hasEntry_iff _ _).mp h3
      right
      simp only [slotOk, h1, Bool.and_eq_true, Bool.or_eq_true, decide_eq_true_eq]
      exact ⟨h2, by omega⟩

/-- More links allowed change no sequence. -/
theorem seqWithin_mono {s : State} {n k : Nat} {c : Code} {l : List Byte} (h : seqWithin s n c = some l) (hk : n ≤ k) :
    seqWithin s k c = some l := by
  induction n generalizing k c l with
  | zero =>
    rcases seqWithin_cases h with ⟨h1, rfl⟩ | ⟨_, _, _, _, h0, _⟩
    · cases k <;> simp [seqWithin, h1]
    · omega
  | succ n ih =>
    rcases seqWithin_cases h with ⟨h1, rfl⟩ | ⟨hn, n', slot, l', h0, hl, hr, h1, rfl⟩
    · cases k <;> simp [seqWithin, h1]
    · obtain ⟨k, rfl⟩ : ∃ j, k = j + 1 := ⟨k - 1, by omega⟩
      obtain rfl : n' = n := by omega
      simp [seqWithin, hn, hl, hr, ih h1 (show n' ≤ k by omega)]

end Sys2Proof.Machine
end

