-- ==== Sys2Proof/Laws/Input.lean ====
section
/-! SUPPORT. No instruction reads or writes the host's pending inputs: exec commutes with replacing them. -/

namespace Sys2Proof.Machine

/-- The state with other pending inputs. -/
def withInput (l : List HostInput) (s : State) : State := { s with input := l }

@[simp] theorem withInput_st (l : List HostInput) (s : State) : (withInput l s).st = s.st := rfl
@[simp] theorem withInput_cause (l : List HostInput) (s : State) : (withInput l s).cause = s.cause := rfl
@[simp] theorem withInput_finfo (l : List HostInput) (s : State) : (withInput l s).finfo = s.finfo := rfl
@[simp] theorem withInput_m (l : List HostInput) (s : State) : (withInput l s).m = s.m := rfl
@[simp] theorem withInput_cw (l : List HostInput) (s : State) : (withInput l s).cw = s.cw := rfl
@[simp] theorem withInput_nextCode (l : List HostInput) (s : State) : (withInput l s).nextCode = s.nextCode := rfl
@[simp] theorem withInput_prev (l : List HostInput) (s : State) : (withInput l s).prev = s.prev := rfl
@[simp] theorem withInput_awaitFirst (l : List HostInput) (s : State) : (withInput l s).awaitFirst = s.awaitFirst := rfl
@[simp] theorem withInput_bb (l : List HostInput) (s : State) : (withInput l s).bb = s.bb := rfl
@[simp] theorem withInput_bc (l : List HostInput) (s : State) : (withInput l s).bc = s.bc := rfl
@[simp] theorem withInput_dict (l : List HostInput) (s : State) : (withInput l s).dict = s.dict := rfl
@[simp] theorem withInput_stk (l : List HostInput) (s : State) : (withInput l s).stk = s.stk := rfl
@[simp] theorem withInput_sp (l : List HostInput) (s : State) : (withInput l s).sp = s.sp := rfl
@[simp] theorem withInput_out (l : List HostInput) (s : State) : (withInput l s).out = s.out := rfl
@[simp] theorem withInput_nbytes (l : List HostInput) (s : State) : (withInput l s).nbytes = s.nbytes := rfl
@[simp] theorem withInput_ncodes (l : List HostInput) (s : State) : (withInput l s).ncodes = s.ncodes := rfl
@[simp] theorem withInput_ret (l : List HostInput) (s : State) : (withInput l s).ret = s.ret := rfl
@[simp] theorem withInput_srData (l : List HostInput) (s : State) : (withInput l s).srData = s.srData := rfl
@[simp] theorem withInput_fresh (l : List HostInput) (s : State) : (withInput l s).fresh = s.fresh := rfl
@[simp] theorem withInput_input (l : List HostInput) (s : State) : (withInput l s).input = l := rfl
@[simp] theorem clearc_withInput (l : List HostInput) (s : State) : clearc (withInput l s) = clearc s := rfl
@[simp] theorem liveSlot_withInput (l : List HostInput) (s : State) (k : Nat) :
    liveSlot (withInput l s) k = liveSlot s k := rfl
@[simp] theorem codeCtx_withInput (l : List HostInput) (s : State) : codeCtx (withInput l s) = codeCtx s := rfl

/-- Apply a function to the value of an outcome that has one. -/
def mapNext {α β : Type} (f : α → β) (o : Host.Outcome α Fault Refusal) : Host.Outcome β Fault Refusal :=
  andThen o fun a => .next (f a)

/-- The value of a code step's parts beside the state is kept. -/
def withInputSnd {α : Type} (l : List HostInput) (r : α × State) : α × State := (r.1, withInput l r.2)

@[simp] theorem mapNext_next {α β : Type} (f : α → β) (a : α) :
    mapNext f (.next a : Host.Outcome α Fault Refusal) = .next (f a) := rfl
@[simp] theorem mapNext_fault {α β : Type} (f : α → β) (r : Fault) :
    mapNext f (.fault r : Host.Outcome α Fault Refusal) = .fault r := rfl
@[simp] theorem mapNext_refused {α β : Type} (f : α → β) (r : Refusal) :
    mapNext f (.refused r : Host.Outcome α Fault Refusal) = .refused r := rfl

/-- Two sequenced operations commute with the replacement where each does. -/
theorem andThen_commutes {α β γ δ : Type} {o : Host.Outcome α Fault Refusal} {o' : Host.Outcome β Fault Refusal}
    {f : α → Host.Outcome γ Fault Refusal} {f' : β → Host.Outcome δ Fault Refusal} {p : α → β} {q : γ → δ}
    (ho : o' = mapNext p o) (hf : ∀ a, f' (p a) = mapNext q (f a)) : andThen o' f' = mapNext q (andThen o f) := by
  subst ho
  cases o
  · exact hf _
  · rfl
  · rfl

theorem walkPrefixes_withInput (l : List HostInput) (n : Nat) (c : Code) (s : State) :
    walkPrefixes n c (withInput l s) = mapNext (withInputSnd l) (walkPrefixes n c s) := by
  induction n generalizing c s with
  | zero =>
    rw [walkPrefixes.eq_1 0 c (withInput l s), walkPrefixes.eq_1 0 c s]
    by_cases h : c.toNat < clearc s
    · simp [h, withInputSnd]
    · cases hl : liveSlot s c.toNat
      · simp [h, hl]
      · cases hr : Memory.read s.dict c.toNat <;> simp [h, hl, hr]
  | succ n ih =>
    rw [walkPrefixes.eq_1 (n + 1) c (withInput l s), walkPrefixes.eq_1 (n + 1) c s]
    by_cases h : c.toNat < clearc s
    · simp [h, withInputSnd]
    · cases hl : liveSlot s c.toNat
      · simp [h, hl]
      · cases hr : Memory.read s.dict c.toNat with
        | none => simp [h, hl, hr]
        | some slot =>
          simp only [clearc_withInput, h, if_false, liveSlot_withInput, hl, if_true, withInput_dict, hr]
          exact ih slot.pfx (pushSymbol slot.sfx s)

theorem popSymbols_withInput (l : List HostInput) (n : Nat) (s : State) :
    popSymbols n (withInput l s) = mapNext (withInput l) (popSymbols n s) := by
  induction n generalizing s with
  | zero => rfl
  | succ n ih =>
    cases hr : Memory.read s.stk n with
    | none => simp [popSymbols, hr]
    | some x =>
      simp only [popSymbols, withInput_stk, hr]
      exact ih (emitSymbols [x] { s with sp := BitVec.ofNat 13 n })

theorem expandCode_withInput (l : List HostInput) (c : Code) (s : State) :
    expandCode c (withInput l s) = mapNext (withInputSnd l) (expandCode c s) := by
  cases hm : frameSize s.m.toNat
  · simp [expandCode, hm]
  · simp only [expandCode, withInput_m, hm, if_true]
    refine andThen_commutes (walkPrefixes_withInput l _ c { s with sp := 0 }) fun r => ?_
    exact andThen_commutes (popSymbols_withInput l _ (emitSymbols [r.1] r.2)) fun _ => rfl

theorem createEntry_withInput (l : List HostInput) (p : Code) (x : Byte) (s : State) :
    createEntry p x (withInput l s) = withInput l (createEntry p x s) := by
  by_cases h : s.nextCode.toNat < Config.dictSize
  · simp only [createEntry, withInput_nextCode, h, if_true]; rfl
  · simp only [createEntry, withInput_nextCode, h, if_false]

theorem growWidth_withInput (l : List HostInput) (s : State) : growWidth (withInput l s) = withInput l (growWidth s) := by
  by_cases h : s.nextCode.toNat = 2 ^ s.cw.toNat ∧ s.cw.toNat < Config.cwMax
  · have e : growWidth s = { s with cw := s.cw + 1 } := if_pos h
    rw [e]
    exact if_pos h
  · exact (if_neg h).trans (congrArg (withInput l) (if_neg h).symm)

theorem learn_withInput (l : List HostInput) (c : Code) (x : Byte) (s : State) :
    learn c x (withInput l s) = withInput l (learn c x s) := by
  simp only [learn, withInput_prev, createEntry_withInput, growWidth_withInput]
  rfl

theorem knownRule_withInput (l : List HostInput) (c : Code) (s : State) :
    knownRule c (withInput l s) = mapNext (withInput l) (knownRule c s) :=
  andThen_commutes (expandCode_withInput l c s) fun r => congrArg Host.Outcome.next (learn_withInput l c r.1 r.2)

theorem kwkwkRule_withInput (l : List HostInput) (c : Code) (s : State) :
    kwkwkRule c (withInput l s) = mapNext (withInput l) (kwkwkRule c s) :=
  andThen_commutes (expandCode_withInput l s.prev s) fun r =>
    congrArg Host.Outcome.next (learn_withInput l c r.1 (emitSymbols [r.1] r.2))

theorem runCode_withInput (l : List HostInput) (c : Code) (s : State) :
    runCode c (withInput l s) = mapNext (withInput l) (runCode c s) := by
  cases hk : classify (codeCtx s) c with
  | none => simp [runCode, hk]
  | some k =>
    cases k <;> simp only [runCode, codeCtx_withInput, hk]
    · rfl
    · rfl
    · rfl
    · rfl
    · exact knownRule_withInput l c s
    · exact kwkwkRule_withInput l c s

theorem readBits_withInput (l : List HostInput) (w : Nat) (s : State) :
    readBits w (withInput l s) = (readBits w s).map (withInputSnd l) := by
  cases h : hasBits w s
  · simp only [readBits, show hasBits w (withInput l s) = hasBits w s from rfl, h]; rfl
  · simp only [readBits, show hasBits w (withInput l s) = hasBits w s from rfl, h]; rfl

theorem fetchCode_withInput (l : List HostInput) (s : State) :
    fetchCode (withInput l s) = mapNext (withInputSnd l) (fetchCode s) := by
  by_cases hr : s.st = .run
  · cases hw : widthOk s.cw.toNat
    · simp [fetchCode, hr, hw]
    · simp only [fetchCode, withInput_st, hr, withInput_cw, hw, if_true, readBits_withInput]
      cases readBits s.cw.toNat s <;> rfl
  · simp [fetchCode, hr]

theorem execCodeStep_withInput (l : List HostInput) (s : State) :
    execCodeStep (withInput l s) = mapNext (withInput l) (execCodeStep s) :=
  andThen_commutes (fetchCode_withInput l s) fun r => runCode_withInput l r.1 r.2

theorem drainWithin_withInput (l : List HostInput) (n : Nat) (s : State) :
    drainWithin n (withInput l s) = mapNext (withInput l) (drainWithin n s) := by
  induction n generalizing s with
  | zero => rfl
  | succ n ih =>
    by_cases hr : s.st = .run
    · cases hw : widthOk s.cw.toNat
      · simp [drainWithin, hr, hw]
      · cases hb : hasBits s.cw.toNat s
        · simp only [drainWithin, withInput_st, hr, withInput_cw, hw, if_true,
            show hasBits s.cw.toNat (withInput l s) = hasBits s.cw.toNat s from rfl, hb]
          rfl
        · simp only [drainWithin, withInput_st, hr, withInput_cw, hw, if_true,
            show hasBits s.cw.toNat (withInput l s) = hasBits s.cw.toNat s from rfl, hb]
          exact andThen_commutes (execCodeStep_withInput l s) ih
    · simp [drainWithin, hr]

theorem execShiftIn_withInput (l : List HostInput) (b : Byte) (s : State) :
    execShiftIn b (withInput l s) = mapNext (withInput l) (execShiftIn b s) := by
  by_cases h : s.bc.toNat + 8 ≤ Config.bbBits
  · simp only [execShiftIn, withInput_bc, h, if_true]; rfl
  · simp only [execShiftIn, withInput_bc, h, if_false]; rfl

/-- A host command commutes with the replacement of the inputs pending behind it. -/
theorem execCommand_withInput (l : List HostInput) (w : CmdWord) (s : State) :
    exec (decodeCmd w) (withInput l s) = mapNext (withInput l) (exec (decodeCmd w) s) := by
  unfold decodeCmd
  split
  · simp only [exec, execStart]
    split <;> rfl
  · simp only [exec, execPush, withInput_st]
    cases s.st
    · rfl
    · exact andThen_commutes (execShiftIn_withInput l _ s) fun t => drainWithin_withInput l _ t
    · rfl
    · rfl
  · simp only [exec, execEos, withInput_st]
    cases s.st <;> rfl
  · simp only [exec, execRsvd, withInput_st]
    cases s.st <;> rfl

/-- What a command leaves pending is what was pending behind it. -/
theorem execCommand_input {w : CmdWord} {s t : State} (h : exec (decodeCmd w) s = .next t) : t.input = s.input := by
  have e := execCommand_withInput s.input w s
  have hs : withInput s.input s = s := rfl
  rw [hs, h, mapNext_next] at e
  simp only [Host.Outcome.next.injEq] at e
  rw [e]
  rfl

end Sys2Proof.Machine
end

