-- ==== Sys2Proof/Laws/Host.lean ====
section
/-! SUPPORT. Runs of the machine and the host's commands: what one more step of a run is, and what issuing a command is. -/

namespace Sys2Proof.Machine

/-- A run of one more step, where the first step answers. -/
theorem run_succ {M : Host.Core} {n : Nat} {s t : M.State} (h : M.step s = .next t) : M.run (n + 1) s = M.run n t := by
  simp only [Host.Core.run, h]

/-- The same of this machine. -/
theorem core_run_succ {n : Nat} {s t : State} (h : step s = .next t) :
    Sys2Proof.core.run (n + 1) s = Sys2Proof.core.run n t := run_succ (M := Sys2Proof.core) h

/-- A step on a command at a command boundary runs it and leaves what is pending behind it. -/
theorem step_command {s : State} (hp : codePending s = false) (w : CmdWord) (more : List HostInput) :
    step { s with input := .cmd w :: more } = mapNext (withInput more) (exec (decodeCmd w) s) := by
  have hp' : codePending { s with input := .cmd w :: more } = false := hp
  rw [← execCommand_withInput]
  unfold step sequencerStep
  simp only [hp', Bool.false_eq_true, if_false]
  rfl

/-- Issuing a command at a command boundary runs it and leaves nothing pending. -/
theorem issueCommand_eq {s : State} (hp : codePending s = false) (w : CmdWord) :
    issueCommand (.cmd w) s = mapNext (withInput []) (exec (decodeCmd w) s) := step_command hp w []

end Sys2Proof.Machine
end

