-- ==== Sys2Proof/Laws/PerInstr.lean ====
section
/-! SUPPORT. Per instruction, as syntax: how its encoding and the decoder fit together (30_encoding.md R94, R95, R99 to
R102). -/

namespace Sys2Proof.Laws.RowEncoding

/-- A command row is what its word decodes to. A control row has a legal minimum code size, is the row of its value, and is
what its code decodes to under that size whatever the flag and NEXT are. Any other code row that is well-formed is what
its code decodes to in some context. An internal row is decoded from no command word and no code. -/
def Statement (i : Instr) : Prop :=
  match encode i, i.controlSize with
  | .cmd w, none => decodeCmd w = i
  | .code c, some m =>
    frameSize m = true ∧ controlRow c.toNat = some i ∧ ∀ a n, decodeCode ⟨BitVec.ofNat 4 m, a, n⟩ c = .ok i
  | .code c, none => i.wellFormed = true → ∃ x, decodeCode x c = .ok i
  | .internal, none => (∀ w, decodeCmd w ≠ i) ∧ ∀ x c, decodeCode x c ≠ .ok i
  | .cmd _, some _ => False
  | .internal, some _ => False

theorem decodeCmd_kind (w : CmdWord) : ∃ v, encode (decodeCmd w) = .cmd v := by
  unfold decodeCmd
  split <;> exact ⟨_, rfl⟩

theorem endRow_kind {m : Nat} {i : Instr} (h : endRow m = some i) : ∃ c, encode i = .code c := by
  unfold endRow at h
  split at h <;> simp at h <;> subst h <;> exact ⟨_, rfl⟩

theorem clearRow_kind {m : Nat} {i : Instr} (h : clearRow m = some i) : ∃ c, encode i = .code c := by
  unfold clearRow at h
  split at h <;> simp at h <;> subst h <;> exact ⟨_, rfl⟩

/-- The code decoder answers only rows that are codes. -/
theorem decodeCode_kind {x : CodeCtx} {c : Code} {i : Instr} (h : decodeCode x c = .ok i) :
    ∃ d, encode i = .code d := by
  unfold decodeCode at h
  split at h
  · rename_i j hj
    simp only [Except.ok.injEq] at h
    subst h
    obtain ⟨k, _, hk⟩ := Option.bind_eq_some_iff.mp hj
    cases k with
    | endFrame => exact endRow_kind hk
    | clear => exact clearRow_kind hk
    | first => simp only [CodeClass.row, Option.some.injEq] at hk; subst hk; exact ⟨_, rfl⟩
    | invalid => simp only [CodeClass.row, Option.some.injEq] at hk; subst hk; exact ⟨_, rfl⟩
    | known => simp only [CodeClass.row, Option.some.injEq] at hk; subst hk; exact ⟨_, rfl⟩
    | kwkwk => simp only [CodeClass.row, Option.some.injEq] at hk; subst hk; exact ⟨_, rfl⟩
  · simp at h

/-- A row with no bit pattern is decoded from nothing (R102). -/
theorem internal_not_decoded {i : Instr} (h : encode i = .internal) :
    (∀ w, decodeCmd w ≠ i) ∧ ∀ x c, decodeCode x c ≠ .ok i := by
  refine ⟨fun w hw => ?_, fun x c hc => ?_⟩
  · obtain ⟨v, hv⟩ := decodeCmd_kind w
    rw [hw, h] at hv
    simp at hv
  · obtain ⟨d, hd⟩ := decodeCode_kind hc
    rw [h] at hd
    simp at hd

/-- The two fields of a command word are read back (R99). -/
theorem cmdWord_fields (op : BitVec 2) (arg : Byte) :
    (cmdWord op arg).toNat / 256 = op.toNat ∧ (cmdWord op arg).setWidth 8 = arg := by
  have h : (cmdWord op arg).toNat = op.toNat * 256 + arg.toNat := by
    simp only [cmdWord, BitVec.toNat_append]
    rw [← Nat.shiftLeft_add_eq_or_of_lt arg.isLt, Nat.shiftLeft_eq]
  refine ⟨by have := arg.isLt; omega, ?_⟩
  apply BitVec.eq_of_toNat_eq
  rw [BitVec.toNat_setWidth, h]
  have := arg.isLt
  omega

theorem start (m : Byte) : Statement (.start m) := by
  obtain ⟨h1, h2⟩ := cmdWord_fields 0 m
  change decodeCmd (cmdWord 0 m) = .start m
  rw [decodeCmd, h1, h2]
  rfl
theorem push (b : Byte) : Statement (.push b) := by
  obtain ⟨h1, h2⟩ := cmdWord_fields 1 b
  change decodeCmd (cmdWord 1 b) = .push b
  rw [decodeCmd, h1, h2]
  rfl
theorem eos (arg : Byte) : Statement (.eos arg) := by
  obtain ⟨h1, h2⟩ := cmdWord_fields 2 arg
  change decodeCmd (cmdWord 2 arg) = .eos arg
  rw [decodeCmd, h1, h2]
  rfl
theorem rsvd (arg : Byte) : Statement (.rsvd arg) := by
  obtain ⟨h1, h2⟩ := cmdWord_fields 3 arg
  change decodeCmd (cmdWord 3 arg) = .rsvd arg
  rw [decodeCmd, h1, h2]
  rfl

theorem endM1 : Statement .endM1 := ⟨rfl, rfl, fun _ _ => rfl⟩
theorem endM2 : Statement .endM2 := ⟨rfl, rfl, fun _ _ => rfl⟩
theorem endM3 : Statement .endM3 := ⟨rfl, rfl, fun _ _ => rfl⟩
theorem endM4 : Statement .endM4 := ⟨rfl, rfl, fun _ _ => rfl⟩
theorem endM5 : Statement .endM5 := ⟨rfl, rfl, fun _ _ => rfl⟩
theorem endM6 : Statement .endM6 := ⟨rfl, rfl, fun _ _ => rfl⟩
theorem endM7 : Statement .endM7 := ⟨rfl, rfl, fun _ _ => rfl⟩
theorem endM8 : Statement .endM8 := ⟨rfl, rfl, fun _ _ => rfl⟩
theorem clearM1 : Statement .clearM1 := ⟨rfl, rfl, fun _ _ => rfl⟩
theorem clearM2 : Statement .clearM2 := ⟨rfl, rfl, fun _ _ => rfl⟩
theorem clearM3 : Statement .clearM3 := ⟨rfl, rfl, fun _ _ => rfl⟩
theorem clearM4 : Statement .clearM4 := ⟨rfl, rfl, fun _ _ => rfl⟩
theorem clearM5 : Statement .clearM5 := ⟨rfl, rfl, fun _ _ => rfl⟩
theorem clearM6 : Statement .clearM6 := ⟨rfl, rfl, fun _ _ => rfl⟩
theorem clearM7 : Statement .clearM7 := ⟨rfl, rfl, fun _ _ => rfl⟩
theorem clearM8 : Statement .clearM8 := ⟨rfl, rfl, fun _ _ => rfl⟩

theorem first (c : Code) : Statement (.first c) := by
  intro h
  simp only [Instr.wellFormed, decide_eq_true_eq] at h
  refine ⟨⟨8, true, 258⟩, ?_⟩
  have h1 : c.toNat ≠ 257 := by omega
  have h2 : c.toNat ≠ 256 := by omega
  have h3 : c.toNat < 258 := by omega
  simp [decodeCode, classify, frameSize, endCode, clearCode, CodeClass.row, h1, h2, h3]
theorem invalid (c : Code) : Statement (.invalid c) := by
  intro h
  simp only [Instr.wellFormed, decide_eq_true_eq] at h
  refine ⟨⟨1, true, 4⟩, ?_⟩
  have h1 : c.toNat ≠ 3 := by omega
  have h2 : c.toNat ≠ 2 := by omega
  have h3 : ¬ c.toNat < 4 := by omega
  simp [decodeCode, classify, frameSize, endCode, clearCode, CodeClass.row, h1, h2, h3]
theorem known (c : Code) : Statement (.known c) := by
  intro _
  have h3 : c.toNat < 4096 := c.isLt
  by_cases h : c.toNat = 2 ∨ c.toNat = 3
  · refine ⟨⟨2, false, 4096⟩, ?_⟩
    have h1 : c.toNat ≠ 5 := by omega
    have h2 : c.toNat ≠ 4 := by omega
    simp [decodeCode, classify, frameSize, endCode, clearCode, CodeClass.row, h1, h2, h3]
  · refine ⟨⟨1, false, 4096⟩, ?_⟩
    have h1 : c.toNat ≠ 3 := by omega
    have h2 : c.toNat ≠ 2 := by omega
    simp [decodeCode, classify, frameSize, endCode, clearCode, CodeClass.row, h1, h2, h3]
theorem kwkwk (c : Code) : Statement (.kwkwk c) := by
  intro h
  simp only [Instr.wellFormed, decide_eq_true_eq] at h
  refine ⟨⟨1, false, c.setWidth 13⟩, ?_⟩
  have h1 : c.toNat ≠ 3 := by omega
  have h2 : c.toNat ≠ 2 := by omega
  have h3 : c.toNat % 8192 = c.toNat := Nat.mod_eq_of_lt (by have := c.isLt; omega)
  simp [decodeCode, classify, frameSize, endCode, clearCode, CodeClass.row, h1, h2, h3]

theorem shiftIn (b : Byte) : Statement (.shiftIn b) := internal_not_decoded rfl
theorem hasBits (w : BitVec 4) : Statement (.hasBits w) := internal_not_decoded rfl
theorem readCode (w : BitVec 4) : Statement (.readCode w) := internal_not_decoded rfl
theorem readCodeFail (w : BitVec 4) : Statement (.readCodeFail w) := internal_not_decoded rfl
theorem drain : Statement .drain := internal_not_decoded rfl
theorem codeStep : Statement .codeStep := internal_not_decoded rfl
theorem addEntry (p : Code) (s : Byte) : Statement (.addEntry p s) := internal_not_decoded rfl
theorem grow : Statement .grow := internal_not_decoded rfl
theorem expand (c : Code) : Statement (.expand c) := internal_not_decoded rfl
theorem emit (s : List Byte) : Statement (.emit s) := internal_not_decoded rfl
theorem faultEntry (cause : RaisedCause) (info : BitVec 12) : Statement (.faultEntry cause info) :=
  internal_not_decoded rfl
theorem statusRead (a : BitVec 4) : Statement (.statusRead a) := internal_not_decoded rfl

end Sys2Proof.Laws.RowEncoding
end

