-- ==== Sys2Proof/Tests/Slice0.lean ====
section
/-! SUPPORT. The model's own tests: the operand checks, decoding of words written out from the spec, single steps against
the vectors of 95_test_vectors.md, and for every statement with hypotheses a witness that meets them. -/

namespace Sys2Proof.Tests

open Sys2Proof Sys2Proof.Machine

/-! Ill-formed terms are refused, one for each operand check. -/

theorem test_wf_first : (Instr.first 0x100).wellFormed = false ∧ (Instr.first 0x0FF).wellFormed = true := by decide
theorem test_wf_invalid : (Instr.invalid 3).wellFormed = false ∧ (Instr.invalid 4).wellFormed = true := by decide
theorem test_wf_kwkwk : (Instr.kwkwk 3).wellFormed = false ∧ (Instr.kwkwk 4).wellFormed = true := by decide
theorem test_wf_hasBits :
    (Instr.hasBits 0).wellFormed = false ∧ (Instr.hasBits 13).wellFormed = false ∧ (Instr.hasBits 12).wellFormed = true := by
  decide
theorem test_wf_readCode :
    (Instr.readCode 0).wellFormed = false ∧ (Instr.readCode 13).wellFormed = false ∧
      (Instr.readCode 1).wellFormed = true := by decide
theorem test_wf_readCodeFail :
    (Instr.readCodeFail 0).wellFormed = false ∧ (Instr.readCodeFail 13).wellFormed = false ∧
      (Instr.readCodeFail 12).wellFormed = true := by decide

/-! Decoding. Command words are op in bits 9:8 and arg in bits 7:0 (30_encoding.md R99, R100). -/

theorem test_decode_start : decodeCmd 0b00_0000_0010 = .start 2 ∧ decodeCmd 0b00_1111_1111 = .start 0xFF := by decide
theorem test_decode_push : decodeCmd 0b01_1000_1100 = .push 0x8C ∧ decodeCmd 0b01_0101_0010 = .push 0x52 := by decide
theorem test_decode_eos : decodeCmd 0b10_0000_0000 = .eos 0 ∧ decodeCmd 0b10_1111_1111 = .eos 0xFF := by decide
theorem test_decode_rsvd : decodeCmd 0b11_1010_0101 = .rsvd 0xA5 ∧ decodeCmd 0b11_0000_0000 = .rsvd 0 := by decide
theorem test_decode_wide : decodeCmdNat 0x400 = .error .commandTooWide ∧ decodeCmdNat 0x3A5 = .ok (.rsvd 0xA5) := by
  exact ⟨rfl, rfl⟩

/-- The End codes of table R95. -/
theorem test_decode_end :
    [decodeCode ⟨1, false, 7⟩ 0x003, decodeCode ⟨2, true, 6⟩ 0x005, decodeCode ⟨3, true, 10⟩ 0x009,
      decodeCode ⟨4, false, 40⟩ 0x011, decodeCode ⟨5, true, 34⟩ 0x021, decodeCode ⟨6, false, 99⟩ 0x041,
      decodeCode ⟨7, true, 130⟩ 0x081, decodeCode ⟨8, false, 4096⟩ 0x101] =
    [.ok .endM1, .ok .endM2, .ok .endM3, .ok .endM4, .ok .endM5, .ok .endM6, .ok .endM7, .ok .endM8] := rfl

/-- The Clear codes of table R95. -/
theorem test_decode_clear :
    [decodeCode ⟨1, false, 7⟩ 0x002, decodeCode ⟨2, true, 6⟩ 0x004, decodeCode ⟨3, true, 10⟩ 0x008,
      decodeCode ⟨4, false, 40⟩ 0x010, decodeCode ⟨5, true, 34⟩ 0x020, decodeCode ⟨6, false, 99⟩ 0x040,
      decodeCode ⟨7, true, 130⟩ 0x080, decodeCode ⟨8, false, 4096⟩ 0x100] =
    [.ok .clearM1, .ok .clearM2, .ok .clearM3, .ok .clearM4, .ok .clearM5, .ok .clearM6, .ok .clearM7, .ok .clearM8] := rfl

/-- The state-selected classes, in the contexts of vectors K2, K3, K5, K9, K10, K12, K16. -/
theorem test_decode_first : decodeCode ⟨2, true, 6⟩ 1 = .ok (.first 1) ∧ decodeCode ⟨8, true, 258⟩ 0xFF = .ok (.first 0xFF) :=
  ⟨rfl, rfl⟩
theorem test_decode_known : decodeCode ⟨2, false, 6⟩ 2 = .ok (.known 2) ∧ decodeCode ⟨2, false, 4096⟩ 6 = .ok (.known 6) :=
  ⟨rfl, rfl⟩
theorem test_decode_kwkwk :
    decodeCode ⟨2, false, 6⟩ 6 = .ok (.kwkwk 6) ∧ decodeCode ⟨2, false, 4095⟩ 4095 = .ok (.kwkwk 4095) := ⟨rfl, rfl⟩
theorem test_decode_invalid :
    decodeCode ⟨2, false, 6⟩ 7 = .ok (.invalid 7) ∧ decodeCode ⟨2, true, 6⟩ 6 = .ok (.invalid 6) ∧
      decodeCode ⟨2, false, 8⟩ 9 = .ok (.invalid 9) := ⟨rfl, rfl, rfl⟩
theorem test_decode_noFrame : decodeCode ⟨0, true, 6⟩ 1 = .error .noFrame ∧ decodeCode ⟨9, true, 6⟩ 1 = .error .noFrame :=
  ⟨rfl, rfl⟩

/-- The host's table words (log entry 12). -/
theorem test_decode_table :
    decodeTableWord 12 0x005 = some .endM2 ∧ decodeTableWord 10 0x18C = some (.push 0x8C) ∧
      decodeTableWord 16 0x005 = some .endM2 ∧ decodeTableWord 16 0x18C = some (.push 0x8C) ∧
      decodeTableWord 16 0x800 = none := by decide

/-! Small states. -/

/-- The state after `START 2`. -/
def fresh2 : State := startFrame 2 State.reset

/-- Vector K7: M = 2, entries 6 = (1, 1) and 7 = (6, 1). -/
def learned : State :=
  { fresh2 with awaitFirst := false, cw := 4, nextCode := 8, prev := 7, dict := [(6, ⟨1, 1⟩), (7, ⟨6, 1⟩)] }

/-- A reader with these bits. -/
def reader (bb : BitVec 32) (bc : BitVec 6) : State := { State.reset with bb := bb, bc := bc }

/-- A state of vectors K1 to K16: M = 2, RUN. -/
def coded (cw : BitVec 4) (next : BitVec 13) (prev : Code) (await : Bool) (dict : Memory Slot) : State :=
  { fresh2 with cw := cw, nextCode := next, prev := prev, awaitFirst := await, dict := dict }

/-- RUN with minimum code size `m`. -/
def running (m : BitVec 4) : State := { State.reset with st := .run, m := m }

/-- What an instruction leaves in a field. -/
def after {α : Type} (i : Instr) (s : State) (f : State → α) : Option α := (nextOf (exec i s)).map f

/-! Single steps against the spec's vectors. -/

theorem test_start : after (.start 2) State.reset (fun t => (t.st, t.m, t.cw, t.nextCode, t.awaitFirst)) =
    some (.run, 2, 3, 6, true) := by decide
/-- CS6 -/
theorem test_start_illegal : after (.start 9) fresh2 (fun t => (t.st, t.cause, t.finfo, t.m)) =
    some (.fault, .badMinCodeSize, 9, 0) := by decide
/-- V1, second row -/
theorem test_push : after (.push 0x8C) fresh2 (fun t => (t.st, t.bb, t.bc, t.prev, t.out)) =
    some (.run, 2, 2, 1, [1]) := by decide
/-- V3, third row -/
theorem test_push_to_done :
    after (.push 0x01) { fresh2 with bb := 1, bc := 2, awaitFirst := false, out := [0] }
      (fun t => (t.st, t.cw, t.bc, t.out)) = some (.done, 3, 7, [0]) := by decide
/-- CS13, last command -/
theorem test_eos : after (.eos 0) { fresh2 with bb := 2, bc := 2 } (fun t => (t.st, t.cause, t.finfo, t.bc)) =
    some (.fault, .truncatedLzwStream, 2, 2) := by decide
/-- CS1 -/
theorem test_eos_idle : after (.eos 0) State.reset (fun t => (t.cause, t.finfo, statusWord t)) =
    some (.badCommand, 0x200, 0x53) := by decide
/-- CS3 -/
theorem test_rsvd : after (.rsvd 0xA5) State.reset (fun t => (t.cause, t.finfo)) = some (.badCommand, 0x3A5) := by decide

theorem test_end_rows :
    [after .endM1 (running 1) State.st, after .endM2 (running 2) State.st, after .endM3 (running 3) State.st,
      after .endM4 (running 4) State.st, after .endM5 (running 5) State.st, after .endM6 (running 6) State.st,
      after .endM7 (running 7) State.st, after .endM8 (running 8) State.st] = List.replicate 8 (some .done) := by decide
/-- NEXT and CW are 2^M + 2 and M + 1 (table R95). -/
theorem test_clear_rows :
    [after .clearM1 (running 1) State.nextCode, after .clearM2 (running 2) State.nextCode,
      after .clearM3 (running 3) State.nextCode, after .clearM4 (running 4) State.nextCode,
      after .clearM5 (running 5) State.nextCode, after .clearM6 (running 6) State.nextCode,
      after .clearM7 (running 7) State.nextCode, after .clearM8 (running 8) State.nextCode] =
    [some 4, some 6, some 10, some 18, some 34, some 66, some 130, some 258] := by decide
/-- K14 -/
theorem test_clear_full : after .clearM2 (coded 12 4096 700 false []) (fun t => (t.cw, t.nextCode, t.prev, t.awaitFirst)) =
    some (3, 6, 0, true) := by decide

/-- K2 -/
theorem test_first : after (.first 1) fresh2 (fun t => (t.out, t.prev, t.awaitFirst, t.nextCode, t.cw)) =
    some ([1], 1, false, 6, 3) := by decide
/-- K9 -/
theorem test_invalid : after (.invalid 7) (coded 3 6 1 false []) (fun t => (t.st, t.cause, t.finfo, t.prev)) =
    some (.fault, .invalidLzwCode, 7, 1) := by decide
/-- K10 -/
theorem test_invalid_first : after (.invalid 6) fresh2 (fun t => (t.cause, t.finfo, t.awaitFirst)) =
    some (.invalidLzwCode, 6, true) := by decide
/-- K4: GROW fires. -/
theorem test_known_grow :
    after (.known 1) (coded 3 7 2 false [(6, ⟨1, 2⟩)]) (fun t => (t.out, t.cw, t.nextCode, t.dict)) =
      some ([1], 4, 8, [(6, ⟨1, 2⟩), (7, ⟨2, 1⟩)]) := by decide
/-- K15: the table is full. -/
theorem test_known_full : after (.known 6) (coded 12 4096 6 false [(6, ⟨0, 0⟩)]) (fun t => (t.out, t.cw, t.nextCode, t.dict)) =
    some ([0, 0], 12, 4096, [(6, ⟨0, 0⟩)]) := by decide
/-- K6 -/
theorem test_kwkwk :
    after (.kwkwk 7) (coded 3 7 6 false [(6, ⟨1, 1⟩)]) (fun t => (t.out, t.cw, t.nextCode, t.dict)) =
      some ([1, 1, 1], 4, 8, [(6, ⟨1, 1⟩), (7, ⟨6, 1⟩)]) := by decide
/-- K16: the last slot. -/
theorem test_kwkwk_last : after (.kwkwk 4095) (coded 12 4095 4094 false [(4094, ⟨3, 2⟩)])
    (fun t => (t.out, t.cw, t.nextCode, t.dict)) =
      some ([3, 2, 3], 12, 4096, [(4094, ⟨3, 2⟩), (4095, ⟨4094, 3⟩)]) := by decide

/-- B8 -/
theorem test_shiftIn : after (.shiftIn 0xA1) (reader 0x5 3) (fun t => (t.bb, t.bc)) = some (0x50D, 11) := by decide
/-- B12 -/
theorem test_shiftIn_most : after (.shiftIn 0x12) (reader 0x7FD 11) (fun t => (t.bb, t.bc)) = some (0x97FD, 19) := by decide
/-- B11 -/
theorem test_hasBits : after (.hasBits 12) (reader 0x7FD 11) State.ret = some (.flag false) ∧
    after (.hasBits 11) (reader 0x7FD 11) State.ret = some (.flag true) := by decide
/-- B13 -/
theorem test_readCode : after (.readCode 12) (reader 0x97FD 19) (fun t => (t.ret, t.bb, t.bc)) =
    some (.code 0x7FD, 0x9, 7) := by decide
/-- B5 -/
theorem test_readCode_short : after (.readCode 3) (reader 0x2 2) (fun t => (t.ret, t.bb, t.bc)) =
    some (.insufficientBits, 0x2, 2) := by decide
/-- B5, as the row of its own -/
theorem test_readCodeFail : after (.readCodeFail 3) (reader 0x2 2) (fun t => (t.ret, t.bb, t.bc)) =
    some (.insufficientBits, 0x2, 2) := by decide
/-- V1: after `SHIFT_IN 8C`, the drain runs CLEAR and FIRST(1). -/
theorem test_drain : after .drain { fresh2 with bb := 0x8C, bc := 8 } (fun t => (t.bb, t.bc, t.out, t.ncodes)) =
    some (0x2, 2, [1], 2) := by decide
/-- V1, the first code step: CLEAR. -/
theorem test_codeStep : after .codeStep { fresh2 with bb := 0x8C, bc := 8 } (fun t => (t.bb, t.bc, t.out, t.ncodes)) =
    some (0x11, 5, [], 1) := by decide
/-- K3, the dictionary write -/
theorem test_addEntry : after (.addEntry 1 2) (coded 3 6 1 false []) (fun t => (t.dict, t.nextCode)) =
    some ([(6, ⟨1, 2⟩)], 7) := by decide
theorem test_addEntry_full : after (.addEntry 1 2) (coded 12 4096 1 false []) (fun t => (t.dict, t.nextCode)) =
    some ([], 4096) := by decide
/-- K4 and K15 -/
theorem test_grow : after .grow (coded 3 8 1 false []) State.cw = some 4 ∧
    after .grow (coded 12 4096 6 false []) State.cw = some 12 := by decide
/-- Section 2.4, with the dictionary of S-KW: EXPAND(8). -/
theorem test_expand : after (.expand 8) (coded 4 9 8 false [(6, ⟨1, 1⟩), (7, ⟨6, 1⟩), (8, ⟨7, 1⟩)])
    (fun t => (t.out, t.sp, t.ret)) = some ([1, 1, 1, 1], 0, .symbol 1) := by decide
/-- Section 2.4: SEQ(4), SEQ(5) and SEQ(9) are not defined. -/
theorem test_expand_dead : nextOf (exec (.expand 4) learned) = none ∧ nextOf (exec (.expand 5) learned) = none ∧
    nextOf (exec (.expand 9) learned) = none := by decide
theorem test_emit : after (.emit [7, 8]) { fresh2 with out := [9] } State.out = some [9, 7, 8] := by decide
theorem test_faultEntry : after (.faultEntry .truncatedLzwStream 2) fresh2 (fun t => (t.st, t.cause, t.finfo, t.m)) =
    some (.fault, .truncatedLzwStream, 2, 2) := by decide
/-- P1: STATUS = 0x02 at the end; CS7: STATUS = 0x57. -/
theorem test_statusRead : after (.statusRead 0) { fresh2 with st := .done, awaitFirst := false } State.srData = some 0x02 ∧
    after (.statusRead 0) { fresh2 with st := .fault, cause := .badCommand } State.srData = some 0x57 := by decide
/-- P1: CLEARC = 4 and ENDC = 5. -/
theorem test_statusRead_codes : after (.statusRead 8) fresh2 State.srData = some 4 ∧
    after (.statusRead 9) fresh2 State.srData = some 5 := by decide

/-- A word placed for the next step runs as the first instruction after reset. -/
theorem test_withFetchWord :
    step (State.reset.withFetchWord 12 0x004) =
      exec .clearM2 { State.reset with st := .run, m := 2, cw := 3, ncodes := 1 } ∧
    step (State.reset.withFetchWord 10 0x002) = exec (.start 2) State.reset := ⟨rfl, rfl⟩

/-- V1 and P2: the packed bytes. -/
theorem test_pack :
    pack 2 [⟨.clr, some 3⟩, ⟨.data 1, some 3⟩, ⟨.data 2, some 3⟩, ⟨.data 1, none⟩, ⟨.endOfFrame, some 4⟩] =
      some [0x8C, 0x52] := by decide

/-- V3: the feed of the image data of the 1×1 file. -/
theorem test_feed :
    feedImage [0x02, 0x02, 0x44, 0x01, 0x00, 0x3B] =
      ⟨[.cmd 0x002, .cmd 0x144, .cmd 0x101, .cmd 0x200], .endOfStream, [0x3B]⟩ := by decide
theorem test_feed_cut : (feedImage [0x02, 0x02, 0x44]).ending = .unexpectedEof := by decide

/-- What the host's work on an image block ends with, and how many commands it issued. -/
def hostEnd (buf : List Byte) : Option (FeedEnd × Nat) :=
  match decodeImage buf State.reset with
  | .next r => some (r.ending, r.issued.length)
  | .fault _ => none
  | .refused _ => none

/-- R209: a bad code (CS9: `CLR #7`), then a cut buffer: the host stops at the fault, with no later PUSH. -/
theorem test_host_stops_at_invalid : hostEnd [0x02, 0x01, 0x3C, 0x01, 0xFF, 0x05] = some (.blockFault .invalidLzwCode, 2) := by
  decide
/-- R209 with CS13: the terminator comes before the End code; and the buffer ends before the terminator: no EOS. -/
theorem test_host_truncated :
    hostEnd [0x02, 0x01, 0x8C, 0x00] = some (.blockFault .truncatedLzwStream, 3) ∧
      hostEnd [0x02, 0x01, 0x8C] = some (.unexpectedEof, 2) := by decide
/-- V3, and an illegal START (CS6). -/
theorem test_host_ends :
    hostEnd [0x02, 0x02, 0x44, 0x01, 0x00] = some (.endOfStream, 4) ∧
      hostEnd [0x09, 0x01, 0x8C, 0x00] = some (.blockFault .badMinCodeSize, 1) := by decide

/-! Good states. -/

theorem inv_of_reset : State.reset.Inv :=
  ⟨⟨by decide, by decide, by decide, by decide, by decide, by decide, by decide, by decide, by decide, by decide,
    by decide, by decide, by decide, by decide⟩, by decide⟩

theorem inv_of_fresh2 : fresh2.Inv :=
  ⟨⟨by decide, by decide, by decide, by decide, by decide, by decide, by decide, by decide, by decide, by decide,
    by decide, by decide, by decide, by decide⟩, by decide⟩

theorem inv_of_learned : learned.Inv :=
  ⟨⟨by decide, by decide, by decide, by decide, by decide, by decide, by decide, by decide, by decide, by decide,
    by decide, by decide, by decide, by decide⟩, by decide⟩

/-! Witnesses: for each statement with hypotheses, data that meet them, clause by clause. -/

theorem witness_FrameConstantsOfEveryM : (running 1).m.toNat = 1 ∧ (running 8).m.toNat = 8 := by decide

theorem witness_DecodeAndEncodeAgree :
    encode (.push 0x8C) = .cmd 0x18C ∧ rowCondition .endM2 ⟨2, true, 6⟩ 5 ∧ rowCondition .clearM8 ⟨8, false, 300⟩ 256 ∧
      rowCondition (.first 1) ⟨2, true, 6⟩ 1 ∧ rowCondition (.invalid 7) ⟨2, false, 6⟩ 7 ∧
      rowCondition (.invalid 6) ⟨2, true, 6⟩ 6 ∧ rowCondition (.known 6) ⟨2, false, 7⟩ 6 ∧
      rowCondition (.kwkwk 7) ⟨2, false, 7⟩ 7 ∧ decodeCode ⟨2, false, 7⟩ 7 = .ok (.kwkwk 7) := by
  refine ⟨rfl, ?_, ?_, ?_, ?_, ?_, ?_, ?_, rfl⟩ <;> simp [rowCondition, frameSize, endCode, clearCode]

theorem witness_EveryCodeHasExactlyOneRow : frameSize (1 : BitVec 4).toNat = true ∧ frameSize (8 : BitVec 4).toNat = true := by
  decide

theorem witness_StepRunsTheDecodedCommand :
    { fresh2 with input := [.cmd 0x18C] }.input = .cmd 0x18C :: [] ∧
      codePending { fresh2 with input := [.cmd 0x18C] } = false := by decide

/-- Code 4 of width 3 is buffered: CLEAR.m2. -/
def buffered : State := { fresh2 with bb := 0x8C, bc := 8 }

theorem witness_StepRunsTheDecodedCode :
    buffered.st = .run ∧ 1 ≤ buffered.cw.toNat ∧ buffered.cw.toNat ≤ 12 ∧ buffered.cw.toNat ≤ buffered.bc.toNat ∧
      buffered.input.head? ≠ some .rst ∧
      decodeCode (codeCtx buffered) (BitVec.ofNat 12 (buffered.bb.toNat % 2 ^ buffered.cw.toNat)) = .ok .clearM2 :=
  ⟨by decide, by decide, by decide, by decide, by decide, rfl⟩

/-- The widest code, with no bit to spare. -/
theorem witness_StepRunsTheDecodedCode_widest :
    ({ coded 12 4096 6 false [] with bb := 0x006, bc := 12 } : State).cw.toNat = 12 ∧
      decodeCode (codeCtx { coded 12 4096 6 false [] with bb := 0x006, bc := 12 }) 0x006 = .ok (.known 6) :=
  ⟨by decide, rfl⟩

theorem witness_StepTakesReadsResetsAndIdles :
    codePending { fresh2 with input := [.statusRead 3] } = false ∧
      { buffered with input := [.rst] }.input = .rst :: [] ∧ State.reset.input = [] ∧ codePending State.reset = false := by
  decide

theorem witness_BufferedCodeStepIsCodeStep : codePending buffered = true ∧ buffered.input.head? ≠ some .rst := by decide

theorem witness_HardwareResetLeaves : { learned with input := [.rst, .cmd 2] }.input = .rst :: [.cmd 2] := by decide

theorem witness_ShiftInAppendsTheByte : (reader 0xFFFFFF 24).bc.toNat ≤ 24 ∧ (reader 0 0).bc.toNat ≤ 24 := by decide

theorem witness_HasBitsComparesTheCount :
    1 ≤ (1 : BitVec 4).toNat ∧ (1 : BitVec 4).toNat ≤ 12 ∧ 1 ≤ (12 : BitVec 4).toNat ∧ (12 : BitVec 4).toNat ≤ 12 := by decide

/-- B14 (exact emptying) and B13. -/
theorem witness_ReadCodeTakesTheLowBits :
    (1 ≤ (2 : BitVec 4).toNat ∧ (2 : BitVec 4).toNat ≤ 12 ∧ (2 : BitVec 4).toNat ≤ (reader 3 2).bc.toNat) ∧
      (12 : BitVec 4).toNat ≤ 12 ∧ (12 : BitVec 4).toNat ≤ (reader 0x97FD 19).bc.toNat := by decide

/-- B5, and one bit short of the widest code. -/
theorem witness_ReadCodeFailureChangesNothing :
    (1 ≤ (3 : BitVec 4).toNat ∧ (3 : BitVec 4).toNat ≤ 12 ∧ (reader 2 2).bc.toNat < (3 : BitVec 4).toNat) ∧
      (reader 0x7FD 11).bc.toNat < (12 : BitVec 4).toNat := by decide

theorem witness_ReaderStopsOutsideItsDomain :
    ((0 : BitVec 4).toNat = 0 ∨ 12 < (0 : BitVec 4).toNat) ∧ ((13 : BitVec 4).toNat = 0 ∨ 12 < (13 : BitVec 4).toNat) ∧
      24 < (reader 0 25).bc.toNat ∧ (2 : BitVec 4).toNat ≤ (reader 3 2).bc.toNat := by decide

/-- B8 and B9. -/
theorem witness_ReaderIsAQueueOfBits :
    (reader 0x5 3).bb.toNat < 2 ^ (reader 0x5 3).bc.toNat ∧ (reader 0x5 3).bc.toNat ≤ 24 ∧
      (reader 0x50D 11).bb.toNat < 2 ^ (reader 0x50D 11).bc.toNat ∧
      (readBits 3 (reader 0x50D 11)).map Prod.fst = some 5 := by decide

/-- The second clause: the End code of M = 2 is fetched. -/
theorem witness_EndCodeFinishesTheFrame :
    (running 1).st = .run ∧ (running 1).m.toNat = 1 ∧ (running 8).st = .run ∧ (running 8).m.toNat = 8 ∧
      ∃ t, fetchCode { fresh2 with bb := 5, bc := 3 } = .next (5, t) ∧ frameSize t.m.toNat = true ∧
        (5 : Code).toNat = endc t :=
  ⟨by decide, by decide, by decide, by decide, _, rfl, by decide, by decide⟩

theorem witness_ClearCodeResetsTheDecompressor :
    (running 1).st = .run ∧ (running 1).m.toNat = 1 ∧ (running 8).st = .run ∧ (running 8).m.toNat = 8 ∧
      ∃ t, fetchCode buffered = .next (4, t) ∧ frameSize t.m.toNat = true ∧ (4 : Code).toNat = clearc t :=
  ⟨by decide, by decide, by decide, by decide, _, rfl, by decide, by decide⟩

theorem witness_FirstCodeEmitsItsLiteral :
    fresh2.st = .run ∧ rowCondition (.first 0) (codeCtx fresh2) 0 ∧ rowCondition (.first 3) (codeCtx fresh2) 3 := by
  refine ⟨rfl, ?_, ?_⟩ <;> simp [rowCondition, codeCtx, fresh2, frameSize, endCode, clearCode]

theorem witness_KnownCodeEmitsAndLearns :
    learned.st = .run ∧ rowCondition (.known 7) (codeCtx learned) 7 ∧ seqOf learned 7 = some [1, 1, 1] :=
  ⟨rfl, by simp [rowCondition, codeCtx, learned, fresh2, frameSize, endCode, clearCode], by decide⟩

theorem witness_KwkwkCodeEmitsAndLearns :
    learned.st = .run ∧ rowCondition (.kwkwk 8) (codeCtx learned) 8 ∧ seqOf learned learned.prev = some [1, 1, 1] :=
  ⟨rfl, by simp [rowCondition, codeCtx, learned, fresh2, frameSize, endCode, clearCode], by decide⟩

/-- At the table's end: KNOWN with NEXT = 4096 (K15) and KWKWK at slot 4095 (K16). -/
theorem witness_KnownCodeEmitsAndLearns_full :
    rowCondition (.known 6) (codeCtx (coded 12 4096 6 false [(6, ⟨0, 0⟩)])) 6 ∧
      seqOf (coded 12 4096 6 false [(6, ⟨0, 0⟩)]) 6 = some [0, 0] :=
  ⟨by simp [rowCondition, codeCtx, coded, fresh2, frameSize, endCode, clearCode], by decide⟩

theorem witness_KwkwkCodeEmitsAndLearns_last :
    rowCondition (.kwkwk 4095) (codeCtx (coded 12 4095 4094 false [(4094, ⟨3, 2⟩)])) 4095 ∧
      seqOf (coded 12 4095 4094 false [(4094, ⟨3, 2⟩)]) 4094 = some [3, 2] :=
  ⟨by simp [rowCondition, codeCtx, coded, fresh2, frameSize, endCode, clearCode], by decide⟩

/-- Both halves of the condition at their boundary: NEXT with AWAIT = 1, NEXT + 1 with AWAIT = 0; then a fetched code. -/
theorem witness_InvalidCodeFaults :
    fresh2.st = .run ∧ rowCondition (.invalid 6) (codeCtx fresh2) 6 ∧ learned.st = .run ∧
      rowCondition (.invalid 9) (codeCtx learned) 9 ∧
      ∃ t, fetchCode { fresh2 with bb := 6, bc := 3 } = .next (6, t) ∧ rowCondition (.invalid 6) (codeCtx t) 6 := by
  refine ⟨rfl, ?_, rfl, ?_, _, rfl, ?_⟩ <;>
    simp [rowCondition, codeCtx, learned, fresh2, frameSize, endCode, clearCode]

/-- The code is of another class, and the row outside RUN. -/
theorem witness_RowsStopWhereNotSelected :
    encode (.known 6) = .code 6 ∧ (fresh2.st = .run → ¬ rowCondition (.known 6) (codeCtx fresh2) 6) ∧
      encode .endM3 = .code 9 ∧ (State.reset.st = .run → ¬ rowCondition .endM3 (codeCtx State.reset) 9) := by
  refine ⟨rfl, fun _ => ?_, rfl, fun h => ?_⟩
  · simp [rowCondition, codeCtx, fresh2]
  · simp [State.reset] at h

theorem witness_CodeStepRunsTheTestsInOrder :
    ∃ t, fetchCode buffered = .next (4, t) ∧ frameSize t.m.toNat = true := ⟨_, rfl, by decide⟩

theorem witness_AddEntryWritesSlotNext :
    (coded 12 4095 6 false []).nextCode.toNat < 4096 ∧ 4096 ≤ (coded 12 4096 6 false []).nextCode.toNat := by decide

/-- One step of each data class. -/
theorem witness_PrevStandsForTheEmittedSequence :
    fresh2.FrameInv ∧ fresh2.st = .run ∧ rowCondition (.first 1) (codeCtx fresh2) 1 ∧
      ∃ t, runCode 1 fresh2 = .next t ∧ t.out = fresh2.out ++ [1] :=
  ⟨inv_of_fresh2.frame, rfl, by simp [rowCondition, codeCtx, fresh2, frameSize, endCode, clearCode], _, rfl, rfl⟩

theorem witness_PrevStandsForTheEmittedSequence_known :
    learned.FrameInv ∧ learned.st = .run ∧ rowCondition (.known 2) (codeCtx learned) 2 ∧
      ((nextOf (runCode 2 learned)).map State.out = some [2]) :=
  ⟨inv_of_learned.frame, rfl, by simp [rowCondition, codeCtx, learned, fresh2, frameSize, endCode, clearCode], by decide⟩

theorem witness_PrevStandsForTheEmittedSequence_kwkwk :
    learned.FrameInv ∧ learned.st = .run ∧ rowCondition (.kwkwk 8) (codeCtx learned) 8 ∧
      ((nextOf (runCode 8 learned)).map State.out = some [1, 1, 1, 1]) :=
  ⟨inv_of_learned.frame, rfl, by simp [rowCondition, codeCtx, learned, fresh2, frameSize, endCode, clearCode], by decide⟩

theorem witness_ExpandEmitsTheSequence :
    (frameSize learned.m.toNat = true ∧ seqOf learned 7 = some [1, 1, 1]) ∧ frameSize State.reset.m.toNat = false ∧
      seqOf learned 8 = none := by decide

theorem witness_FirstSymbolAndLengthOfASequence :
    (seqOf learned 3 = some [3] ∧ (3 : Code).toNat < clearc learned) ∧
      seqOf learned 7 = some [1, 1, 1] ∧ ¬ (7 : Code).toNat < clearc learned ∧
      Memory.read learned.dict (7 : Code).toNat = some ⟨6, 1⟩ ∧ lenOf learned 6 = some 2 := by decide

theorem witness_SequencesAreBounded :
    learned.FrameInv ∧ learned.m.toNat ≠ 0 ∧ hasEntry learned (7 : Code).toNat = true ∧ endc learned < (7 : Code).toNat ∧
      hasEntry learned (0 : Code).toNat = true :=
  ⟨inv_of_learned.frame, by decide, by decide, by decide, by decide⟩

theorem witness_OutOnlyGrows : ∃ t, step { fresh2 with input := [.cmd 0x18C] } = .next t ∧ t.out = [1] := ⟨_, rfl, rfl⟩

theorem witness_FaultIsLeftOnlyByStartOrReset :
    ∃ t, step { fresh2 with st := .fault, cause := .badCommand, input := [.cmd 0x18C] } = .next t ∧ t.st = .fault :=
  ⟨_, rfl, rfl⟩

theorem witness_StartMakesAFreshFrame :
    1 ≤ (1 : Byte).toNat ∧ (1 : Byte).toNat ≤ 8 ∧ 1 ≤ (8 : Byte).toNat ∧ (8 : Byte).toNat ≤ 8 := by decide

theorem witness_IllegalStartFaults :
    ((0 : Byte).toNat = 0 ∨ 9 ≤ (0 : Byte).toNat) ∧ ((9 : Byte).toNat = 0 ∨ 9 ≤ (9 : Byte).toNat) ∧
      ((255 : Byte).toNat = 0 ∨ 9 ≤ (255 : Byte).toNat) := by decide

theorem witness_PushInRunShiftsAndDrains : fresh2.Inv ∧ fresh2.st = .run ∧ learned.Inv ∧ learned.st = .run :=
  ⟨inv_of_fresh2, rfl, inv_of_learned, rfl⟩

/-- A state of each ST. -/
def doneState : State := { learned with st := .done }
def faultState : State := { learned with st := .fault, cause := .badCommand, finfo := 0x3A5 }

theorem inv_of_doneState : doneState.Inv :=
  ⟨⟨by decide, by decide, by decide, by decide, by decide, by decide, by decide, by decide, by decide, by decide,
    by decide, by decide, by decide, by decide⟩, by decide⟩

theorem inv_of_faultState : faultState.Inv :=
  ⟨⟨by decide, by decide, by decide, by decide, by decide, by decide, by decide, by decide, by decide, by decide,
    by decide, by decide, by decide, by decide⟩, by decide⟩

theorem witness_PushOutsideRun : doneState.st = .done ∧ faultState.st = .fault ∧ State.reset.st = .idle := by decide

theorem witness_EosInEveryState :
    fresh2.st = .run ∧ doneState.st = .done ∧ faultState.st = .fault ∧ State.reset.st = .idle := by decide

theorem witness_ReservedCommandInEveryState : fresh2.st ≠ .fault ∧ faultState.st = .fault := by decide

theorem witness_CommandTable :
    State.reset.Inv ∧ State.reset.st = .idle ∧ fresh2.Inv ∧ fresh2.st = .run ∧ doneState.Inv ∧ doneState.st = .done ∧
      faultState.Inv ∧ faultState.st = .fault :=
  ⟨inv_of_reset, rfl, inv_of_fresh2, rfl, inv_of_doneState, rfl, inv_of_faultState, rfl⟩

theorem witness_DrainIsTheLoop :
    buffered.st = .run ∧ widthOk buffered.cw.toNat = true ∧ State.reset.st ≠ .run ∧
      (nextOf (exec .drain buffered)).isSome = true := by decide

theorem frameInv_of_buffered : buffered.FrameInv :=
  ⟨by decide, by decide, by decide, by decide, by decide, by decide, by decide, by decide, by decide, by decide,
    by decide, by decide, by decide, by decide⟩

theorem witness_DrainCompletes :
    buffered.FrameInv ∧ fresh2.Inv ∧ fresh2.st = .run ∧ ∃ t, exec (.push 0x8C) fresh2 = .next t ∧ t.ncodes = 2 :=
  ⟨frameInv_of_buffered, inv_of_fresh2, rfl, _, rfl, rfl⟩

theorem witness_StatusReadShowsTheRegister :
    cmdReady fresh2 = true ∧ (1 ≤ fresh2.m.toNat ∧ fresh2.m.toNat ≤ 8) ∧ 0xA ≤ (0xA : BitVec 4).toNat ∧
      0xA ≤ (0xF : BitVec 4).toNat := by decide

theorem witness_StatusReadDuringACommand : cmdReady buffered = false := by decide

theorem witness_CodeStepKeepsTheFrameInvariant :
    buffered.FrameInv ∧ buffered.st = .run ∧ buffered.cw.toNat ≤ buffered.bc.toNat :=
  ⟨frameInv_of_buffered, rfl, by decide⟩

/-- A good state with a command to come. -/
theorem inv_of_input : ({ fresh2 with input := [.cmd 0x18C] } : State).Inv :=
  ⟨⟨by decide, by decide, by decide, by decide, by decide, by decide, by decide, by decide, by decide, by decide,
    by decide, by decide, by decide, by decide⟩, by decide⟩

theorem witness_StepKeepsTheInvariant :
    ({ fresh2 with input := [.cmd 0x18C] } : State).Inv ∧
      ∃ t, step { fresh2 with input := [.cmd 0x18C] } = .next t ∧ t.out = [1] := ⟨inv_of_input, _, rfl, rfl⟩

theorem witness_CodeStepFollowsTheBookkeeping :
    buffered.FrameInv ∧ buffered.st = .run ∧ buffered.cw.toNat ≤ buffered.bc.toNat :=
  ⟨frameInv_of_buffered, rfl, by decide⟩

theorem witness_HostStopsAtTheFirstFault : State.reset.Inv := inv_of_reset

theorem witness_StepAlwaysAnswers : ({ fresh2 with input := [.cmd 0x18C] } : State).Inv := inv_of_input

theorem symbolsBelow_of_fresh2 : ({ fresh2 with input := [.cmd 0x18C] } : State).SymbolsBelow :=
  ⟨by decide, fun _ _ _ h => by simp [fresh2, State.reset, Memory.read] at h⟩

theorem witness_SymbolsStayBelowClearc :
    ({ fresh2 with input := [.cmd 0x18C] } : State).Inv ∧ ({ fresh2 with input := [.cmd 0x18C] } : State).SymbolsBelow ∧
      ∃ t, step { fresh2 with input := [.cmd 0x18C] } = .next t ∧ t.out = [1] :=
  ⟨inv_of_input, symbolsBelow_of_fresh2, _, rfl, rfl⟩

/-- A stored symbol below 2^M. -/
theorem symbolsBelow_of_learned : learned.SymbolsBelow := by
  refine ⟨by decide, fun k slot hl h => ?_⟩
  simp only [learned, Memory.read] at h
  split at h
  · simp only [Option.some.injEq] at h; subst h; decide
  · split at h
    · simp only [Option.some.injEq] at h; subst h; decide
    · simp at h

theorem witness_OneEntryPerDataCode :
    (fresh2.FrameInv ∧ fresh2.st = .run ∧ classify (codeCtx fresh2) 4 = some .clear ∧
        classify (codeCtx fresh2) 5 = some .endFrame ∧ classify (codeCtx fresh2) 1 = some .first ∧
        classify (codeCtx fresh2) 6 = some .invalid) ∧
      learned.FrameInv ∧ classify (codeCtx learned) 7 = some .known ∧ classify (codeCtx learned) 8 = some .kwkwk ∧
      (nextOf (runCode 4 fresh2)).isSome = true ∧ (nextOf (runCode 8 learned)).isSome = true :=
  ⟨⟨inv_of_fresh2.frame, rfl, rfl, rfl, rfl, rfl⟩, inv_of_learned.frame, rfl, rfl, by decide, by decide⟩

/-- learned with a stale slot above NEXT, a dead stack cell and another returned value. -/
def stale : State := { learned with dict := [(6, ⟨1, 1⟩), (7, ⟨6, 1⟩), (9, ⟨8, 3⟩)], stk := [(0, 5)], ret := .flag true }

theorem inv_of_stale : stale.Inv :=
  ⟨⟨by decide, by decide, by decide, by decide, by decide, by decide, by decide, by decide, by decide, by decide,
    by decide, by decide, by decide, by decide⟩, by decide⟩

theorem witness_StaleContentIsInvisible : learned.Inv ∧ stale.Inv ∧ SameFrame learned stale ∧ ∃ t, step learned = .next t := by
  refine ⟨inv_of_learned, inv_of_stale, ?_, _, rfl⟩
  refine ⟨rfl, rfl, rfl, rfl, rfl, rfl, rfl, rfl, rfl, rfl, rfl, rfl, rfl, rfl, fun k hk => ?_⟩
  have h9 : ¬ 9 = k := by
    rintro rfl
    exact absurd hk (by decide)
  simp only [learned, stale, Memory.read]
  simp [h9]

/-- A status read in both states. -/
theorem witness_StaleContentIsInvisible_read :
    ({ learned with input := [.statusRead 4] } : State).input = .statusRead 4 :: [] ∧
      ∃ t, step { learned with input := [.statusRead 4] } = .next t ∧ t.srData = 8 := ⟨rfl, _, rfl, by decide⟩

theorem witness_StartForgetsEarlierFrames : learned.input = faultState.input := by decide

theorem inv_of_restart : ({ faultState with input := [.cmd 0x002, .cmd 0x18C] } : State).Inv :=
  ⟨⟨by decide, by decide, by decide, by decide, by decide, by decide, by decide, by decide, by decide, by decide,
    by decide, by decide, by decide, by decide⟩, by decide⟩

theorem witness_FramesAreIndependentOfHistory :
    ({ faultState with input := [.cmd 0x002, .cmd 0x18C] } : State).Inv ∧ frameSize (2 : Byte).toNat = true ∧
      ({ faultState with input := [.cmd 0x002, .cmd 0x18C] } : State).input = .cmd (cmdWord 0 2) :: [.cmd 0x18C] ∧
      ∃ t : State, core.run 2 ({ faultState with input := [.cmd 0x002, .cmd 0x18C] } : State) = .next t :=
  ⟨inv_of_restart, by decide, by decide, _, rfl⟩

/-- The last of two steps takes a status read. -/
theorem witness_FramesAreIndependentOfHistory_read :
    ∃ u : State, core.run 1 ({ faultState with input := [.cmd 0x002, .statusRead 3] } : State) = .next u ∧
      u.input = [.statusRead 3] := ⟨_, rfl, rfl⟩

/-- An abstract state for a frame of M = 1 that has emitted the symbol 1. -/
def abs1 : AbsState :=
  { st := .run, cause := .none, finfo := 0, m := 1, cw := 2, next := 4, awaitFirst := false
    entries := [(0, [0]), (1, [1])], last := [1], queue := [true], out := [1] }

def conc1 : State :=
  { State.reset with
    st := .run, m := 1, cw := 2, nextCode := 4, prev := 1, bb := 1, bc := 1, out := [1] }

theorem inv_of_conc1 : conc1.Inv :=
  ⟨⟨by decide, by decide, by decide, by decide, by decide, by decide, by decide, by decide, by decide, by decide,
    by decide, by decide, by decide, by decide⟩, by decide⟩

theorem standsFor_of_conc1 : StandsFor conc1 abs1 := by
  refine ⟨rfl, rfl, rfl, rfl, rfl, rfl, rfl, by decide, rfl, fun _ c hc => ?_, fun _ _ => by decide⟩
  have hlt : c.toNat < 2 := by
    simp only [hasEntry, liveSlot, Bool.or_eq_true, Bool.and_eq_true, decide_eq_true_eq] at hc
    have h1 : clearc conc1 = 2 := rfl
    have h2 : endc conc1 = 3 := rfl
    have h3 : conc1.nextCode.toNat = 4 := rfl
    omega
  have h : c = 0 ∨ c = 1 := by
    rcases (by omega : c.toNat = 0 ∨ c.toNat = 1) with h | h
    · exact .inl (BitVec.eq_of_toNat_eq h)
    · exact .inr (BitVec.eq_of_toNat_eq h)
  rcases h with rfl | rfl <;> decide

theorem witness_BlockRefinesTheAbstractForm : conc1.Inv ∧ StandsFor conc1 abs1 := ⟨inv_of_conc1, standsFor_of_conc1⟩

theorem witness_LazyScheduleAgrees :
    abs1.st = .run ∧ abs1.queue.length < abs1.cw ∧ (absEager [0x44, 0x03] abs1).isSome = true := by decide

/-- The second clause: the block against the lazy schedule. -/
theorem witness_LazyScheduleAgrees_machine : conc1.Inv ∧ StandsFor conc1 abs1 ∧ conc1.st = .run :=
  ⟨inv_of_conc1, standsFor_of_conc1, rfl⟩

theorem witness_PackedCodesAreCutBack :
    (packBits (.fresh 2) [4, 1, 2, 1, 5]).isSome = true ∧ State.reset.Inv ∧ frameSize (2 : Byte).toNat = true ∧
      exec (.start 2) State.reset = .next fresh2 := ⟨by decide, inv_of_reset, by decide, rfl⟩

/-- V3's codes are fetched as packed, and a code after the End code is not fetched. -/
theorem test_pushCodes :
    pushCodes [0x44, 0x01] fresh2 = [4, 0, 5] ∧ (WidthCtx.fresh 2).untilStop [4, 0, 5, 1] = [4, 0, 5] := by decide

/-- Sub-blocks of the least and of the greatest length. -/
theorem witness_FeedOfAFramedImage :
    ∀ c ∈ [[0x44], List.replicate 255 (0x01 : Byte)], 1 ≤ c.length ∧ c.length ≤ 255 := by
  intro c hc
  simp only [List.mem_cons, List.not_mem_nil, or_false] at hc
  rcases hc with rfl | rfl
  · decide
  · rw [List.length_replicate]; decide

end Sys2Proof.Tests
end

namespace Sys2Proof.Proofs

open Sys2Proof Sys2Proof.Machine

/-! The family 00_scope.md: the step of the machine. -/

/-- Settles O6: the law of a step on a command (`step_command`), with the pending inputs taken back inside exec, which
commutes with replacing them (`execCommand_withInput`). -/
theorem stepRunsTheDecodedCommand : Obligations.StepRunsTheDecodedCommand := by
  intro s w rest hinput hboundary
  have hs : { s with input := .cmd w :: rest } = s := by rw [← hinput]
  calc step s
      = step { s with input := .cmd w :: rest } := by rw [hs]
    _ = mapNext (withInput rest) (exec (decodeCmd w) s) := step_command hboundary w rest
    _ = exec (decodeCmd w) { s with input := rest } := (execCommand_withInput rest w s).symm

end Sys2Proof.Proofs

namespace Sys2Proof.Proofs

open Sys2Proof Sys2Proof.Machine

/-! The family 10_state.md: what the frame invariant gives. -/

theorem m_ne_zero_of_run {s : State} (h : s.FrameInv) (hr : s.st = .run) : s.m.toNat ≠ 0 := by
  intro h0
  rcases (h.noFrame h0).1 with hi | ⟨hf, _⟩
  · simp [hr] at hi
  · simp [hr] at hf

theorem cause_eq_none_of_ne_fault {s : State} (h : s.FrameInv) (hf : s.st ≠ .fault) : s.cause = .none := by
  obtain ⟨_, hfault⟩ := h.causeOk
  exact Decidable.not_not.mp fun hc => hf (hfault.mpr hc)

theorem frameSize_of_ne_zero {s : State} (h : s.FrameInv) (hm : s.m.toNat ≠ 0) : frameSize s.m.toNat = true := by
  obtain ⟨_, hle, _⟩ := h.ranges hm
  exact (frameSize_iff _).mpr ⟨by omega, hle⟩

theorem widthOk_of_ne_zero {s : State} (h : s.FrameInv) (hm : s.m.toNat ≠ 0) : widthOk s.cw.toNat = true := by
  obtain ⟨_, _, hlo, hhi, _⟩ := h.ranges hm
  exact (widthOk_iff _).mpr ⟨by omega, hhi⟩

theorem clearc_le {s : State} (hm : frameSize s.m.toNat = true) : clearc s ≤ 256 := by
  have hle := ((frameSize_iff _).mp hm).2
  calc clearc s = 2 ^ s.m.toNat := rfl
    _ ≤ 2 ^ 8 := Nat.pow_le_pow_right (by omega) hle

/-- In a good dictionary every link goes to a smaller code, so the code's own value bounds the links of its sequence. -/
theorem seqWithin_of_dictOk {s : State} (hd : dictOk s = true) {n : Nat} {c : Code} (hn : c.toNat ≤ n)
    (hc : hasEntry s c.toNat = true) : ∃ l, seqWithin s n c = some l := by
  induction n generalizing c with
  | zero =>
    have hlit : c.toNat < clearc s := by
      have := (hasEntry_iff _ _).mp hc
      omega
    exact ⟨_, by simp only [seqWithin, hlit, if_true]; rfl⟩
  | succ n ih =>
    by_cases hlit : c.toNat < clearc s
    · exact ⟨_, by simp only [seqWithin, hlit, if_true]; rfl⟩
    · have hlive : liveSlot s c.toNat = true := by simpa [hasEntry, hlit] using hc
      obtain ⟨slot, hr, hlt, hp⟩ := (dictOk_iff s).mp hd _ hlive
      obtain ⟨l, hl⟩ := ih (c := slot.pfx) (by omega) hp
      exact ⟨l ++ [slot.sfx], by simp [seqWithin, hlit, hlive, hr, hl]⟩

theorem seqOf_of_hasEntry {s : State} {c : Code} (hd : dictOk s = true) (hc : hasEntry s c.toNat = true) :
    ∃ l, seqOf s c = some l := by
  have := c.isLt
  exact seqWithin_of_dictOk hd (by simp only [Config.stackDepth]; omega) hc

/-! Operations of a frame that keep the frame invariant. -/

theorem frameInv_afterRead {s : State} (h : s.FrameInv) (hm : s.m.toNat ≠ 0) (hle : s.cw.toNat ≤ s.bc.toNat) :
    (afterRead s.cw.toNat s).FrameInv :=
  { h with
    bitsAbove := by
      have hbits := h.bitsAbove
      have hpow : 2 ^ s.bc.toNat = 2 ^ s.cw.toNat * 2 ^ (s.bc.toNat - s.cw.toNat) := by
        rw [← Nat.pow_add, Nat.add_sub_cancel' hle]
      rw [afterRead_bc_toNat, afterRead_bb, BitVec.toNat_ushiftRight, Nat.shiftRight_eq_div_pow]
      exact Nat.div_lt_of_lt_mul (by omega)
    capacity := by
      rw [afterRead_bc_toNat]
      exact Nat.le_trans (Nat.sub_le _ _) h.capacity
    noFrame := fun h0 => absurd h0 hm }

theorem shiftByte_bc_toNat {b : Byte} {s : State} (h : s.bc.toNat ≤ 24) : (shiftByte b s).bc.toNat = s.bc.toNat + 8 := by
  rw [shiftByte_bc, BitVec.toNat_add]
  exact Nat.mod_eq_of_lt (show s.bc.toNat + 8 < 64 by omega)

theorem shiftByte_bb_lt {b : Byte} {s : State} (hbits : s.bb.toNat < 2 ^ s.bc.toNat) :
    (shiftByte b s).bb.toNat < 2 ^ (s.bc.toNat + 8) := by
  rw [shiftByte_bb, BitVec.toNat_or]
  refine Nat.or_lt_two_pow (Nat.lt_of_lt_of_le hbits (Nat.pow_le_pow_right (by omega) (by omega))) ?_
  rw [BitVec.toNat_shiftLeft, Nat.shiftLeft_eq]
  have hb : (b.setWidth 32).toNat < 2 ^ 8 := by
    have := b.isLt
    rw [BitVec.toNat_setWidth]
    omega
  calc (b.setWidth 32).toNat * 2 ^ s.bc.toNat % 2 ^ 32
      ≤ (b.setWidth 32).toNat * 2 ^ s.bc.toNat := Nat.mod_le _ _
    _ < 2 ^ 8 * 2 ^ s.bc.toNat := Nat.mul_lt_mul_of_pos_right hb (Nat.two_pow_pos _)
    _ = 2 ^ (s.bc.toNat + 8) := by rw [← Nat.pow_add, Nat.add_comm]

theorem frameInv_shiftByte {b : Byte} {s : State} (h : s.FrameInv) (hm : s.m.toNat ≠ 0) (hbc : s.bc.toNat ≤ 11) :
    (shiftByte b s).FrameInv :=
  { h with
    bitsAbove := by
      rw [shiftByte_bc_toNat (by omega)]
      exact shiftByte_bb_lt h.bitsAbove
    capacity := by
      rw [shiftByte_bc_toNat (by omega)]
      omega
    noFrame := fun h0 => absurd h0 hm }

/-- Fault entry keeps the frame; without a configured frame its cause must be one that R24 allows there. -/
theorem frameInv_raiseFault {s : State} (h : s.FrameInv) (cause : RaisedCause) (info : BitVec 12)
    (hc : s.m.toNat = 0 → cause = .badMinCodeSize ∨ cause = .badCommand) : (raiseFault cause info s).FrameInv :=
  { h with
    causeOk := by cases cause <;> simp [causeOf]
    finfoOk := fun hne => absurd rfl hne
    noFrame := fun h0 => by
      obtain ⟨_, hregs⟩ := h.noFrame h0
      refine ⟨.inr ⟨rfl, ?_⟩, hregs⟩
      rcases hc h0 with rfl | rfl <;> simp [causeOf]
    ranges := fun hm => ⟨by simp, (h.ranges hm).2⟩ }

theorem inv_raiseFault {s : State} (h : s.FrameInv) (cause : RaisedCause) (info : BitVec 12)
    (hc : s.m.toNat = 0 → cause = .badMinCodeSize ∨ cause = .badCommand) : (raiseFault cause info s).Inv :=
  ⟨frameInv_raiseFault h cause info hc, by simp⟩

/-- The state after hardware reset is good whatever the dictionary and the stack hold (R37, R42). -/
theorem inv_hardReset {s : State} (hdict : Memory.wf Config.dictSize s.dict = true)
    (hstk : Memory.wf Config.stackDepth s.stk = true) : (hardReset s).Inv where
  drained := by simp
  frame := by constructor <;> simp [hdict, hstk]

theorem inv_illegalStart {s : State} (h : s.FrameInv) (info : BitVec 12) :
    (raiseFault .badMinCodeSize info (clearFrame s)).Inv where
  drained := by simp
  frame := by
    constructor
    case stackEmpty => exact h.stackEmpty
    case dictForm => exact h.dictForm
    case stackForm => exact h.stackForm
    all_goals simp [causeOf]

/-- The registers at the start of a frame and after a Clear code (R43, 41_lzw_codes.md R142). -/
structure AtFrameStart (s : State) : Prop where
  st : s.st = .run
  cause : s.cause = .none
  finfo : s.finfo = 0
  legal : frameSize s.m.toNat = true
  cw : s.cw.toNat = s.m.toNat + 1
  next : s.nextCode.toNat = endc s + 1
  awaitFirst : s.awaitFirst = true
  prev : s.prev = 0

/-- NEXT = ENDC + 1 stands between 2^M and 2^(M+1) where M is at least 2 (R154). -/
theorem endc_succ_lt {s : State} (h : 2 ≤ s.m.toNat) : endc s + 1 < 2 ^ (s.m.toNat + 1) := by
  have hpow : 2 ^ 2 ≤ 2 ^ s.m.toNat := Nat.pow_le_pow_right (by omega) h
  have : endc s = 2 ^ s.m.toNat + 1 := rfl
  omega

/-- No slot is live at the start of a frame, so the dictionary holds what it likes. -/
theorem frameInv_of_frameStart {s : State} (hs : AtFrameStart s) (hbits : s.bb.toNat < 2 ^ s.bc.toNat)
    (hcap : s.bc.toNat ≤ 19) (hsp : s.sp.toNat = 0) (hdict : Memory.wf Config.dictSize s.dict = true)
    (hstk : Memory.wf Config.stackDepth s.stk = true) : s.FrameInv := by
  obtain ⟨hst, hcause, hfinfo, hlegal, hcw, hnext, hawait, hprev⟩ := hs
  have hm := (frameSize_iff _).mp hlegal
  have hc := clearc_le hlegal
  have he := endc_eq s
  constructor
  case bitsAbove => exact hbits
  case capacity => exact hcap
  case stackEmpty => exact hsp
  case dictForm => exact hdict
  case stackForm => exact hstk
  case causeOk => simp [hst, hcause]
  case finfoOk => simp [hfinfo]
  case noFrame => omega
  case ranges =>
    intro _
    exact ⟨by simp [hst], by omega⟩
  case awaiting =>
    intro _ _
    exact ⟨hnext, hcw, by simp [hprev]⟩
  case prevOk => simp [hawait]
  case entriesOk =>
    intro _
    refine (dictOk_iff s).mpr fun k hk => ?_
    simp only [liveSlot, Bool.and_eq_true, decide_eq_true_eq] at hk
    omega
  case widthOfNext =>
    intro h2
    have hlt := endc_succ_lt h2
    have hce : clearc s = 2 ^ s.m.toNat := rfl
    rw [if_neg (by omega), hcw, hnext, Nat.add_sub_cancel]
    omega
  case widthM1 => omega

theorem atFrameStart_clearCodes {s : State} (h : s.FrameInv) (hr : s.st = .run) : AtFrameStart (clearCodes s) := by
  have hlegal := frameSize_of_ne_zero h (m_ne_zero_of_run h hr)
  have hle := clearc_le hlegal
  have hm := (frameSize_iff _).mp hlegal
  have he : endCode s.m.toNat = clearc s + 1 := rfl
  constructor
  case st => simp [hr]
  case cause => simp [cause_eq_none_of_ne_fault h, hr]
  case finfo =>
    have := h.finfoOk (by simp [hr])
    exact BitVec.eq_of_toNat_eq (by simpa using this)
  case legal => exact hlegal
  case cw =>
    rw [clearCodes_cw, clearCodes_m, BitVec.toNat_ofNat]
    exact Nat.mod_eq_of_lt (by omega)
  case next =>
    rw [clearCodes_nextCode, BitVec.toNat_ofNat, endc_congr (clearCodes_m s)]
    exact Nat.mod_eq_of_lt (by omega)
  case awaitFirst => simp
  case prev => simp

theorem frameInv_clearCodes {s : State} (h : s.FrameInv) (hr : s.st = .run) : (clearCodes s).FrameInv :=
  frameInv_of_frameStart (atFrameStart_clearCodes h hr) h.bitsAbove h.capacity h.stackEmpty h.dictForm h.stackForm

theorem atFrameStart_startFrame {m : Byte} {s : State} (hlegal : frameSize m.toNat = true) :
    AtFrameStart (startFrame m s) := by
  have hm := (frameSize_iff _).mp hlegal
  have hsize : (startFrame m s).m.toNat = m.toNat := by
    rw [startFrame_m, BitVec.toNat_setWidth]
    exact Nat.mod_eq_of_lt (by omega)
  have hle : clearc (startFrame m s) ≤ 256 := clearc_le (by rw [hsize]; exact hlegal)
  have he : endCode m.toNat = endc (startFrame m s) := by rw [endc, hsize]
  have hce := endc_eq (startFrame m s)
  constructor
  case legal => rw [hsize]; exact hlegal
  case cw =>
    rw [hsize, startFrame_cw, BitVec.toNat_ofNat]
    exact Nat.mod_eq_of_lt (by omega)
  case next =>
    rw [startFrame_nextCode, BitVec.toNat_ofNat, he]
    exact Nat.mod_eq_of_lt (by omega)
  all_goals simp

theorem inv_startFrame {m : Byte} {s : State} (h : s.FrameInv) (hlegal : frameSize m.toNat = true) :
    (startFrame m s).Inv := by
  have hstart := atFrameStart_startFrame (s := s) hlegal
  refine ⟨frameInv_of_frameStart hstart ?_ ?_ ?_ h.dictForm h.stackForm, fun _ => ?_⟩
  · simp
  · simp
  · simp
  · rw [hstart.cw]; simp

/-! Code steps keep the frame invariant. -/

theorem frameInv_endRule {s : State} (h : s.FrameInv) (hm : s.m.toNat ≠ 0) (hr : s.st = .run) :
    ({ s with st := .done } : State).FrameInv :=
  { h with
    causeOk := by simp [cause_eq_none_of_ne_fault h, hr]
    finfoOk := fun _ => h.finfoOk (by simp [hr])
    noFrame := fun h0 => absurd h0 hm
    ranges := fun hm => ⟨by simp, (h.ranges hm).2⟩ }

/-- The first code of a frame is a literal: NEXT is ENDC + 1 while it is awaited (R37 (b)). -/
theorem frameInv_firstRule {s : State} {c : Code} (h : s.FrameInv) (hm : s.m.toNat ≠ 0)
    (hc : classify (codeCtx s) c = some .first) :
    (rememberFirst c (emitSymbols [c.setWidth 8] s)).FrameInv :=
  { h with
    noFrame := fun h0 => absurd h0 hm
    awaiting := fun _ ha => by simp at ha
    prevOk := fun _ _ => by
      obtain ⟨_, hawait, hlt, hnc, hne⟩ := classify_first hc
      obtain ⟨hnext, _⟩ := h.awaiting hm hawait
      have he := endc_eq s
      have hlit : c.toNat < clearc s := by omega
      exact (hasEntry_iff s _).mpr (.inl hlit) }

theorem endc_dataCodeStep {s t : State} {c : Code} {l : List Byte} {f : Byte} {depth : Nat}
    (hs : DataCodeStep s t c l f depth) : endc t = endc s := endc_congr hs.m

theorem clearc_dataCodeStep {s t : State} {c : Code} {l : List Byte} {f : Byte} {depth : Nat}
    (hs : DataCodeStep s t c l f depth) : clearc t = clearc s := clearc_congr hs.m

/-- A data code's step keeps every entry. -/
theorem hasEntry_dataCodeStep {s t : State} {c : Code} {l : List Byte} {f : Byte} {depth k : Nat}
    (hs : DataCodeStep s t c l f depth) (hk : hasEntry s k = true) : hasEntry t k = true := by
  have hn := hs.nextCode
  have := (hasEntry_iff _ _).mp hk
  rw [hasEntry_iff, clearc_dataCodeStep hs, endc_dataCodeStep hs]
  split at hn <;> omega

/-- The live slots after a data code's step: those before it, and the slot NEXT, which held none (R147). -/
theorem liveSlot_dataCodeStep {s t : State} {c : Code} {l : List Byte} {f : Byte} {depth k : Nat}
    (hs : DataCodeStep s t c l f depth) (hk : liveSlot t k = true) :
    (k = s.nextCode.toNat ∧ s.nextCode.toNat < 4096) ∨
      (liveSlot s k = true ∧ Memory.read t.dict k = Memory.read s.dict k) := by
  have hn := hs.nextCode
  simp only [liveSlot, Bool.and_eq_true, decide_eq_true_eq, endc_dataCodeStep hs] at hk ⊢
  by_cases hk' : k = s.nextCode.toNat ∧ s.nextCode.toNat < 4096
  · exact .inl hk'
  · refine .inr ⟨?_, hs.otherSlots k (by omega)⟩
    split at hn <;> omega

/-- The entry a data code adds points to PREV, which is an entry below NEXT (R37 (d)). -/
theorem dictOk_dataCodeStep {s t : State} {c : Code} {l : List Byte} {f : Byte} {depth : Nat}
    (hs : DataCodeStep s t c l f depth) (hlo : endc s < s.nextCode.toNat) (hd : dictOk s = true)
    (hp : hasEntry s s.prev.toNat = true) : dictOk t = true := by
  refine (dictOk_iff t).mpr fun k hk => ?_
  rcases liveSlot_dataCodeStep hs hk with ⟨rfl, hlt⟩ | ⟨hlive, hread⟩
  · have he := endc_eq s
    have := (hasEntry_iff _ _).mp hp
    exact ⟨_, hs.newEntry hlt, by simp only; omega, hasEntry_dataCodeStep hs hp⟩
  · obtain ⟨slot, hr, hlt, he⟩ := (dictOk_iff s).mp hd k hlive
    exact ⟨slot, hread.trans hr, hlt, hasEntry_dataCodeStep hs he⟩

/-- The width that holds NEXT (R154), as numbers. -/
def WidthHolds (next cw : Nat) : Prop :=
  if next = 4096 then cw = 12 else 2 ^ (cw - 1) ≤ next ∧ next < 2 ^ cw

/-- One more entry and GROW keep the width that holds NEXT (R147, R148, R154). -/
theorem widthHolds_grow {next cw next' cw' : Nat} (h : WidthHolds next cw) (hcw : 1 ≤ cw ∧ cw ≤ 12)
    (hmax : next ≤ 4096) (hnext : next' = if next < 4096 then next + 1 else next)
    (hgrow : cw' = if next' = 2 ^ cw ∧ cw < 12 then cw + 1 else cw) : WidthHolds next' cw' := by
  unfold WidthHolds at h ⊢
  by_cases hfull : next = 4096
  · rw [if_neg (by omega)] at hnext
    rw [if_pos hfull] at h
    rw [if_neg (by omega)] at hgrow
    rw [if_pos (by omega), hgrow, h]
  · rw [if_neg hfull] at h
    rw [if_pos (by omega)] at hnext
    obtain ⟨hlo, hhi⟩ := h
    by_cases hg : next' = 2 ^ cw ∧ cw < 12
    · have hdouble : 2 ^ (cw + 1) = 2 * 2 ^ cw := by rw [Nat.pow_succ, Nat.mul_comm]
      have hsmall : 2 ^ cw ≤ 2 ^ 11 := Nat.pow_le_pow_right (by omega) (by omega)
      rw [if_pos hg] at hgrow
      rw [if_neg (by omega), hgrow, Nat.add_sub_cancel]
      omega
    · rw [if_neg hg] at hgrow
      rw [hgrow]
      by_cases htop : next' = 4096
      · rw [if_pos htop]
        have hwide : ¬ cw ≤ 11 := fun hle => by
          have : 2 ^ cw ≤ 2 ^ 11 := Nat.pow_le_pow_right (by omega) hle
          omega
        omega
      · rw [if_neg htop]
        have hne : next' ≠ 2 ^ cw := fun heq => by
          obtain rfl : cw = 12 := by omega
          omega
        omega

theorem frameInv_dataCodeStep {s t : State} {c : Code} {l : List Byte} {f : Byte} {depth : Nat} (h : s.FrameInv)
    (hm : s.m.toNat ≠ 0) (ha : s.awaitFirst = false) (hs : DataCodeStep s t c l f depth)
    (hc : hasEntry s c.toNat = true ∨ c.toNat = s.nextCode.toNat)
    (hdict : Memory.wf Config.dictSize t.dict = true) (hstk : Memory.wf Config.stackDepth t.stk = true) :
    t.FrameInv := by
  obtain ⟨hidle, hm8, hlo, hhi, hnlo, hnhi⟩ := h.ranges hm
  have hnext := hs.nextCode
  have hcw := hs.cw
  constructor
  case bitsAbove => rw [hs.bb, hs.bc]; exact h.bitsAbove
  case capacity => rw [hs.bc]; exact h.capacity
  case stackEmpty => exact hs.sp
  case dictForm => exact hdict
  case stackForm => exact hstk
  case causeOk => rw [hs.cause, hs.st]; exact h.causeOk
  case finfoOk => rw [hs.finfo, hs.st]; exact h.finfoOk
  case noFrame => rw [hs.m]; exact fun h0 => absurd h0 hm
  case ranges =>
    intro _
    rw [hs.st, hs.m, endc_dataCodeStep hs]
    refine ⟨hidle, hm8, ?_⟩
    split at hnext <;> split at hcw <;> omega
  case awaiting =>
    intro _ hat
    rw [hs.awaitFirst, ha] at hat
    simp at hat
  case prevOk =>
    intro _ _
    rw [hs.prev]
    rcases hc with hc | hc
    · exact hasEntry_dataCodeStep hs hc
    · have := c.isLt
      rw [if_pos (by omega)] at hnext
      rw [hasEntry_iff, endc_dataCodeStep hs]
      omega
  case entriesOk => exact fun _ => dictOk_dataCodeStep hs hnlo (h.entriesOk hm) (h.prevOk hm ha)
  case widthOfNext =>
    rw [hs.m]
    exact fun h2 => widthHolds_grow (h.widthOfNext h2) (by omega) hnhi hnext hcw
  case widthM1 =>
    rw [hs.m]
    intro h1
    have hcw2 := h.widthM1 h1
    have he : endc s = 3 := by rw [endc, h1]; rfl
    rw [hcw2] at hcw
    split at hnext <;> split at hcw <;> omega

/-! What a code can do (R141 to R146). -/

/-- EXPAND answers only where SEQ is defined. -/
theorem seqOf_of_expandCode {c : Code} {s t : State} {f : Byte} (h : expandCode c s = .next (f, t)) :
    ∃ l, seqOf s c = some l := by
  unfold expandCode at h
  split at h
  · obtain ⟨r, hw, _⟩ := andThen_eq_next.mp h
    rw [← Option.ne_none_iff_exists']
    intro hnone
    exact walkPrefixes_none ((seqWithin_congr (a := { s with sp := 0 }) (b := s) ⟨rfl, rfl, rfl⟩ _ c).trans hnone) r hw
  · simp at h

/-- One constructor per class: the class of code `c` in `s`, and the state its rule leaves. -/
inductive CodeRan (c : Code) (s : State) : State → Prop
  | endFrame (hk : classify (codeCtx s) c = some .endFrame) : CodeRan c s { s with st := .done }
  | clear (hk : classify (codeCtx s) c = some .clear) : CodeRan c s (clearCodes s)
  | first (hk : classify (codeCtx s) c = some .first) :
      CodeRan c s (rememberFirst c (emitSymbols [c.setWidth 8] s))
  | invalid (hk : classify (codeCtx s) c = some .invalid) : CodeRan c s (raiseFault .invalidLzwCode c s)
  | known {t : State} {l : List Byte} {f : Byte} (hk : classify (codeCtx s) c = some .known) (hl : seqOf s c = some l)
      (hf : l.head? = some f)
      (hs : DataCodeStep s t c l f (l.length - 1))
      (hstk : Memory.wf Config.stackDepth s.stk = true → Memory.wf Config.stackDepth t.stk = true)
      (hdict : Memory.wf Config.dictSize s.dict = true → Memory.wf Config.dictSize t.dict = true) : CodeRan c s t
  | kwkwk {t : State} {p : List Byte} {f : Byte} (hk : classify (codeCtx s) c = some .kwkwk)
      (hp : seqOf s s.prev = some p) (hf : p.head? = some f)
      (hs : DataCodeStep s t c (p ++ [f]) f (p.length - 1))
      (hstk : Memory.wf Config.stackDepth s.stk = true → Memory.wf Config.stackDepth t.stk = true)
      (hdict : Memory.wf Config.dictSize s.dict = true → Memory.wf Config.dictSize t.dict = true) : CodeRan c s t

theorem codeRan_of_runCode {c : Code} {s t : State} (h : runCode c s = .next t) : CodeRan c s t := by
  unfold runCode at h
  split at h
  · next hk => cases h; exact .endFrame hk
  · next hk => cases h; exact .clear hk
  · next hk => cases h; exact .first hk
  · next hk => cases h; exact .invalid hk
  · next hk =>
    obtain ⟨_, he, _⟩ := andThen_eq_next.mp h
    obtain ⟨l, hl⟩ := seqOf_of_expandCode he
    obtain ⟨u, f, hu, _, hf, hs, hstk, hdict⟩ := knownRule_spec (classify_known hk).1 hl
    obtain rfl : u = t := by simpa [h] using hu.symm
    exact .known hk hl hf hs hstk hdict
  · next hk =>
    obtain ⟨_, he, _⟩ := andThen_eq_next.mp h
    obtain ⟨p, hp⟩ := seqOf_of_expandCode he
    obtain ⟨u, f, hu, _, hf, hs, hstk, hdict⟩ := kwkwkRule_spec (c := c) (classify_kwkwk hk).1 hp
    obtain rfl : u = t := by simpa [h] using hu.symm
    exact .kwkwk hk hp hf hs hstk hdict
  · cases h

/-- No class rule touches the input side: only the fetch and SHIFT_IN do. -/
theorem runCode_inputSide {c : Code} {s t : State} (h : runCode c s = .next t) :
    t.ncodes = s.ncodes ∧ t.nbytes = s.nbytes ∧ t.input = s.input := by
  cases codeRan_of_runCode h with
  | endFrame _ => exact ⟨rfl, rfl, rfl⟩
  | clear _ => exact ⟨rfl, rfl, rfl⟩
  | first _ => exact ⟨rfl, rfl, rfl⟩
  | invalid _ => exact ⟨rfl, rfl, rfl⟩
  | known _ _ _ hs _ _ => exact ⟨hs.ncodes, hs.nbytes, hs.input⟩
  | kwkwk _ _ _ hs _ _ => exact ⟨hs.ncodes, hs.nbytes, hs.input⟩

theorem frameInv_runCode {s t : State} {c : Code} (h : s.FrameInv) (hr : s.st = .run) (hx : runCode c s = .next t) :
    t.FrameInv := by
  have hm := m_ne_zero_of_run h hr
  cases codeRan_of_runCode hx with
  | endFrame _ => exact frameInv_endRule h hm hr
  | clear _ => exact frameInv_clearCodes h hr
  | first hk => exact frameInv_firstRule h hm hk
  | invalid _ => exact frameInv_raiseFault h _ _ fun h0 => absurd h0 hm
  | known hk _ _ hs hstk hdict =>
    obtain ⟨_, ha, hc⟩ := classify_known hk
    exact frameInv_dataCodeStep h hm ha hs (.inl hc) (hdict h.dictForm) (hstk h.stackForm)
  | kwkwk hk _ _ hs hstk hdict =>
    obtain ⟨_, ha, hc, _⟩ := classify_kwkwk hk
    exact frameInv_dataCodeStep h hm ha hs (.inr hc) (hdict h.dictForm) (hstk h.stackForm)

/-- In RUN every code has a class, and the sequence its rule emits is defined. -/
theorem runCode_answers {s : State} (h : s.FrameInv) (hr : s.st = .run) (c : Code) : ∃ t, runCode c s = .next t := by
  have hm := m_ne_zero_of_run h hr
  have hframe := frameSize_of_ne_zero h hm
  obtain ⟨k, hk⟩ := classify_some (x := codeCtx s) c hframe
  simp only [runCode, hk]
  cases k with
  | endFrame => exact ⟨_, rfl⟩
  | clear => exact ⟨_, rfl⟩
  | first => exact ⟨_, rfl⟩
  | invalid => exact ⟨_, rfl⟩
  | known =>
    obtain ⟨_, _, hc⟩ := classify_known hk
    obtain ⟨l, hl⟩ := seqOf_of_hasEntry (h.entriesOk hm) hc
    obtain ⟨t, _, ht, _⟩ := knownRule_spec hframe hl
    exact ⟨t, ht⟩
  | kwkwk =>
    obtain ⟨_, ha, _⟩ := classify_kwkwk hk
    obtain ⟨p, hp⟩ := seqOf_of_hasEntry (h.entriesOk hm) (h.prevOk hm ha)
    obtain ⟨t, _, ht, _⟩ := kwkwkRule_spec hframe hp
    exact ⟨t, ht⟩

/-! The code step and the drain loop. -/

/-- A code step is the fetch of CW bits and the class rule of the code they hold (R140). -/
theorem execCodeStep_eq_next {s t : State} (h : execCodeStep s = .next t) :
    s.st = .run ∧ s.cw.toNat ≤ s.bc.toNat ∧
      ∃ c, runCode c (afterRead s.cw.toNat s) = .next t := by
  obtain ⟨⟨c, u⟩, hf, hx⟩ := andThen_eq_next.mp h
  obtain ⟨hr, _, hle, _, rfl⟩ := fetchCode_eq_next.mp hf
  exact ⟨hr, hle, c, hx⟩

theorem execCodeStep_answers {s : State} (h : s.FrameInv) (hr : s.st = .run) (hle : s.cw.toNat ≤ s.bc.toNat) :
    ∃ t, execCodeStep s = .next t := by
  have hm := m_ne_zero_of_run h hr
  have hf := fetchCode_eq_next.mpr ⟨hr, widthOk_of_ne_zero h hm, hle, rfl, rfl⟩
  obtain ⟨t, ht⟩ := runCode_answers (frameInv_afterRead h hm hle) hr _
  exact ⟨t, andThen_eq_next.mpr ⟨_, hf, ht⟩⟩

theorem frameInv_execCodeStep {s t : State} (h : s.FrameInv) (hx : execCodeStep s = .next t) : t.FrameInv := by
  obtain ⟨hr, hle, c, ht⟩ := execCodeStep_eq_next hx
  exact frameInv_runCode (frameInv_afterRead h (m_ne_zero_of_run h hr) hle) hr ht

theorem execCodeStep_inputSide {s t : State} (hx : execCodeStep s = .next t) :
    t.ncodes = s.ncodes + 1 ∧ t.nbytes = s.nbytes ∧ t.input = s.input := by
  obtain ⟨_, _, c, ht⟩ := execCodeStep_eq_next hx
  exact runCode_inputSide ht

/-- With a turn for every buffered bit the loop reaches its exit: every turn uses up at least one. -/
theorem drainWithin_answers {n : Nat} {s : State} (h : s.FrameInv) (hn : s.bc.toNat < n) :
    ∃ t, drainWithin n s = .next t ∧ t.FrameInv ∧ (t.st = .run → t.bc.toNat < t.cw.toNat) := by
  induction n generalizing s with
  | zero => omega
  | succ n ih =>
    by_cases hr : s.st = .run
    · have hw := widthOk_of_ne_zero h (m_ne_zero_of_run h hr)
      by_cases hle : s.cw.toNat ≤ s.bc.toNat
      · obtain ⟨u, hu⟩ := execCodeStep_answers h hr hle
        have hbits := execCodeStep_bc hu
        obtain ⟨t, ht, hrest⟩ := ih (frameInv_execCodeStep h hu) (by omega)
        refine ⟨t, ?_, hrest⟩
        simp only [drainWithin, hr, hw, (hasBits_iff _ _).mpr hle, if_true, hu, andThen, ht]
      · exact ⟨s, by simp [drainWithin, hr, hw, hasBits, hle], h, fun _ => by omega⟩
    · exact ⟨s, by simp [drainWithin, hr], h, fun hrun => absurd hrun hr⟩

theorem execDrain_answers {s : State} (h : s.FrameInv) : ∃ t, execDrain s = .next t ∧ t.Inv := by
  obtain ⟨t, ht, hframe, hdrained⟩ := drainWithin_answers h (Nat.lt_succ_self _)
  exact ⟨t, ht, hframe, hdrained⟩

/-! Commands. -/

theorem execPush_answers {s : State} (h : s.Inv) (b : Byte) : ∃ t, execPush b s = .next t ∧ t.Inv := by
  cases hst : s.st with
  | idle => exact ⟨_, by simp only [execPush, hst]; rfl, inv_raiseFault h.frame _ _ fun _ => .inr rfl⟩
  | run =>
    have hm := m_ne_zero_of_run h.frame hst
    have hbc : s.bc.toNat ≤ 11 := by
      have hdrained := h.drained hst
      obtain ⟨_, _, _, hcw, _⟩ := h.frame.ranges hm
      omega
    obtain ⟨t, ht, hinv⟩ := execDrain_answers (frameInv_shiftByte (b := b) h.frame hm hbc)
    have hfits : s.bc.toNat + 8 ≤ Config.bbBits := by simp only [Config.bbBits]; omega
    exact ⟨t, by simp only [execPush, hst, execShiftIn, hfits, if_true, andThen, ht], hinv⟩
  | done => exact ⟨s, by simp only [execPush, hst], h⟩
  | fault => exact ⟨s, by simp only [execPush, hst], h⟩

theorem execStart_answers {s : State} (h : s.FrameInv) (m : Byte) : ∃ t, execStart m s = .next t ∧ t.Inv := by
  unfold execStart
  split
  · next hm => exact ⟨_, rfl, inv_startFrame h hm⟩
  · exact ⟨_, rfl, inv_illegalStart h _⟩

theorem execEos_answers {s : State} (h : s.Inv) (arg : Byte) : ∃ t, execEos arg s = .next t ∧ t.Inv := by
  unfold execEos
  cases hst : s.st with
  | idle => exact ⟨_, rfl, inv_raiseFault h.frame _ _ fun _ => .inr rfl⟩
  | run => exact ⟨_, rfl, inv_raiseFault h.frame _ _ fun h0 => absurd h0 (m_ne_zero_of_run h.frame hst)⟩
  | done => exact ⟨s, rfl, h⟩
  | fault => exact ⟨s, rfl, h⟩

theorem execRsvd_answers {s : State} (h : s.Inv) (arg : Byte) : ∃ t, execRsvd arg s = .next t ∧ t.Inv := by
  have hbad := inv_raiseFault h.frame .badCommand ((cmdWord 3 arg).setWidth 12) fun _ => .inr rfl
  unfold execRsvd
  cases s.st with
  | idle => exact ⟨_, rfl, hbad⟩
  | run => exact ⟨_, rfl, hbad⟩
  | done => exact ⟨_, rfl, hbad⟩
  | fault => exact ⟨s, rfl, h⟩

theorem execCommand_answers {s : State} (h : s.Inv) (w : CmdWord) : ∃ t, exec (decodeCmd w) s = .next t ∧ t.Inv := by
  unfold decodeCmd
  split
  · exact execStart_answers h.frame _
  · exact execPush_answers h _
  · exact execEos_answers h _
  · exact execRsvd_answers h _

/-- The invariant does not speak of the host's pending inputs, the port sr_data and the counter of free values. -/
theorem inv_withPorts {s : State} (h : s.Inv) (l : List HostInput) (v : BitVec 32) (n : Nat) :
    ({ s with input := l, srData := v, fresh := n } : State).Inv :=
  ⟨{ h.frame with }, h.drained⟩

theorem inv_execStatusRead {s t : State} {a : BitVec 4} (h : s.Inv) (hx : execStatusRead a s = .next t) : t.Inv := by
  unfold execStatusRead at hx
  split at hx
  · cases hx; exact inv_withPorts h _ _ _
  · cases hx; exact inv_withPorts h _ _ _

/-- Settles O47, by the cases of a step: a reset, a command or a status read on the state without that input, or idling; at
a command boundary no code is buffered. -/
theorem stepKeepsTheInvariant : Obligations.StepKeepsTheInvariant := by
  intro s t h hstep
  rcases step_cases hstep with ⟨rest, _, rfl⟩ | ⟨hp, _⟩ | ⟨_, w, rest, _, hx⟩ | ⟨_, a, rest, _, hx⟩ | ⟨_, _, rfl⟩
  · exact inv_hardReset h.frame.dictForm h.frame.stackForm
  · rw [codePending_of_inv h] at hp
    cases hp
  · obtain ⟨u, hu, hinv⟩ := execCommand_answers (inv_withPorts h rest s.srData s.fresh) w
    obtain rfl : u = t := by simpa [hx] using hu.symm
    exact hinv
  · exact inv_execStatusRead (inv_withPorts h rest s.srData s.fresh) hx
  · exact h

/-- Settles O46: the fetch and the class rule keep the frame invariant, the class rule always answers, and only the fetch
moves the buffer and the counters, by CW bits and one code. -/
theorem codeStepKeepsTheFrameInvariant : Obligations.CodeStepKeepsTheFrameInvariant := by
  intro s h hr hle
  obtain ⟨t, ht⟩ := execCodeStep_answers h hr hle
  obtain ⟨_, hbc⟩ := execCodeStep_bc ht
  obtain ⟨hncodes, hnbytes, hinput⟩ := execCodeStep_inputSide ht
  refine ⟨t, ht, frameInv_execCodeStep h ht, hbc, hncodes, hnbytes, ?_, hinput⟩
  simp only [bitpos, hnbytes]
  omega

/-- Settles O11: State.reset is what a reset leaves of itself, and its two memories are empty. -/
theorem resetMeetsInvariant : Obligations.ResetMeetsInvariant := inv_hardReset (s := State.reset) rfl rfl

/-- A reset takes effect at once (70_reset_and_hazards.md R250). -/
theorem step_rst {s : State} {rest : List HostInput} (hin : s.input = .rst :: rest) :
    step s = .next (hardReset { s with input := rest }) := by
  simp only [step, sequencerStep, hin]

theorem step_statusRead {s : State} {a : BitVec 4} {rest : List HostInput} (hin : s.input = .statusRead a :: rest)
    (hp : codePending s = false) : step s = exec (.statusRead a) { s with input := rest } := by
  simp only [step, sequencerStep, hin, hp, Bool.false_eq_true, if_false]

theorem step_idle {s : State} (hin : s.input = []) (hp : codePending s = false) : step s = .next s := by
  simp only [step, sequencerStep, hin, hp, Bool.false_eq_true, if_false]

/-- Settles O10: the step is `hardReset`, whose fields are the laws of the state; with ST = IDLE no code is pending. -/
theorem hardwareResetLeaves : Obligations.HardwareResetLeaves := by
  intro s rest hinput
  refine ⟨_, step_rst hinput, ?_⟩
  simp [outValid, cmdReady, codePending, doneLine, faultLine]

/-! Status reads. -/

theorem execStatusRead_ready {s : State} (h : cmdReady s = true) (a : BitVec 4) :
    exec (.statusRead a) s = .next { s with srData := statusReg s a } := if_pos h

/-- The fields of STATUS (R39), for any field values. -/
theorem statusWord_fields (cause : BitVec 3) (await : Bool) (st : BitVec 2) :
    let v := (cause ++ (0#1 : BitVec 1) ++ BitVec.ofBool await ++ st).setWidth 32
    v.extractLsb' 0 2 = st ∧ v.getLsbD 2 = await ∧ v.getLsbD 3 = false ∧ v.extractLsb' 4 3 = cause ∧
      v.extractLsb' 7 25 = 0 := by
  revert cause await st
  decide

/-- Settles O44: STATUS by its fields (`statusWord_fields`), every other address by its arm of `statusReg`. -/
theorem statusReadShowsTheRegister : Obligations.StatusReadShowsTheRegister := by
  intro s h
  have hread := execStatusRead_ready h
  refine ⟨⟨statusWord s, hread 0, ?_⟩, hread 1, hread 2, hread 3, hread 4, hread 5, hread 6, hread 7, ?_, ?_, ?_⟩
  · obtain ⟨hst, hawait, hzero, hcause, htop⟩ := statusWord_fields s.cause.bits s.awaitFirst s.st.bits
    refine ⟨hst.trans ?_, hawait, hzero, hcause.trans ?_, htop⟩
    · cases s.st <;> rfl
    · cases s.cause <;> rfl
  · rw [hread 8]
    simp [statusReg, clearc, clearCode, frameSize_iff]
  · rw [hread 9]
    simp [statusReg, endc, endCode, frameSize_iff]
  · intro a ha
    rw [hread a]
    have hreserved : statusReg s a = 0 := by
      unfold statusReg
      split
      case h_11 => rfl
      all_goals omega
    rw [hreserved]

/-- Settles O45: the arm of a status read with cmd_ready = 0. -/
theorem statusReadDuringACommand : Obligations.StatusReadDuringACommand := by
  intro a s h
  exact if_neg (by simp [h])

/-! Stale content (10_state.md R45): what reads the state reads the same in two states that agree on the frame. -/

theorem codeCtx_sameFrame {s t : State} (h : SameFrame s t) : codeCtx t = codeCtx s := by
  simp only [codeCtx, h.m, h.awaitFirst, h.nextCode]

theorem codePending_sameFrame {s t : State} (h : SameFrame s t) : codePending t = codePending s := by
  simp only [codePending, hasBits, h.st, h.cw, h.bc]

theorem statusReg_sameFrame {s t : State} (h : SameFrame s t) (a : BitVec 4) : statusReg s a = statusReg t a := by
  simp only [statusReg, statusWord, clearc, endc, h.st, h.cause, h.finfo, h.m, h.cw, h.nextCode, h.prev, h.awaitFirst,
    h.bb, h.bc]

theorem liveSlot_sameFrame {s t : State} (h : SameFrame s t) (k : Nat) : liveSlot t k = liveSlot s k := by
  simp [liveSlot, endc_congr h.m, h.nextCode]

/-- SEQ reads only live slots, so it is the same in both. -/
theorem seqWithin_sameFrame {s t : State} (h : SameFrame s t) (n : Nat) (c : Code) :
    seqWithin t n c = seqWithin s n c := by
  induction n generalizing c with
  | zero => simp only [seqWithin, clearc_congr h.m]
  | succ n ih =>
    simp only [seqWithin, clearc_congr h.m, liveSlot_sameFrame h]
    cases hlive : liveSlot s c.toNat with
    | false => rfl
    | true =>
      rw [h.live _ hlive]
      cases Memory.read t.dict c.toNat with
      | none => rfl
      | some slot => simp only [ih]

theorem seqOf_sameFrame {s t : State} (h : SameFrame s t) (c : Code) : seqOf t c = seqOf s c :=
  seqWithin_sameFrame h _ c

/-! Updates of the state keep the agreement. -/

theorem not_liveSlot_of_le {s : State} (h : s.nextCode.toNat ≤ endc s + 1) (k : Nat) : liveSlot s k ≠ true := by
  simp only [liveSlot, ne_eq, Bool.and_eq_true, decide_eq_true_eq]
  omega

theorem sameFrame_withInput {s t : State} (h : SameFrame s t) (l : List HostInput) :
    SameFrame { s with input := l } { t with input := l } := { h with input := rfl }

theorem sameFrame_raiseFault {s t : State} (h : SameFrame s t) (cause : RaisedCause) (info : BitVec 12) :
    SameFrame (raiseFault cause info s) (raiseFault cause info t) := { h with st := rfl, cause := rfl, finfo := rfl }

theorem sameFrame_afterRead {s t : State} (h : SameFrame s t) (w : Nat) :
    SameFrame (afterRead w s) (afterRead w t) :=
  { h with
    bb := by simp only [afterRead_bb, h.bb]
    bc := by simp only [afterRead_bc, h.bc]
    ncodes := by simp only [afterRead_ncodes, h.ncodes] }

theorem sameFrame_shiftByte {s t : State} (h : SameFrame s t) (b : Byte) :
    SameFrame (shiftByte b s) (shiftByte b t) :=
  { h with
    bb := by simp only [shiftByte_bb, h.bb, h.bc]
    bc := by simp only [shiftByte_bc, h.bc]
    nbytes := by simp only [shiftByte_nbytes, h.nbytes] }

theorem sameFrame_clearCodes {s t : State} (h : SameFrame s t) : SameFrame (clearCodes s) (clearCodes t) :=
  { h with
    nextCode := by simp only [clearCodes_nextCode, h.m]
    cw := by simp only [clearCodes_cw, h.m]
    awaitFirst := rfl
    prev := rfl
    live := fun k hk => absurd hk (not_liveSlot_of_le (Nat.mod_le _ _) k) }

theorem sameFrame_rememberFirst {s t : State} (h : SameFrame s t) (c : Code) (l : List Byte) :
    SameFrame (rememberFirst c (emitSymbols l s)) (rememberFirst c (emitSymbols l t)) :=
  { h with
    prev := rfl
    awaitFirst := rfl
    out := congrArg (· ++ l) h.out }

/-- START leaves nothing of the two states but their pending inputs (43_host_commands.md R191). -/
theorem sameFrame_startFrame {m : Byte} {s t : State} (hlegal : frameSize m.toNat = true) (hin : s.input = t.input) :
    SameFrame (startFrame m s) (startFrame m t) := by
  have hnext := (atFrameStart_startFrame (s := s) hlegal).next
  constructor
  case input => exact hin
  case live => exact fun k hk => absurd hk (not_liveSlot_of_le (Nat.le_of_eq hnext) k)
  all_goals rfl

/-- So does START with an illegal operand, once it has cleared the frame (R192). -/
theorem sameFrame_illegalStart {s t : State} (cause : RaisedCause) (info : BitVec 12) (hin : s.input = t.input) :
    SameFrame (raiseFault cause info (clearFrame s)) (raiseFault cause info (clearFrame t)) := by
  constructor
  case input => exact hin
  case live => exact fun k hk => absurd hk (not_liveSlot_of_le (Nat.zero_le _) k)
  all_goals rfl

theorem sameFrame_hardReset {s t : State} (hin : s.input = t.input) : SameFrame (hardReset s) (hardReset t) := by
  constructor
  case input => exact hin
  case live => exact fun k hk => absurd hk (not_liveSlot_of_le (Nat.zero_le _) k)
  all_goals rfl

/-- The same data code with the same sequence keeps the agreement: the slots that are live after it are the old live slots
and slot NEXT, which gets the same entry. -/
theorem sameFrame_dataCodeStep {s t s' t' : State} {c : Code} {l : List Byte} {f : Byte} {depth : Nat}
    (h : SameFrame s t) (hs : DataCodeStep s s' c l f depth) (ht : DataCodeStep t t' c l f depth) :
    SameFrame s' t' where
  st := by rw [hs.st, ht.st, h.st]
  cause := by rw [hs.cause, ht.cause, h.cause]
  finfo := by rw [hs.finfo, ht.finfo, h.finfo]
  m := by rw [hs.m, ht.m, h.m]
  cw := by
    apply BitVec.eq_of_toNat_eq
    rw [hs.cw, ht.cw, hs.nextCode, ht.nextCode, h.cw, h.nextCode]
  nextCode := by
    apply BitVec.eq_of_toNat_eq
    rw [hs.nextCode, ht.nextCode, h.nextCode]
  prev := by rw [hs.prev, ht.prev]
  awaitFirst := by rw [hs.awaitFirst, ht.awaitFirst, h.awaitFirst]
  bb := by rw [hs.bb, ht.bb, h.bb]
  bc := by rw [hs.bc, ht.bc, h.bc]
  out := by rw [hs.out, ht.out, h.out]
  nbytes := by rw [hs.nbytes, ht.nbytes, h.nbytes]
  ncodes := by rw [hs.ncodes, ht.ncodes, h.ncodes]
  input := by rw [hs.input, ht.input, h.input]
  live := fun k hk => by
    have hnext : s.nextCode.toNat = t.nextCode.toNat := by rw [h.nextCode]
    rcases liveSlot_dataCodeStep hs hk with ⟨rfl, hlt⟩ | ⟨hlive, hread⟩
    · rw [hs.newEntry hlt, hnext, ht.newEntry (by omega), h.prev]
    · have hother : k ≠ t.nextCode.toNat ∨ 4096 ≤ t.nextCode.toNat := by
        simp only [liveSlot, Bool.and_eq_true, decide_eq_true_eq] at hlive
        omega
      rw [hread, ht.otherSlots k hother, h.live k hlive]

/-! Operations keep the agreement. -/

/-- Where the first outcome is a next state, so is the second, and the two agree on the frame. -/
def Follows (o o' : Host.Outcome State Fault Refusal) : Prop :=
  ∀ s', o = .next s' → ∃ t', o' = .next t' ∧ SameFrame s' t'

theorem follows_next {s t : State} (h : SameFrame s t) : Follows (.next s) (.next t) := by
  intro s' hs
  cases hs
  exact ⟨t, rfl, h⟩

theorem follows_refused (r : Refusal) (o : Host.Outcome State Fault Refusal) : Follows (.refused r) o := by
  intro s' hs
  cases hs

theorem follows_andThen {o o' : Host.Outcome State Fault Refusal} {f f' : State → Host.Outcome State Fault Refusal}
    (ho : Follows o o') (hf : ∀ s t, SameFrame s t → Follows (f s) (f' t)) : Follows (andThen o f) (andThen o' f') := by
  intro s' hs
  obtain ⟨u, hu, hfu⟩ := andThen_eq_next.mp hs
  obtain ⟨v, hv, huv⟩ := ho u hu
  obtain ⟨t', ht', hst⟩ := hf u v huv s' hfu
  exact ⟨t', andThen_eq_next.mpr ⟨v, hv, ht'⟩, hst⟩

theorem follows_runCode {s t : State} (h : SameFrame s t) (c : Code) : Follows (runCode c s) (runCode c t) := by
  intro s' hs
  have hctx : ∀ {k}, classify (codeCtx s) c = some k → classify (codeCtx t) c = some k := by
    rw [codeCtx_sameFrame h]
    exact id
  cases codeRan_of_runCode hs with
  | endFrame hk => exact ⟨{ t with st := .done }, by simp only [runCode, hctx hk, endRule], { h with st := rfl }⟩
  | clear hk => exact ⟨_, by simp only [runCode, hctx hk, clearRule], sameFrame_clearCodes h⟩
  | first hk => exact ⟨_, by simp only [runCode, hctx hk, firstRule], sameFrame_rememberFirst h c _⟩
  | invalid hk => exact ⟨_, by simp only [runCode, hctx hk, invalidRule], sameFrame_raiseFault h _ c⟩
  | @known _ l f hk hl hf hstep _ _ =>
    obtain ⟨t', g, ht, _, hg, htstep, _⟩ := knownRule_spec (classify_known (hctx hk)).1 ((seqOf_sameFrame h c).trans hl)
    obtain rfl : f = g := Option.some.inj (hf.symm.trans hg)
    exact ⟨t', by simp only [runCode, hctx hk, ht], sameFrame_dataCodeStep h hstep htstep⟩
  | @kwkwk _ p f hk hp hf hstep _ _ =>
    have hp' : seqOf t t.prev = some p := by rw [seqOf_sameFrame h, ← h.prev, hp]
    obtain ⟨t', g, ht, _, hg, htstep, _⟩ := kwkwkRule_spec (c := c) (classify_kwkwk (hctx hk)).1 hp'
    obtain rfl : f = g := Option.some.inj (hf.symm.trans hg)
    exact ⟨t', by simp only [runCode, hctx hk, ht], sameFrame_dataCodeStep h hstep htstep⟩

theorem follows_execCodeStep {s t : State} (h : SameFrame s t) : Follows (execCodeStep s) (execCodeStep t) := by
  intro s' hs
  obtain ⟨⟨c, u⟩, hf, hx⟩ := andThen_eq_next.mp hs
  obtain ⟨hr, hw, hle, hc, rfl⟩ := fetchCode_eq_next.mp hf
  rw [h.cw] at hw hle hc hx
  have hf' : fetchCode t = .next (c, afterRead t.cw.toNat t) :=
    fetchCode_eq_next.mpr ⟨by rw [← h.st, hr], hw, by rw [← h.bc]; exact hle, by rw [← h.bb]; exact hc, rfl⟩
  obtain ⟨t', ht', hst⟩ := follows_runCode (sameFrame_afterRead h _) c s' hx
  exact ⟨t', andThen_eq_next.mpr ⟨_, hf', ht'⟩, hst⟩

theorem follows_drainWithin {s t : State} (h : SameFrame s t) (n : Nat) : Follows (drainWithin n s) (drainWithin n t) := by
  induction n generalizing s t with
  | zero => exact follows_next h
  | succ n ih =>
    have hbits : hasBits s.cw.toNat t = hasBits s.cw.toNat s := by simp only [hasBits, h.bc]
    simp only [drainWithin, ← h.st, ← h.cw, hbits]
    split
    · split
      · split
        · exact follows_andThen (follows_execCodeStep h) fun _ _ => ih
        · exact follows_next h
      · exact follows_refused _ _
    · exact follows_next h

theorem follows_execDrain {s t : State} (h : SameFrame s t) : Follows (execDrain s) (execDrain t) := by
  simp only [execDrain, ← h.bc]
  exact follows_drainWithin h _

theorem follows_execShiftIn {s t : State} (h : SameFrame s t) (b : Byte) : Follows (execShiftIn b s) (execShiftIn b t) := by
  simp only [execShiftIn, ← h.bc]
  split
  · exact follows_next (sameFrame_shiftByte h b)
  · exact follows_refused _ _

theorem follows_execStart {s t : State} (hin : s.input = t.input) (m : Byte) : Follows (execStart m s) (execStart m t) := by
  unfold execStart
  split
  · next hlegal => exact follows_next (sameFrame_startFrame hlegal hin)
  · exact follows_next (sameFrame_illegalStart _ _ hin)

theorem follows_execPush {s t : State} (h : SameFrame s t) (b : Byte) : Follows (execPush b s) (execPush b t) := by
  simp only [execPush, ← h.st]
  cases s.st with
  | idle => exact follows_next (sameFrame_raiseFault h _ _)
  | run => exact follows_andThen (follows_execShiftIn h b) fun _ _ => follows_execDrain
  | done => exact follows_next h
  | fault => exact follows_next h

theorem follows_execEos {s t : State} (h : SameFrame s t) (arg : Byte) : Follows (execEos arg s) (execEos arg t) := by
  simp only [execEos, ← h.st, ← h.bc]
  cases s.st with
  | idle => exact follows_next (sameFrame_raiseFault h _ _)
  | run => exact follows_next (sameFrame_raiseFault h _ _)
  | done => exact follows_next h
  | fault => exact follows_next h

theorem follows_execRsvd {s t : State} (h : SameFrame s t) (arg : Byte) : Follows (execRsvd arg s) (execRsvd arg t) := by
  have hbad := follows_next (sameFrame_raiseFault h .badCommand ((cmdWord 3 arg).setWidth 12))
  simp only [execRsvd, ← h.st]
  cases s.st with
  | idle => exact hbad
  | run => exact hbad
  | done => exact hbad
  | fault => exact follows_next h

theorem follows_execCommand {s t : State} (h : SameFrame s t) (w : CmdWord) :
    Follows (exec (decodeCmd w) s) (exec (decodeCmd w) t) := by
  unfold decodeCmd
  split
  · exact follows_execStart h.input _
  · exact follows_execPush h _
  · exact follows_execEos h _
  · exact follows_execRsvd h _

/-- A status read at a command boundary shows the same register of two states that agree on the frame. -/
theorem sameFrame_execStatusRead {s t s' : State} (h : SameFrame s t) (hs : codePending s = false) {a : BitVec 4}
    (hx : exec (.statusRead a) s = .next s') :
    ∃ t', exec (.statusRead a) t = .next t' ∧ SameFrame s' t' ∧ s'.srData = t'.srData := by
  have ht : codePending t = false := (codePending_sameFrame h).trans hs
  rw [execStatusRead_ready (by simp [cmdReady, hs])] at hx
  cases hx
  exact ⟨_, execStatusRead_ready (by simp [cmdReady, ht]) a, { h with }, statusReg_sameFrame h a⟩

/-- Settles O51, by the cases of a step: at a command boundary both states take the same input, and the operation it runs
keeps the agreement (`follows_execCommand`, `sameFrame_execStatusRead`). -/
theorem staleContentIsInvisible : Obligations.StaleContentIsInvisible := by
  intro s t s' hs ht h hstep
  have hps := codePending_of_inv hs
  have hpt := codePending_of_inv ht
  rcases step_cases hstep with ⟨rest, hin, rfl⟩ | ⟨hp, _⟩ | ⟨_, w, rest, hin, hx⟩ | ⟨_, b, rest, hin, hx⟩ | ⟨_, hin, rfl⟩
  · refine ⟨_, step_rst (h.input.symm.trans hin), sameFrame_hardReset rfl, ?_⟩
    simp [hin]
  · rw [hps] at hp
    cases hp
  · obtain ⟨t', ht', hst⟩ := follows_execCommand (sameFrame_withInput h rest) w s' hx
    refine ⟨t', (stepRunsTheDecodedCommand t w rest (h.input.symm.trans hin) hpt).trans ht', hst, ?_⟩
    simp [hin]
  · obtain ⟨t', ht', hst, hread⟩ := sameFrame_execStatusRead (sameFrame_withInput h rest) hps hx
    exact ⟨t', (step_statusRead (h.input.symm.trans hin) hpt).trans ht', hst, fun _ _ _ => hread⟩
  · refine ⟨t, step_idle (h.input.symm.trans hin) hpt, h, ?_⟩
    simp [hin]

end Sys2Proof.Proofs

namespace Sys2Proof.Proofs

open Sys2Proof Sys2Proof.Machine

/-! The family 30_encoding.md: classes, rows and the conditions of the opcode table (R94, R95). -/

/-- What the tests of R94 say of a code of each class. -/
def classCondition (x : CodeCtx) (c : Code) : CodeClass → Prop
  | .endFrame => c.toNat = endCode x.m.toNat
  | .clear => c.toNat = clearCode x.m.toNat
  | .first => c.toNat ≠ endCode x.m.toNat ∧ c.toNat ≠ clearCode x.m.toNat ∧ x.awaitFirst = true ∧
      c.toNat < x.nextCode.toNat
  | .invalid => c.toNat ≠ endCode x.m.toNat ∧ c.toNat ≠ clearCode x.m.toNat ∧
      ((x.awaitFirst = true ∧ x.nextCode.toNat ≤ c.toNat) ∨ (x.awaitFirst = false ∧ x.nextCode.toNat < c.toNat))
  | .known => c.toNat ≠ endCode x.m.toNat ∧ c.toNat ≠ clearCode x.m.toNat ∧ x.awaitFirst = false ∧
      c.toNat < x.nextCode.toNat
  | .kwkwk => c.toNat ≠ endCode x.m.toNat ∧ c.toNat ≠ clearCode x.m.toNat ∧ x.awaitFirst = false ∧
      c.toNat = x.nextCode.toNat

theorem clearCode_ne_endCode (m : Nat) : clearCode m ≠ endCode m := Nat.ne_of_lt (Nat.lt_succ_self _)

/-- The classifier gives a class exactly where the class's tests hold, with M legal. -/
theorem classify_eq_some_iff {x : CodeCtx} {c : Code} {k : CodeClass} :
    classify x c = some k ↔ frameSize x.m.toNat = true ∧ classCondition x c k := by
  have hne := clearCode_ne_endCode x.m.toNat
  constructor
  · intro h
    unfold classify at h
    split at h
    · next hframe =>
      refine ⟨hframe, ?_⟩
      split at h
      · next he => cases h; exact he
      · next he =>
        split at h
        · next hc => cases h; exact hc
        · next hc =>
          split at h
          · next ha =>
            split at h
            · next hlt => cases h; exact ⟨he, hc, ha, hlt⟩
            · next hlt => cases h; exact ⟨he, hc, .inl ⟨ha, Nat.le_of_not_lt hlt⟩⟩
          · next ha =>
            have ha := eq_false_of_ne_true ha
            split at h
            · next hlt => cases h; exact ⟨he, hc, ha, hlt⟩
            · next hlt =>
              split at h
              · next heq => cases h; exact ⟨he, hc, ha, heq⟩
              · next hne => cases h; exact ⟨he, hc, .inr ⟨ha, by omega⟩⟩
    · cases h
  · rintro ⟨hframe, hk⟩
    rw [classify, if_pos hframe]
    cases k with
    | endFrame => exact if_pos hk
    | clear =>
      have hk : c.toNat = clearCode x.m.toNat := hk
      rw [if_neg (by omega), if_pos hk]
    | first =>
      obtain ⟨he, hc, ha, hlt⟩ := hk
      rw [if_neg he, if_neg hc, if_pos ha, if_pos hlt]
    | invalid =>
      obtain ⟨he, hc, ⟨ha, hle⟩ | ⟨ha, hlt⟩⟩ := hk
      · rw [if_neg he, if_neg hc, if_pos ha, if_neg (by omega)]
      · rw [if_neg he, if_neg hc, if_neg (by simp [ha]), if_neg (by omega), if_neg (by omega)]
    | known =>
      obtain ⟨he, hc, ha, hlt⟩ := hk
      rw [if_neg he, if_neg hc, if_neg (by simp [ha]), if_pos hlt]
    | kwkwk =>
      obtain ⟨he, hc, ha, heq⟩ := hk
      rw [if_neg he, if_neg hc, if_neg (by simp [ha]), if_neg (by omega), if_pos heq]

/-- A code is an instruction where the instruction is the row of the code's class. -/
theorem decodeCode_eq_ok_iff {x : CodeCtx} {c : Code} {i : Instr} :
    decodeCode x c = .ok i ↔ ∃ k, classify x c = some k ∧ k.row x.m.toNat c = some i := by
  rw [← Option.bind_eq_some_iff]
  unfold decodeCode
  cases (classify x c).bind fun k => k.row x.m.toNat c with
  | none => simp
  | some j => simp

/-- The row conditions of the opcode table are the tests of R94 with R95's constants. -/
theorem rowCondition_iff {i : Instr} {x : CodeCtx} {c : Code} :
    rowCondition i x c ↔ ∃ k, classify x c = some k ∧ k.row x.m.toNat c = some i := by
  simp only [classify_eq_some_iff]
  constructor
  · intro h
    obtain ⟨hframe, hrow⟩ := h
    cases i with
    | first d =>
      obtain ⟨rfl, hk⟩ := hrow
      exact ⟨.first, ⟨hframe, hk⟩, rfl⟩
    | invalid d =>
      obtain ⟨rfl, hk⟩ := hrow
      exact ⟨.invalid, ⟨hframe, hk⟩, rfl⟩
    | known d =>
      obtain ⟨rfl, hk⟩ := hrow
      exact ⟨.known, ⟨hframe, hk⟩, rfl⟩
    | kwkwk d =>
      obtain ⟨rfl, hk⟩ := hrow
      exact ⟨.kwkwk, ⟨hframe, hk⟩, rfl⟩
    | endM1 | endM2 | endM3 | endM4 | endM5 | endM6 | endM7 | endM8 =>
      obtain ⟨hm, rfl⟩ := hrow
      exact ⟨.endFrame, ⟨hframe, by rw [classCondition, hm]; rfl⟩, by rw [hm]; rfl⟩
    | clearM1 | clearM2 | clearM3 | clearM4 | clearM5 | clearM6 | clearM7 | clearM8 =>
      obtain ⟨hm, rfl⟩ := hrow
      exact ⟨.clear, ⟨hframe, by rw [classCondition, hm]; rfl⟩, by rw [hm]; rfl⟩
    | _ => exact hrow.elim
  · rintro ⟨k, ⟨hframe, hk⟩, hrow⟩
    cases k with
    | endFrame =>
      have hk : c.toNat = endCode x.m.toNat := hk
      rcases frameSize_cases hframe with hm | hm | hm | hm | hm | hm | hm | hm <;>
        (rw [hm] at hk hrow; cases hrow; exact ⟨hframe, hm, BitVec.eq_of_toNat_eq hk⟩)
    | clear =>
      have hk : c.toNat = clearCode x.m.toNat := hk
      rcases frameSize_cases hframe with hm | hm | hm | hm | hm | hm | hm | hm <;>
        (rw [hm] at hk hrow; cases hrow; exact ⟨hframe, hm, BitVec.eq_of_toNat_eq hk⟩)
    | first => cases hrow; exact ⟨hframe, rfl, hk⟩
    | invalid => cases hrow; exact ⟨hframe, rfl, hk⟩
    | known => cases hrow; exact ⟨hframe, rfl, hk⟩
    | kwkwk => cases hrow; exact ⟨hframe, rfl, hk⟩

/-- R94: a code decodes to the row whose condition it meets, and to no other. -/
theorem decodeCode_iff_rowCondition {x : CodeCtx} {c : Code} {i : Instr} :
    decodeCode x c = .ok i ↔ rowCondition i x c :=
  decodeCode_eq_ok_iff.trans rowCondition_iff.symm

/-- The row of a code is encoded as that code (R94, R95). -/
theorem encode_of_rowCondition {i : Instr} {x : CodeCtx} {c : Code} (h : rowCondition i x c) : encode i = .code c := by
  obtain ⟨_, hrow⟩ := h
  cases i with
  | first d | invalid d | known d | kwkwk d => exact congrArg Encoded.code hrow.1
  | endM1 | endM2 | endM3 | endM4 | endM5 | endM6 | endM7 | endM8 => exact congrArg Encoded.code hrow.2.symm
  | clearM1 | clearM2 | clearM3 | clearM4 | clearM5 | clearM6 | clearM7 | clearM8 =>
    exact congrArg Encoded.code hrow.2.symm
  | _ => exact hrow.elim

/-! Command words (R99, R100). -/

/-- A command word is its op field before its arg field. -/
theorem cmdWord_of_fields {w : CmdWord} {op : BitVec 2} (h : w.toNat / 256 = op.toNat) :
    cmdWord op (w.setWidth 8) = w := by
  apply BitVec.eq_of_toNat_eq
  rw [cmdWord, BitVec.toNat_append, ← Nat.shiftLeft_add_eq_or_of_lt (BitVec.isLt _), Nat.shiftLeft_eq,
    BitVec.toNat_setWidth]
  omega

theorem eq_cmdWord (w : CmdWord) : ∃ op arg, w = cmdWord op arg ∧ w.setWidth 8 = arg := by
  refine ⟨BitVec.ofNat 2 (w.toNat / 256), _, (cmdWord_of_fields ?_).symm, rfl⟩
  have := w.isLt
  rw [BitVec.toNat_ofNat]
  omega

theorem decodeCmd_of_encode {i : Instr} {w : CmdWord} (h : encode i = .cmd w) : decodeCmd w = i := by
  cases i with
  | start m => cases h; exact Laws.RowEncoding.start m
  | push b => cases h; exact Laws.RowEncoding.push b
  | eos arg => cases h; exact Laws.RowEncoding.eos arg
  | rsvd arg => cases h; exact Laws.RowEncoding.rsvd arg
  | _ => cases h

theorem op_cases (op : BitVec 2) : op = 0 ∨ op = 1 ∨ op = 2 ∨ op = 3 := by
  revert op
  decide

theorem encode_decodeCmd (w : CmdWord) : encode (decodeCmd w) = .cmd w := by
  obtain ⟨op, arg, rfl, _⟩ := eq_cmdWord w
  rcases op_cases op with rfl | rfl | rfl | rfl
  · rw [decodeCmd_of_encode (i := .start arg) rfl]; rfl
  · rw [decodeCmd_of_encode (i := .push arg) rfl]; rfl
  · rw [decodeCmd_of_encode (i := .eos arg) rfl]; rfl
  · rw [decodeCmd_of_encode (i := .rsvd arg) rfl]; rfl

/-- The mask 0x300 leaves the op field. -/
theorem cmdWord_and_mask (op : BitVec 2) (arg : Byte) : cmdWord op arg &&& 0x300 = cmdWord op 0 := by
  have hmask : (0x300 : CmdWord) = (3 : BitVec 2) ++ (0 : Byte) := rfl
  have hop : op &&& 3 = op := BitVec.and_allOnes
  have harg : arg &&& 0 = 0 := BitVec.and_zero
  rw [cmdWord, cmdWord, hmask, BitVec.and_append, hop, harg]

/-- Settles O4: command words by their two fields; codes by the classifier's tests, which are the row conditions
(`rowCondition_iff`). -/
theorem decodeAndEncodeAgree : Obligations.DecodeAndEncodeAgree := by
  refine ⟨encode_decodeCmd, fun i w => decodeCmd_of_encode, fun i x c h => ?_, fun i x c h => ?_⟩
  · exact ⟨encode_of_rowCondition h, decodeCode_iff_rowCondition.mpr h⟩
  · have hrow := decodeCode_iff_rowCondition.mp h
    exact ⟨encode_of_rowCondition hrow, hrow⟩

/-- Settles O1: the mask leaves the op field, and each of its four values is a row. -/
theorem commandWordMatchesOneRow : Obligations.CommandWordMatchesOneRow := by
  intro w
  obtain ⟨op, arg, rfl, harg⟩ := eq_cmdWord w
  rw [harg, cmdWord_and_mask]
  rcases op_cases op with rfl | rfl | rfl | rfl
  · exact .inl ⟨rfl, decodeCmd_of_encode rfl⟩
  · exact .inr (.inl ⟨rfl, decodeCmd_of_encode rfl⟩)
  · exact .inr (.inr (.inl ⟨rfl, decodeCmd_of_encode rfl⟩))
  · exact .inr (.inr (.inr ⟨rfl, decodeCmd_of_encode rfl⟩))

/-- Settles O2: the decoder evaluates on each of the fixed words. -/
theorem specWordsDecode : Obligations.SpecWordsDecode :=
  ⟨rfl, rfl, rfl, rfl, rfl, rfl, rfl, rfl, rfl, rfl, rfl, rfl, rfl⟩

/-! The width bookkeeping at the start of a frame and after a Clear code (R93, R95). -/

theorem widthCtx_of_atFrameStart {s : State} (h : AtFrameStart s) : widthCtx s = .fresh s.m.toNat := by
  simp only [widthCtx, WidthCtx.fresh, h.cw, h.next, h.awaitFirst, endc]

theorem widthCtx_startFrame {m : Byte} (hm : frameSize m.toNat = true) (s : State) :
    widthCtx (startFrame m s) = .fresh m.toNat := by
  have hle := ((frameSize_iff _).mp hm).2
  have hsize : (startFrame m s).m.toNat = m.toNat := by
    rw [startFrame_m, BitVec.toNat_setWidth]
    omega
  rw [widthCtx_of_atFrameStart (atFrameStart_startFrame hm), hsize]

theorem widthCtx_clearCodes {s : State} (hm : frameSize s.m.toNat = true) :
    widthCtx (clearCodes s) = .fresh s.m.toNat := by
  have hle := ((frameSize_iff _).mp hm).2
  have hclear : clearCode s.m.toNat ≤ 256 := clearc_le hm
  have hend : endCode s.m.toNat = clearCode s.m.toNat + 1 := rfl
  have hcw : (clearCodes s).cw.toNat = s.m.toNat + 1 := Nat.mod_eq_of_lt (by omega)
  have hnext : (clearCodes s).nextCode.toNat = endCode s.m.toNat + 1 := Nat.mod_eq_of_lt (by omega)
  simp only [widthCtx, WidthCtx.fresh, hcw, hnext, clearCodes_m, clearCodes_awaitFirst]

/-- Settles O3: START and CLEAR leave the fresh bookkeeping of M, whose fields are R95's constants. -/
theorem frameConstantsOfEveryM : Obligations.FrameConstantsOfEveryM := by
  intro row hrow
  have hconst : frameSize row.1 = true ∧ clearCode row.1 = row.2.1 ∧ endCode row.1 = row.2.2.1 ∧
      (WidthCtx.fresh row.1).cw = row.2.2.2.1 ∧ (WidthCtx.fresh row.1).next = row.2.2.2.2 := by
    revert row
    decide
  obtain ⟨hm, hclear, hend, hcw, hnext⟩ := hconst
  refine ⟨hclear, hend, fun s => ⟨?_, fun hs => ?_⟩⟩
  · have hbyte : (BitVec.ofNat 8 row.1).toNat = row.1 := Nat.mod_eq_of_lt (by have := (frameSize_iff _).mp hm; omega)
    have hstart := widthCtx_startFrame (m := BitVec.ofNat 8 row.1) (by rw [hbyte]; exact hm) s
    rw [hbyte] at hstart
    exact ⟨(congrArg WidthCtx.cw hstart).trans hcw, (congrArg WidthCtx.next hstart).trans hnext⟩
  · have hctx := widthCtx_clearCodes (s := s) (by rw [hs]; exact hm)
    rw [hs] at hctx
    exact ⟨(congrArg WidthCtx.cw hctx).trans hcw, (congrArg WidthCtx.next hctx).trans hnext⟩

/-! Rows outside their condition (R94). -/

theorem whenClass_refused {k : CodeClass} {i : Instr} {c : Code} {s : State} (rule : Host.Outcome State Fault Refusal)
    (hrow : k.row s.m.toNat c = some i) (hnot : s.st = .run → ¬ rowCondition i (codeCtx s) c) :
    whenClass k c s rule = .refused .classNotSelected :=
  if_neg fun ⟨hr, hk⟩ => hnot hr (rowCondition_iff.mpr ⟨k, hk, hrow⟩)

/-- A control row's own code meets its condition wherever M is the row's size. -/
theorem rowCondition_of_controlSize {i : Instr} {m : Nat} {x : CodeCtx} {c : Code} (hsize : i.controlSize = some m)
    (henc : encode i = .code c) (hm : x.m.toNat = m) : rowCondition i x c := by
  cases i with
  | endM1 | endM2 | endM3 | endM4 | endM5 | endM6 | endM7 | endM8 =>
    cases hsize; cases henc
    exact ⟨by rw [hm]; rfl, hm, rfl⟩
  | clearM1 | clearM2 | clearM3 | clearM4 | clearM5 | clearM6 | clearM7 | clearM8 =>
    cases hsize; cases henc
    exact ⟨by rw [hm]; rfl, hm, rfl⟩
  | _ => cases hsize

theorem endOf_refused {m : Nat} {i : Instr} {c : Code} {s : State} (hsize : i.controlSize = some m)
    (henc : encode i = .code c) (hnot : s.st = .run → ¬ rowCondition i (codeCtx s) c) :
    endOf m s = .refused .classNotSelected :=
  if_neg fun ⟨hr, hm⟩ => hnot hr (rowCondition_of_controlSize (x := codeCtx s) hsize henc hm)

theorem clearOf_refused {m : Nat} {i : Instr} {c : Code} {s : State} (hsize : i.controlSize = some m)
    (henc : encode i = .code c) (hnot : s.st = .run → ¬ rowCondition i (codeCtx s) c) :
    clearOf m s = .refused .classNotSelected :=
  if_neg fun ⟨hr, hm⟩ => hnot hr (rowCondition_of_controlSize (x := codeCtx s) hsize henc hm)

/-- Settles O24: each row's meaning is its class's rule under a test that implies the row condition. -/
theorem rowsStopWhereNotSelected : Obligations.RowsStopWhereNotSelected := by
  intro i c s henc hnot
  cases i with
  | first d | invalid d | known d | kwkwk d =>
    cases henc
    exact whenClass_refused _ rfl hnot
  | endM1 | endM2 | endM3 | endM4 | endM5 | endM6 | endM7 | endM8 =>
    exact endOf_refused rfl henc hnot
  | clearM1 | clearM2 | clearM3 | clearM4 | clearM5 | clearM6 | clearM7 | clearM8 =>
    exact clearOf_refused rfl henc hnot
  | _ => cases henc

/-! Bits and numbers (20_memory.md R63, 30_encoding.md R92). -/

theorem bitsOf_length (n v : Nat) : (bitsOf n v).length = n := by
  induction n generalizing v with
  | zero => rfl
  | succ n ih => simp [bitsOf, ih]

theorem valueOf_bitsOf (n v : Nat) : valueOf (bitsOf n v) = v % 2 ^ n := by
  induction n generalizing v with
  | zero => simp [bitsOf, valueOf, Nat.mod_one]
  | succ n ih =>
    have hbit : (v % 2 == 1).toNat = v % 2 := by
      rcases Nat.mod_two_eq_zero_or_one v with h | h <;> simp [h]
    rw [bitsOf, valueOf, ih, hbit, Nat.pow_succ', Nat.mod_mul]

/-- The bits of a number split at any place. -/
theorem bitsOf_add (n k v : Nat) : bitsOf (n + k) v = bitsOf n v ++ bitsOf k (v / 2 ^ n) := by
  induction n generalizing v with
  | zero => simp [bitsOf]
  | succ n ih => rw [Nat.succ_add, bitsOf, bitsOf, ih, Nat.div_div_eq_div_mul, ← Nat.pow_succ', List.cons_append]

theorem bitsOf_take {w n : Nat} (h : w ≤ n) (v : Nat) : (bitsOf n v).take w = bitsOf w v := by
  obtain ⟨k, rfl⟩ := Nat.exists_eq_add_of_le h
  rw [bitsOf_add, List.take_left' (bitsOf_length w v)]

theorem bitsOf_drop {w n : Nat} (h : w ≤ n) (v : Nat) : (bitsOf n v).drop w = bitsOf (n - w) (v / 2 ^ w) := by
  obtain ⟨k, rfl⟩ := Nat.exists_eq_add_of_le h
  rw [bitsOf_add, List.drop_left' (bitsOf_length w v), Nat.add_sub_cancel_left]

/-- Bits above the place count for nothing. -/
theorem bitsOf_add_mul (n v a : Nat) : bitsOf n (v + 2 ^ n * a) = bitsOf n v := by
  induction n generalizing v with
  | zero => rfl
  | succ n ih =>
    have hsplit : v + 2 ^ (n + 1) * a = v + 2 * (2 ^ n * a) := by rw [Nat.pow_succ', Nat.mul_assoc]
    rw [bitsOf, bitsOf, hsplit, Nat.add_mul_mod_self_left, Nat.add_mul_div_left _ _ (by omega), ih]

theorem bitsOf_zero (n : Nat) : bitsOf n 0 = List.replicate n false := by
  induction n with
  | zero => rfl
  | succ n ih => rw [bitsOf, Nat.zero_div, ih]; rfl

/-- A bit list is the bits of its value, filled with 0. -/
theorem bitsOf_valueOf {n : Nat} {l : List Bool} (h : l.length ≤ n) :
    bitsOf n (valueOf l) = l ++ List.replicate (n - l.length) false := by
  induction l generalizing n with
  | nil => exact bitsOf_zero n
  | cons b l ih =>
    obtain ⟨n, rfl⟩ : ∃ k, n = k + 1 := ⟨n - 1, by simp at h; omega⟩
    have hbit : ((b.toNat + 2 * valueOf l) % 2 == 1) = b := by cases b <;> simp [Nat.add_mod]
    have hrest : (b.toNat + 2 * valueOf l) / 2 = valueOf l := by cases b <;> simp [Nat.add_mul_div_left]
    rw [valueOf, bitsOf, hbit, hrest, ih (by simpa using h), List.cons_append, List.length_cons, Nat.add_sub_add_right]

theorem valueOf_lt (l : List Bool) : valueOf l < 2 ^ l.length := by
  induction l with
  | nil => simp [valueOf]
  | cons b l ih =>
    have := b.toNat_le
    rw [valueOf, List.length_cons, Nat.pow_succ]
    omega

/-! The width bookkeeping follows the class rules (R93; 41_lzw_codes.md R140 to R148). -/

theorem widthCtx_after {s : State} {c : Code} {k : CodeClass} (hk : classify (codeCtx s) c = some k) :
    (widthCtx s).after c.toNat =
      match k with
      | .endFrame => widthCtx s
      | .clear => .fresh s.m.toNat
      | .first => { widthCtx s with awaitFirst := false }
      | .invalid => widthCtx s
      | .known => (widthCtx s).learn
      | .kwkwk => (widthCtx s).learn := by
  obtain ⟨_, h⟩ := classify_eq_some_iff.mp hk
  have hne := clearCode_ne_endCode s.m.toNat
  rw [WidthCtx.after]
  cases k with
  | endFrame => exact if_pos h
  | clear =>
    have h : c.toNat = clearCode s.m.toNat := h
    exact (if_neg (by rw [h]; exact hne)).trans (if_pos h)
  | first =>
    obtain ⟨he, hc, ha, hlt⟩ := h
    exact (if_neg he).trans ((if_neg hc).trans ((if_pos ha).trans (if_pos hlt)))
  | invalid =>
    obtain ⟨he, hc, ⟨ha, hle⟩ | ⟨ha, hlt⟩⟩ := h
    · exact (if_neg he).trans ((if_neg hc).trans ((if_pos ha).trans (if_neg (Nat.not_lt.mpr hle))))
    · exact (if_neg he).trans ((if_neg hc).trans ((if_neg (ne_true_of_eq_false ha)).trans (if_neg (Nat.not_le.mpr hlt))))
  | known =>
    obtain ⟨he, hc, ha, hlt⟩ := h
    exact (if_neg he).trans ((if_neg hc).trans ((if_neg (ne_true_of_eq_false ha)).trans (if_pos (Nat.le_of_lt hlt))))
  | kwkwk =>
    obtain ⟨he, hc, ha, heq⟩ := h
    exact (if_neg he).trans ((if_neg hc).trans ((if_neg (ne_true_of_eq_false ha)).trans (if_pos (Nat.le_of_eq heq))))

theorem widthCtx_stops_iff {s : State} {c : Code} {k : CodeClass} (hk : classify (codeCtx s) c = some k) :
    (widthCtx s).stops c.toNat = true ↔ k = .endFrame ∨ k = .invalid := by
  obtain ⟨_, h⟩ := classify_eq_some_iff.mp hk
  have hne := clearCode_ne_endCode s.m.toNat
  simp only [WidthCtx.stops, widthCtx, Bool.or_eq_true, beq_iff_eq, Bool.and_eq_true, bne_iff_ne]
  cases k with
  | endFrame =>
    have h : c.toNat = endCode s.m.toNat := h
    simp [h]
  | clear =>
    have h : c.toNat = clearCode s.m.toNat := h
    simp [h, hne]
  | first =>
    simp only [classCondition, codeCtx] at h
    obtain ⟨he, _, ha, hlt⟩ := h
    simp [he, ha, Nat.not_le.mpr hlt]
  | invalid =>
    simp only [classCondition, codeCtx] at h
    obtain ⟨_, hc, ⟨ha, hle⟩ | ⟨ha, hlt⟩⟩ := h
    · simp [hc, ha, hle]
    · simp [hc, ha, hlt]
  | known =>
    simp only [classCondition, codeCtx] at h
    obtain ⟨he, _, ha, hlt⟩ := h
    simp [he, ha, Nat.not_lt.mpr (Nat.le_of_lt hlt)]
  | kwkwk =>
    simp only [classCondition, codeCtx] at h
    obtain ⟨he, _, ha, heq⟩ := h
    simp [he, ha, Nat.not_lt.mpr (Nat.le_of_eq heq)]

theorem widthCtx_dataCodeStep {s t : State} {c : Code} {l : List Byte} {f : Byte} {depth : Nat}
    (hs : DataCodeStep s t c l f depth) : widthCtx t = (widthCtx s).learn := by
  have hnext := hs.nextCode
  have hcw := hs.cw
  rw [hnext] at hcw
  simp only [widthCtx, WidthCtx.learn, hs.m, hs.awaitFirst, hnext, hcw, Config.dictSize, Config.cwMax]
  rfl

/-- A code's rule moves the bookkeeping as R93 says, and leaves RUN where the code stops it. -/
theorem widthCtx_of_codeRan {c : Code} {s t : State} (h : CodeRan c s t) (hr : s.st = .run) :
    widthCtx t = (widthCtx s).after c.toNat ∧ (t.st = .run ↔ (widthCtx s).stops c.toNat = false) := by
  rw [← Bool.not_eq_true]
  cases h with
  | endFrame hk =>
    rw [widthCtx_after hk, widthCtx_stops_iff hk]
    exact ⟨rfl, by simp⟩
  | clear hk =>
    obtain ⟨hm, _⟩ := classify_eq_some_iff.mp hk
    rw [widthCtx_after hk, widthCtx_stops_iff hk]
    exact ⟨widthCtx_clearCodes hm, by simp [hr]⟩
  | first hk =>
    rw [widthCtx_after hk, widthCtx_stops_iff hk]
    exact ⟨rfl, by simp [hr]⟩
  | invalid hk =>
    rw [widthCtx_after hk, widthCtx_stops_iff hk]
    exact ⟨rfl, by simp⟩
  | known hk _ _ hs _ _ =>
    rw [widthCtx_after hk, widthCtx_stops_iff hk]
    exact ⟨widthCtx_dataCodeStep hs, by simp [hs.st, hr]⟩
  | kwkwk hk _ _ hs _ _ =>
    rw [widthCtx_after hk, widthCtx_stops_iff hk]
    exact ⟨widthCtx_dataCodeStep hs, by simp [hs.st, hr]⟩

/-! The bit buffer as a queue (40_bit_code_reader.md R130). -/

/-- The buffered bits in arrival order. -/
def bufferedBits (s : State) : List Bool := bitsOf s.bc.toNat s.bb.toNat

theorem bufferedBits_length (s : State) : (bufferedBits s).length = s.bc.toNat := bitsOf_length _ _

/-- The code a fetch reads is the next CW bits. -/
theorem fetchedCode_toNat {s : State} (hw : s.cw.toNat ≤ 12) (hle : s.cw.toNat ≤ s.bc.toNat) :
    (BitVec.ofNat 12 (s.bb.toNat % 2 ^ s.cw.toNat)).toNat = valueOf ((bufferedBits s).take s.cw.toNat) := by
  have hlt : s.bb.toNat % 2 ^ s.cw.toNat < 2 ^ 12 :=
    Nat.lt_of_lt_of_le (Nat.mod_lt _ (Nat.two_pow_pos _)) (Nat.pow_le_pow_right (by omega) hw)
  rw [BitVec.toNat_ofNat, Nat.mod_eq_of_lt hlt, bufferedBits, bitsOf_take hle, valueOf_bitsOf]

/-- Settles O58: the fetch takes the next CW bits and leaves the bookkeeping; then each class's rule moves it
(`widthCtx_of_codeRan`). -/
theorem codeStepFollowsTheBookkeeping : Obligations.CodeStepFollowsTheBookkeeping := by
  intro s h hr hle
  have hw := widthOk_of_ne_zero h (m_ne_zero_of_run h hr)
  obtain ⟨t, ht⟩ := execCodeStep_answers h hr hle
  obtain ⟨⟨c, u⟩, hfetch, hrun⟩ := andThen_eq_next.mp ht
  obtain ⟨_, _, _, rfl, rfl⟩ := fetchCode_eq_next.mp hfetch
  obtain ⟨hctx, hstop⟩ := widthCtx_of_codeRan (codeRan_of_runCode hrun) hr
  exact ⟨_, _, t, hfetch, ht, fetchedCode_toNat ((widthOk_iff _).mp hw).2 hle, hctx, hstop⟩

/-! PACK and the cut by the bookkeeping (30_encoding.md R93, R105). -/

theorem streamBits_cons (b : Byte) (bytes : List Byte) : streamBits (b :: bytes) = bitsOf 8 b.toNat ++ streamBits bytes :=
  List.flatMap_cons

/-- The bytes of a bit stream are the stream again, with the last byte's high bits 0 (R105). -/
theorem streamBits_bytesWithin {n : Nat} {bits : List Bool} (h : bits.length ≤ n) :
    ∃ pad, streamBits (bytesWithin n bits) = bits ++ pad := by
  induction n generalizing bits with
  | zero => exact ⟨[], by rw [List.eq_nil_of_length_eq_zero (Nat.le_zero.mp h)]; rfl⟩
  | succ n ih =>
    cases bits with
    | nil => exact ⟨[], rfl⟩
    | cons b rest =>
      obtain ⟨pad, hpad⟩ := ih (bits := (b :: rest).drop 8) (by simp at h ⊢; omega)
      have hlen : ((b :: rest).take 8).length ≤ 8 := List.length_take_le _ _
      have hbyte : (BitVec.ofNat 8 (valueOf ((b :: rest).take 8))).toNat = valueOf ((b :: rest).take 8) :=
        Nat.mod_eq_of_lt (Nat.lt_of_lt_of_le (valueOf_lt _) (Nat.pow_le_pow_right (by omega) hlen))
      rw [bytesWithin, streamBits_cons, hbyte, bitsOf_valueOf hlen, hpad]
      by_cases hfull : 8 ≤ (b :: rest).length
      · refine ⟨pad, ?_⟩
        rw [List.length_take_of_le hfull, Nat.sub_self, List.replicate_zero, List.append_nil, ← List.append_assoc,
          List.take_append_drop]
      · have hshort : (b :: rest).length ≤ 8 := by omega
        refine ⟨List.replicate (8 - ((b :: rest).take 8).length) false ++ pad, ?_⟩
        rw [List.drop_eq_nil_of_le hshort, List.take_of_length_le hshort, List.nil_append, List.append_assoc]

theorem streamBits_bytesOf (bits : List Bool) : ∃ pad, streamBits (bytesOf bits) = bits ++ pad :=
  streamBits_bytesWithin (Nat.le_refl _)

/-- Cutting a packed stream gives the codes back, and then cuts what follows it. -/
theorem cutCodes_packBits {codes : List Nat} {x : WidthCtx} {bits : List Bool} (h : packBits x codes = some bits)
    (k : Nat) (rest : List Bool) :
    cutCodes (codes.length + k) x (bits ++ rest) = codes ++ cutCodes k (codes.foldl WidthCtx.after x) rest := by
  induction codes generalizing x bits with
  | nil =>
    cases h
    simp
  | cons c codes ih =>
    rw [packBits] at h
    split at h
    · next hfits =>
      obtain ⟨tail, htail, rfl⟩ := Option.map_eq_some_iff.mp h
      have hlen := bitsOf_length x.cw c
      rw [List.length_cons, Nat.succ_add, cutCodes, if_pos (by simp [hlen]), List.append_assoc, List.take_left' hlen,
        List.drop_left' hlen, valueOf_bitsOf, Nat.mod_eq_of_lt hfits]
      exact congrArg (c :: ·) (ih htail)
    · cases h

theorem untilStop_append_take (x : WidthCtx) (codes more : List Nat) :
    (x.untilStop (codes ++ more)).take codes.length = x.untilStop codes := by
  induction codes generalizing x with
  | nil => rfl
  | cons c codes ih =>
    rw [List.cons_append, WidthCtx.untilStop, WidthCtx.untilStop]
    split
    · simp
    · rw [List.length_cons, List.take_succ_cons, ih]

/-! The codes of a bit stream up to the first that stops the block (R93, 41_lzw_codes.md R140). -/

theorem le_ite_succ (p : Prop) [Decidable p] (n : Nat) : n ≤ if p then n + 1 else n := by
  split
  · exact Nat.le_succ n
  · exact Nat.le_refl n

theorem cw_le_learn (x : WidthCtx) : x.cw ≤ x.learn.cw := le_ite_succ _ _

theorem one_le_cw_after {x : WidthCtx} (h : 1 ≤ x.cw) (c : Nat) : 1 ≤ (x.after c).cw := by
  unfold WidthCtx.after
  split
  · exact h
  · split
    · exact Nat.le_add_left _ _
    · split
      · split
        · exact h
        · exact h
      · split
        · exact Nat.le_trans h (cw_le_learn x)
        · exact h

theorem cutCodes_of_short {x : WidthCtx} {bits : List Bool} (h : bits.length < x.cw) (n : Nat) :
    cutCodes n x bits = [] := by
  cases n with
  | zero => rfl
  | succ n => exact if_neg (Nat.not_le.mpr h)

/-- Every code takes at least one bit, so a cut of as many codes as there are bits is the whole cut. -/
theorem cutCodes_enough {n k : Nat} {x : WidthCtx} {bits : List Bool} (hx : 1 ≤ x.cw) (hn : bits.length ≤ n)
    (hk : bits.length ≤ k) : cutCodes n x bits = cutCodes k x bits := by
  induction n generalizing k x bits with
  | zero =>
    have hshort : bits.length < x.cw := by omega
    rw [cutCodes_of_short hshort, cutCodes_of_short hshort]
  | succ n ih =>
    by_cases hle : x.cw ≤ bits.length
    · obtain ⟨k, rfl⟩ : ∃ j, k = j + 1 := ⟨k - 1, by omega⟩
      simp only [cutCodes, if_pos hle]
      exact congrArg (_ :: ·)
        (ih (one_le_cw_after hx _) (by rw [List.length_drop]; omega) (by rw [List.length_drop]; omega))
    · rw [cutCodes_of_short (by omega), cutCodes_of_short (by omega)]

/-- The codes that the bookkeeping cuts from a bit stream, up to and with the first that stops the block. -/
def streamCodes (x : WidthCtx) (bits : List Bool) : List Nat := x.untilStop (cutCodes bits.length x bits)

theorem streamCodes_of_short {x : WidthCtx} {bits : List Bool} (h : bits.length < x.cw) : streamCodes x bits = [] := by
  rw [streamCodes, cutCodes_of_short h]
  rfl

theorem streamCodes_cons {x : WidthCtx} {bits : List Bool} {c : Nat} (hx : 1 ≤ x.cw) (hle : x.cw ≤ bits.length)
    (hc : c = valueOf (bits.take x.cw)) :
    streamCodes x bits = c :: if x.stops c then [] else streamCodes (x.after c) (bits.drop x.cw) := by
  have hcut : cutCodes bits.length x bits =
      c :: cutCodes (bits.drop x.cw).length (x.after c) (bits.drop x.cw) := by
    rw [cutCodes_enough hx (Nat.le_refl _) (Nat.le_succ _), cutCodes, if_pos hle, ← hc]
    exact congrArg (c :: ·) (cutCodes_enough (one_le_cw_after hx c) (by rw [List.length_drop]; omega) (Nat.le_refl _))
  rw [streamCodes, hcut, WidthCtx.untilStop]
  split <;> rfl

/-- Of a packed code list with anything behind it these are the codes up to the stop, as far as the list goes. -/
theorem streamCodes_packBits {codes : List Nat} {x : WidthCtx} {bits : List Bool} (hx : 1 ≤ x.cw)
    (h : packBits x codes = some bits) (rest : List Bool) :
    (streamCodes x (bits ++ rest)).take codes.length = x.untilStop codes := by
  rw [streamCodes, cutCodes_enough hx (Nat.le_refl _) (Nat.le_add_left _ codes.length), cutCodes_packBits h,
    untilStop_append_take]

/-! The block fetches the codes of its bit stream (41_lzw_codes.md R140, 43_host_commands.md R193, R194). -/

/-- The codes in the buffered bits of a block in RUN and the bits still to come. -/
def remainingCodes (s : State) (bits : List Bool) : List Nat :=
  if s.st = .run then streamCodes (widthCtx s) (bufferedBits s ++ bits) else []

theorem remainingCodes_of_run {s : State} (h : s.st = .run) (bits : List Bool) :
    remainingCodes s bits = streamCodes (widthCtx s) (bufferedBits s ++ bits) :=
  if_pos h

theorem remainingCodes_of_not_run {s : State} (h : s.st ≠ .run) (bits : List Bool) : remainingCodes s bits = [] :=
  if_neg h

theorem runCode_bb {c : Code} {s t : State} (h : runCode c s = .next t) : t.bb = s.bb := by
  cases codeRan_of_runCode h with
  | endFrame _ => rfl
  | clear _ => rfl
  | first _ => rfl
  | invalid _ => rfl
  | known _ _ _ hs _ _ => exact hs.bb
  | kwkwk _ _ _ hs _ _ => exact hs.bb

/-- A code step takes the first of the remaining codes. -/
theorem remainingCodes_codeStep {s t : State} (ht : execCodeStep s = .next t) (bits : List Bool) :
    ∃ c u, fetchCode s = .next (c, u) ∧ runCode c u = .next t ∧
      remainingCodes s bits = c.toNat :: remainingCodes t bits := by
  obtain ⟨⟨c, u⟩, hfetch, hrun⟩ := andThen_eq_next.mp ht
  obtain ⟨hr, hw, hle, rfl, rfl⟩ := fetchCode_eq_next.mp hfetch
  obtain ⟨hctx, hstop⟩ := widthCtx_of_codeRan (codeRan_of_runCode hrun) hr
  have hsame : widthCtx (afterRead s.cw.toNat s) = widthCtx s := rfl
  rw [hsame] at hctx hstop
  obtain ⟨hlo, hhi⟩ := (widthOk_iff _).mp hw
  refine ⟨_, _, hfetch, hrun, ?_⟩
  have hbuf : bufferedBits t = (bufferedBits s).drop s.cw.toNat := by
    rw [bufferedBits, bufferedBits, bitsOf_drop hle, runCode_bc hrun, runCode_bb hrun, afterRead_bc_toNat, afterRead_bb,
      BitVec.toNat_ushiftRight, Nat.shiftRight_eq_div_pow]
  have hlen := bufferedBits_length s
  have hfits : (widthCtx s).cw ≤ (bufferedBits s ++ bits).length := by
    rw [List.length_append, hlen]
    exact Nat.le_trans hle (Nat.le_add_right _ _)
  have hcode : (BitVec.ofNat 12 (s.bb.toNat % 2 ^ s.cw.toNat)).toNat =
      valueOf ((bufferedBits s ++ bits).take (widthCtx s).cw) := by
    rw [List.take_append_of_le_length (by rw [hlen]; exact hle)]
    exact fetchedCode_toNat hhi hle
  have hrest : (bufferedBits s ++ bits).drop (widthCtx s).cw = bufferedBits t ++ bits := by
    rw [List.drop_append_of_le_length (by rw [hlen]; exact hle), hbuf]
    rfl
  rw [remainingCodes_of_run hr, streamCodes_cons hlo hfits hcode, hrest]
  congr 1
  by_cases hgo : (widthCtx s).stops (BitVec.ofNat 12 (s.bb.toNat % 2 ^ s.cw.toNat)).toNat = false
  · rw [if_neg (ne_true_of_eq_false hgo), remainingCodes_of_run (hstop.mpr hgo), hctx]
  · rw [if_pos (eq_true_of_ne_false hgo), remainingCodes_of_not_run (mt hstop.mp hgo)]

/-- The drain loop fetches the remaining codes as far as the buffer goes. -/
theorem remainingCodes_drain {n : Nat} {s t : State} (h : s.FrameInv) (ht : drainWithin n s = .next t)
    (bits : List Bool) :
    remainingCodes s bits = (drainCodes n s).map (·.toNat) ++ remainingCodes t bits := by
  induction n generalizing s with
  | zero => cases ht; rfl
  | succ n ih =>
    by_cases hr : s.st = .run
    · have hw := widthOk_of_ne_zero h (m_ne_zero_of_run h hr)
      by_cases hle : s.cw.toNat ≤ s.bc.toNat
      · simp only [drainWithin, hr, hw, (hasBits_iff _ _).mpr hle, if_true] at ht
        obtain ⟨v, hv, ht⟩ := andThen_eq_next.mp ht
        obtain ⟨c, u, hfetch, hrun, hcodes⟩ := remainingCodes_codeStep hv bits
        rw [hcodes, ih (frameInv_execCodeStep h hv) ht, drainCodes, if_pos ((codePending_iff s).mpr ⟨hr, hle⟩)]
        simp only [hfetch, hrun, List.map_cons, List.cons_append]
      · have hno : codePending s = false := by simp [codePending, hasBits, hle]
        simp only [drainWithin, hr, hw, hasBits, decide_eq_true_eq, hle, if_true, if_false] at ht
        cases ht
        simp [drainCodes, hno]
    · have hno : codePending s = false := by simp [codePending, hr]
      simp only [drainWithin, hr, if_false] at ht
      cases ht
      simp [drainCodes, hno]

/-- SHIFT_IN appends the byte's bits (40_bit_code_reader.md R130). -/
theorem bufferedBits_shiftByte {b : Byte} {s : State} (hbits : s.bb.toNat < 2 ^ s.bc.toNat) (hbc : s.bc.toNat ≤ 24) :
    bufferedBits (shiftByte b s) = bufferedBits s ++ bitsOf 8 b.toNat := by
  have hshift : (b.setWidth 32 <<< s.bc.toNat).toNat = b.toNat <<< s.bc.toNat := by
    have hbyte := b.isLt
    have hb : b.toNat * 2 ^ s.bc.toNat < 2 ^ 8 * 2 ^ 24 :=
      Nat.mul_lt_mul_of_lt_of_le hbyte (Nat.pow_le_pow_right (by omega) hbc) (Nat.two_pow_pos _)
    have hwide : (b.setWidth 32).toNat = b.toNat := by
      rw [BitVec.toNat_setWidth]
      omega
    rw [BitVec.toNat_shiftLeft, hwide]
    exact Nat.mod_eq_of_lt (by rw [Nat.shiftLeft_eq]; exact hb)
  have hbb : (shiftByte b s).bb.toNat = s.bb.toNat + 2 ^ s.bc.toNat * b.toNat := by
    rw [shiftByte_bb, BitVec.toNat_or, hshift, Nat.or_comm, ← Nat.shiftLeft_add_eq_or_of_lt hbits, Nat.shiftLeft_eq,
      Nat.add_comm, Nat.mul_comm]
  rw [bufferedBits, shiftByte_bc_toNat hbc, hbb, bitsOf_add, bitsOf_add_mul, Nat.add_mul_div_left _ _ (Nat.two_pow_pos _),
    Nat.div_eq_of_lt hbits, Nat.zero_add]
  rfl

theorem bc_le_of_inv {s : State} (h : s.Inv) (hr : s.st = .run) : s.bc.toNat ≤ 11 := by
  have hdrained := h.drained hr
  obtain ⟨_, _, _, hcw, _⟩ := h.frame.ranges (m_ne_zero_of_run h.frame hr)
  omega

/-- PUSH in RUN is SHIFT_IN and the drain loop (43_host_commands.md R193). -/
theorem execPush_run {b : Byte} {s : State} (h : s.Inv) (hr : s.st = .run) :
    execPush b s = execDrain (shiftByte b s) := by
  have hbc := bc_le_of_inv h hr
  have hfits : s.bc.toNat + 8 ≤ Config.bbBits := by simp only [Config.bbBits]; omega
  simp only [execPush, hr, execShiftIn, hfits, if_true, andThen]

theorem execPush_not_run {b : Byte} {s t : State} (hr : s.st ≠ .run) (ht : execPush b s = .next t) : t.st ≠ .run := by
  unfold execPush at ht
  split at ht
  · cases ht; simp [badCommand]
  · next h => exact absurd h hr
  · cases ht; exact hr
  · cases ht; exact hr

/-- Pushing bytes one by one fetches the remaining codes of the stream (43_host_commands.md R194). -/
theorem pushCodes_eq_remainingCodes {s : State} (h : s.Inv) (bytes : List Byte) :
    (pushCodes bytes s).map (·.toNat) = remainingCodes s (streamBits bytes) := by
  induction bytes generalizing s with
  | nil =>
    by_cases hr : s.st = .run
    · rw [remainingCodes_of_run hr, streamCodes_of_short]
      · rfl
      · rw [streamBits, List.flatMap_nil, List.append_nil, bufferedBits_length]
        exact h.drained hr
    · rw [remainingCodes_of_not_run hr]
      rfl
  | cons b rest ih =>
    obtain ⟨t, ht, hinv⟩ := execPush_answers h b
    simp only [pushCodes, ht]
    rw [List.map_append, ih hinv]
    by_cases hr : s.st = .run
    · have hbc := bc_le_of_inv h hr
      have hm := m_ne_zero_of_run h.frame hr
      have hbuf := bufferedBits_shiftByte (b := b) h.frame.bitsAbove (by omega)
      have hdrain : drainWithin (s.bc.toNat + 9) (shiftByte b s) = .next t := by
        rw [← ht, execPush_run h hr, execDrain, shiftByte_bc_toNat (by omega)]
      rw [if_pos hr, ← remainingCodes_drain (frameInv_shiftByte h.frame hm hbc) hdrain,
        remainingCodes_of_run (s := shiftByte b s) hr, remainingCodes_of_run hr, hbuf, streamBits_cons, List.append_assoc]
      rfl
    · rw [if_neg hr, remainingCodes_of_not_run hr, remainingCodes_of_not_run (execPush_not_run hr ht)]
      rfl

/-- Settles O56: the packed bytes are the codes' bits and padding; the cut gives the codes back (`cutCodes_packBits`), and the
block fetches what the cut gives up to the stop (`pushCodes_eq_remainingCodes`). -/
theorem packedCodesAreCutBack : Obligations.PackedCodesAreCutBack := by
  constructor
  · intro codes x bits h
    obtain ⟨pad, hpad⟩ := streamBits_bytesOf bits
    rw [hpad]
    exact (cutCodes_packBits h 0 pad).trans (List.append_nil _)
  · intro m codes bits s s0 h hm hstart hpack
    obtain ⟨pad, hpad⟩ := streamBits_bytesOf bits
    have hs0 : startFrame m s = s0 := by
      have hexec : exec (.start m) s = .next (startFrame m s) := if_pos hm
      simpa [hexec] using hstart
    subst hs0
    have hcodes : remainingCodes (startFrame m s) (bits ++ pad) = streamCodes (.fresh m.toNat) (bits ++ pad) := by
      rw [remainingCodes_of_run rfl, widthCtx_startFrame hm]
      rfl
    rw [pushCodes_eq_remainingCodes (inv_startFrame h.frame hm), hpad, hcodes]
    exact streamCodes_packBits (Nat.le_add_left _ _) hpack pad

end Sys2Proof.Proofs

namespace Sys2Proof.Proofs

open Sys2Proof Sys2Proof.Machine

/-! The family 40_bit_code_reader.md: the reader's operations as instructions (R121 to R125). -/

theorem exec_shiftIn (b : Byte) (s : State) : exec (.shiftIn b) s = execShiftIn b s := rfl
theorem exec_hasBits (w : BitVec 4) (s : State) : exec (.hasBits w) s = execHasBits w s := rfl
theorem exec_readCode (w : BitVec 4) (s : State) : exec (.readCode w) s = execReadCode w s := rfl
theorem exec_readCodeFail (w : BitVec 4) (s : State) : exec (.readCodeFail w) s = execReadCodeFail w s := rfl

/-- The byte fits in the 32 bits of BB exactly where BC ≤ 24 (R121). -/
theorem execShiftIn_eq (b : Byte) (s : State) :
    execShiftIn b s = if s.bc.toNat ≤ 24 then .next (shiftByte b s) else .refused .shiftInOverflow := by
  have hfits : s.bc.toNat + 8 ≤ Config.bbBits ↔ s.bc.toNat ≤ 24 := show s.bc.toNat + 8 ≤ 32 ↔ _ by omega
  simp only [execShiftIn, hfits]

/-- The widths refused by R125 are the ones outside R122's domain. -/
theorem not_widthOk {w : Nat} (h : w = 0 ∨ 12 < w) : ¬ widthOk w = true := by
  rw [widthOk_iff]
  omega

theorem readBits_of_lt {w : Nat} {s : State} (h : s.bc.toNat < w) : readBits w s = none :=
  if_neg fun hb => Nat.not_le.mpr h ((hasBits_iff w s).mp hb)

theorem execReadCode_of_le {w : BitVec 4} {s : State} (hw : widthOk w.toNat = true) (h : w.toNat ≤ s.bc.toNat) :
    execReadCode w s = .next
      { afterRead w.toNat s with ret := .code (BitVec.ofNat 12 (s.bb.toNat % 2 ^ w.toNat)) } := by
  simp only [execReadCode, hw, if_true, readBits_of_le h]

theorem execReadCode_of_lt {w : BitVec 4} {s : State} (hw : widthOk w.toNat = true) (h : s.bc.toNat < w.toNat) :
    execReadCode w s = .next { s with ret := .insufficientBits } := by
  simp only [execReadCode, hw, if_true, readBits_of_lt h]

/-- READ_CODE.fail is the half of READ_CODE where the buffer is short (R124). -/
theorem execReadCodeFail_eq {w : BitVec 4} (s : State) (hw : widthOk w.toNat = true) :
    execReadCodeFail w s =
      if w.toNat ≤ s.bc.toNat then .refused .readDoesNotFail else .next { s with ret := .insufficientBits } := by
  simp only [execReadCodeFail, hw, if_true, hasBits_iff]

/-- A code of at most 12 bits fits in the code word. -/
theorem readCode_toNat {w : Nat} (hw : w ≤ 12) (v : Nat) : (BitVec.ofNat 12 (v % 2 ^ w)).toNat = v % 2 ^ w := by
  have hlt : v % 2 ^ w < 2 ^ 12 :=
    Nat.lt_of_lt_of_le (Nat.mod_lt _ (Nat.two_pow_pos _)) (Nat.pow_le_pow_right (by omega) hw)
  rw [BitVec.toNat_ofNat, Nat.mod_eq_of_lt hlt]

/-- BC never borrows where READ_CODE succeeds. -/
theorem afterRead_bc_eq_sub {w : BitVec 4} {s : State} (h : w.toNat ≤ s.bc.toNat) :
    (afterRead w.toNat s).bc = s.bc - w.setWidth 6 := by
  apply BitVec.eq_of_toNat_eq
  have hwide : (w.setWidth 6).toNat = w.toNat := BitVec.toNat_setWidth_of_le (by omega)
  rw [afterRead_bc_toNat, BitVec.toNat_sub_of_le (by rw [BitVec.le_def, hwide]; exact h), hwide]

/-- Settles O12: `execShiftIn_eq` where the byte fits. -/
theorem shiftInAppendsTheByte : Obligations.ShiftInAppendsTheByte := by
  intro b s h
  rw [exec_shiftIn, execShiftIn_eq, if_pos h]
  rfl

/-- Settles O13: the width is in the domain, and the flag is the comparison. -/
theorem hasBitsComparesTheCount : Obligations.HasBitsComparesTheCount := by
  intro w s hlo hhi
  rw [exec_hasBits]
  exact if_pos ((widthOk_iff _).mpr ⟨hlo, hhi⟩)

/-- Settles O14: `execReadCode_of_le`, with the code and the count as the numbers R123 writes. -/
theorem readCodeTakesTheLowBits : Obligations.ReadCodeTakesTheLowBits := by
  intro w s hlo hhi hle
  refine ⟨_, readCode_toNat hhi _, ?_⟩
  rw [exec_readCode, execReadCode_of_le ((widthOk_iff _).mpr ⟨hlo, hhi⟩) hle, ← afterRead_bc_eq_sub hle]
  rfl

/-- Settles O15: READ_CODE and READ_CODE.fail where the buffer is short. -/
theorem readCodeFailureChangesNothing : Obligations.ReadCodeFailureChangesNothing := by
  intro w s hlo hhi hlt
  have hw := (widthOk_iff _).mpr ⟨hlo, hhi⟩
  constructor
  · rw [exec_readCode, execReadCode_of_lt hw hlt]
  · rw [exec_readCodeFail, execReadCodeFail_eq s hw, if_neg (Nat.not_le.mpr hlt)]

/-- Settles O16: the width test comes first in each operation; then SHIFT_IN and READ_CODE.fail test BC. -/
theorem readerStopsOutsideItsDomain : Obligations.ReaderStopsOutsideItsDomain := by
  refine ⟨fun w s hw => ?_, fun b s hbc => ?_, fun w s hlo hhi hle => ?_⟩
  · rw [exec_hasBits, exec_readCode, exec_readCodeFail]
    exact ⟨if_neg (not_widthOk hw), if_neg (not_widthOk hw), if_neg (not_widthOk hw)⟩
  · rw [exec_shiftIn, execShiftIn_eq, if_neg (Nat.not_le.mpr hbc)]
  · rw [exec_readCodeFail, execReadCodeFail_eq s ((widthOk_iff _).mpr ⟨hlo, hhi⟩), if_pos hle]

/-! BB and BC as a queue of bits (R130). -/

/-- The bits of BB at BC and above stay 0 when bits are taken from below. -/
theorem afterRead_bb_lt {w : Nat} {s : State} (hbits : s.bb.toNat < 2 ^ s.bc.toNat) (hle : w ≤ s.bc.toNat) :
    (afterRead w s).bb.toNat < 2 ^ (afterRead w s).bc.toNat := by
  have hpow : 2 ^ s.bc.toNat = 2 ^ w * 2 ^ (s.bc.toNat - w) := by rw [← Nat.pow_add, Nat.add_sub_cancel' hle]
  rw [afterRead_bc_toNat, afterRead_bb, BitVec.toNat_ushiftRight, Nat.shiftRight_eq_div_pow]
  exact Nat.div_lt_of_lt_mul (hpow ▸ hbits)

/-- The low bits of a number are the bits of its remainder. -/
theorem bitsOf_mod_two_pow (w v : Nat) : bitsOf w (v % 2 ^ w) = bitsOf w v :=
  calc bitsOf w (v % 2 ^ w) = bitsOf w (v % 2 ^ w + 2 ^ w * (v / 2 ^ w)) := (bitsOf_add_mul w _ _).symm
    _ = bitsOf w v := by rw [Nat.mod_add_div]

/-- READ_CODE cuts the buffered bits after the first w. -/
theorem bufferedBits_eq_append_afterRead {w : Nat} {s : State} (hle : w ≤ s.bc.toNat) :
    bufferedBits s = bitsOf w s.bb.toNat ++ bufferedBits (afterRead w s) := by
  have hcut := bitsOf_add w (s.bc.toNat - w) s.bb.toNat
  rw [Nat.add_sub_cancel' hle] at hcut
  rw [bufferedBits, bufferedBits, afterRead_bc_toNat, afterRead_bb, BitVec.toNat_ushiftRight,
    Nat.shiftRight_eq_div_pow, hcut]

/-- Settles O17: SHIFT_IN appends (`bufferedBits_shiftByte`), READ_CODE takes from the front
(`bufferedBits_eq_append_afterRead`), and both leave the bits at BC and above 0. -/
theorem readerIsAQueueOfBits : Obligations.ReaderIsAQueueOfBits := by
  intro s hbits
  constructor
  · intro b hbc
    refine ⟨?_, bufferedBits_shiftByte hbits hbc⟩
    rw [shiftByte_bc_toNat hbc]
    exact shiftByte_bb_lt hbits
  · intro w c t hw hread
    obtain ⟨hle, rfl, rfl⟩ := readBits_eq_some.mp hread
    refine ⟨afterRead_bb_lt hbits hle, ?_⟩
    rw [readCode_toNat hw, bitsOf_mod_two_pow]
    exact bufferedBits_eq_append_afterRead hle

end Sys2Proof.Proofs

namespace Sys2Proof.Proofs

open Sys2Proof Sys2Proof.Machine

/-! The family 41_lzw_codes.md: what a code step runs (R140). -/

/-- The rule of each class (R141 to R146). -/
def classRule (c : Code) (s : State) : CodeClass → Host.Outcome State Fault Refusal
  | .endFrame => endRule s
  | .clear => clearRule s
  | .first => firstRule c s
  | .invalid => invalidRule c s
  | .known => knownRule c s
  | .kwkwk => kwkwkRule c s

theorem runCode_of_classify {c : Code} {s : State} {k : CodeClass} (hk : classify (codeCtx s) c = some k) :
    runCode c s = classRule c s k := by
  rw [runCode, hk]
  cases k <;> rfl

theorem classify_eq_none {x : CodeCtx} (c : Code) (h : frameSize x.m.toNat ≠ true) : classify x c = none := if_neg h

theorem endOf_of_run {s : State} {m : Nat} (hr : s.st = .run) (hm : s.m.toNat = m) :
    endOf m s = .next { s with st := .done } :=
  if_pos ⟨hr, hm⟩

theorem clearOf_of_run {s : State} {m : Nat} (hr : s.st = .run) (hm : s.m.toNat = m) :
    clearOf m s = .next
      { s with
        nextCode := BitVec.ofNat 13 (endCode m + 1), cw := BitVec.ofNat 4 (m + 1), awaitFirst := true, prev := 0 } := by
  subst hm
  exact if_pos ⟨hr, rfl⟩

theorem exec_endRow {m : Nat} {i : Instr} (h : endRow m = some i) (s : State) : exec i s = endOf m s := by
  unfold endRow at h
  split at h <;> cases h <;> rfl

theorem exec_clearRow {m : Nat} {i : Instr} (h : clearRow m = some i) (s : State) : exec i s = clearOf m s := by
  unfold clearRow at h
  split at h <;> cases h <;> rfl

/-- A row of the opcode table, run where its condition holds, is the rule of the code's class. -/
theorem exec_of_rowCondition {i : Instr} {c : Code} {s : State} (hr : s.st = .run) (h : rowCondition i (codeCtx s) c) :
    exec i s = runCode c s := by
  obtain ⟨k, hk, hrow⟩ := rowCondition_iff.mp h
  rw [runCode_of_classify hk]
  cases k with
  | endFrame => exact (exec_endRow hrow s).trans (endOf_of_run hr rfl)
  | clear => exact (exec_clearRow hrow s).trans (clearOf_of_run hr rfl)
  | first | invalid | known | kwkwk => cases hrow; exact if_pos ⟨hr, hk⟩

/-- A row's condition holds of the codes of the row's class only. -/
theorem classify_of_row {k : CodeClass} {i : Instr} {x : CodeCtx} {c : Code} (hrow : k.row x.m.toNat c = some i)
    (h : rowCondition i x c) : classify x c = some k := by
  obtain ⟨hframe, hcond⟩ := h
  refine classify_eq_some_iff.mpr ⟨hframe, ?_⟩
  cases k with
  | endFrame | clear =>
    rcases frameSize_cases hframe with hm | hm | hm | hm | hm | hm | hm | hm <;>
      (rw [hm] at hrow; cases hrow; rw [classCondition, hm, hcond.2]; rfl)
  | first | invalid | known | kwkwk => cases hrow; exact hcond.2

theorem exec_eq_classRule {k : CodeClass} {i : Instr} {c : Code} {s : State} (hr : s.st = .run)
    (hrow : k.row s.m.toNat c = some i) (h : rowCondition i (codeCtx s) c) : exec i s = classRule c s k :=
  (exec_of_rowCondition hr h).trans (runCode_of_classify (classify_of_row (x := codeCtx s) hrow h))

/-- Every class has a row for each legal M. -/
theorem exists_row {m : Nat} (hm : frameSize m = true) (k : CodeClass) (c : Code) : ∃ i, k.row m c = some i := by
  cases k with
  | endFrame | clear =>
    rcases frameSize_cases hm with rfl | rfl | rfl | rfl | rfl | rfl | rfl | rfl <;> exact ⟨_, rfl⟩
  | first | invalid | known | kwkwk => exact ⟨_, rfl⟩

theorem exists_rowCondition {x : CodeCtx} (c : Code) (hm : frameSize x.m.toNat = true) : ∃ i, rowCondition i x c := by
  obtain ⟨k, hk⟩ := classify_some c hm
  obtain ⟨i, hi⟩ := exists_row hm k c
  exact ⟨i, rowCondition_iff.mpr ⟨k, hk, hi⟩⟩

theorem runDecoded_of_ok {c : Code} {s : State} {i : Instr} (h : decodeCode (codeCtx s) c = .ok i) :
    runDecoded c s = exec i s := by
  rw [runDecoded, h]

/-- Decoding a code and running its row is running its class's rule; without a legal M neither has a meaning. -/
theorem runDecoded_eq_runCode {s : State} (hr : s.st = .run) (c : Code) : runDecoded c s = runCode c s := by
  by_cases hm : frameSize s.m.toNat = true
  · obtain ⟨i, hi⟩ := exists_rowCondition (x := codeCtx s) c hm
    exact (runDecoded_of_ok (decodeCode_iff_rowCondition.mpr hi)).trans (exec_of_rowCondition hr hi)
  · have hk := classify_eq_none (x := codeCtx s) c hm
    rw [runDecoded, decodeCode, runCode, hk]
    rfl

theorem exec_codeStep_of_fetchCode {s t : State} {c : Code} (h : fetchCode s = .next (c, t)) :
    exec .codeStep s = runCode c t := by
  rw [exec, execCodeStep, h]
  rfl

/-- A fetch answers only in RUN, and leaves RUN. -/
theorem st_of_fetchCode {s t : State} {c : Code} (h : fetchCode s = .next (c, t)) : t.st = .run := by
  obtain ⟨hr, _, _, _, rfl⟩ := fetchCode_eq_next.mp h
  exact hr

theorem exec_codeStep_of_classify {s t : State} {c : Code} {k : CodeClass} (h : fetchCode s = .next (c, t))
    (hk : classify (codeCtx t) c = some k) : exec .codeStep s = classRule c t k :=
  (exec_codeStep_of_fetchCode h).trans (runCode_of_classify hk)

/-- A code step runs the row whose condition the fetched code meets. -/
theorem exec_codeStep_of_rowCondition {s t : State} {c : Code} {i : Instr} (h : fetchCode s = .next (c, t))
    (hrow : rowCondition i (codeCtx t) c) : exec .codeStep s = exec i t :=
  (exec_codeStep_of_fetchCode h).trans (exec_of_rowCondition (st_of_fetchCode h) hrow).symm

/-- Settles O5: the row of the code's class; the decoder answers one row only. -/
theorem everyCodeHasExactlyOneRow : Obligations.EveryCodeHasExactlyOneRow := by
  intro x c hm
  obtain ⟨i, hi⟩ := exists_rowCondition c hm
  refine ⟨i, hi, fun j hj => ?_⟩
  have hij := (decodeCode_iff_rowCondition.mpr hj).symm.trans (decodeCode_iff_rowCondition.mpr hi)
  cases hij
  rfl

/-- Settles O9: after the same fetch, `runDecoded_eq_runCode`. -/
theorem bufferedCodeStepIsCodeStep : Obligations.BufferedCodeStepIsCodeStep := by
  intro s hp hi
  rw [step_pending hp hi]
  cases hf : fetchCode s with
  | next r =>
    obtain ⟨c, t⟩ := r
    exact (runDecoded_eq_runCode (st_of_fetchCode hf) c).trans (exec_codeStep_of_fetchCode hf).symm
  | fault r | refused r =>
    rw [exec, execCodeStep, hf]
    rfl

/-- Settles O7: the fetch answers, and the decoded row runs on the state it leaves. -/
theorem stepRunsTheDecodedCode : Obligations.StepRunsTheDecodedCode := by
  intro s i hr hlo hhi hle hi hdec
  have hf := fetchCode_eq_next.mpr ⟨hr, (widthOk_iff _).mpr ⟨hlo, hhi⟩, hle, rfl, rfl⟩
  rw [step_pending ((codePending_iff s).mpr ⟨hr, hle⟩) hi, hf]
  exact runDecoded_of_ok (s := afterRead s.cw.toNat s) hdec

/-- Settles O18: each row under its condition, and the class of a fetched End code. -/
theorem endCodeFinishesTheFrame : Obligations.EndCodeFinishesTheFrame := by
  constructor
  · intro s hr
    exact ⟨endOf_of_run hr, endOf_of_run hr, endOf_of_run hr, endOf_of_run hr, endOf_of_run hr, endOf_of_run hr,
      endOf_of_run hr, endOf_of_run hr⟩
  · intro s t c hf hm hc
    exact exec_codeStep_of_classify (k := .endFrame) hf (classify_eq_some_iff.mpr ⟨hm, hc⟩)

/-- Settles O19: each row under its condition, and the class of a fetched Clear code. -/
theorem clearCodeResetsTheDecompressor : Obligations.ClearCodeResetsTheDecompressor := by
  constructor
  · intro s hr
    exact ⟨clearOf_of_run hr, clearOf_of_run hr, clearOf_of_run hr, clearOf_of_run hr, clearOf_of_run hr,
      clearOf_of_run hr, clearOf_of_run hr, clearOf_of_run hr⟩
  · intro s t c hf hm hc
    exact exec_codeStep_of_classify (k := .clear) hf (classify_eq_some_iff.mpr ⟨hm, hc⟩)

/-- Settles O20: FIRST's rule is the next state written out. -/
theorem firstCodeEmitsItsLiteral : Obligations.FirstCodeEmitsItsLiteral := by
  intro c s hr h
  exact exec_eq_classRule (k := .first) hr rfl h

/-- Settles O23: INVALID's rule is fault entry, as a row and after a fetch. -/
theorem invalidCodeFaults : Obligations.InvalidCodeFaults := by
  constructor
  · intro c s hr h
    exact exec_eq_classRule (k := .invalid) hr rfl h
  · intro s t c hf h
    exact exec_codeStep_of_classify (k := .invalid) hf (classify_of_row (x := codeCtx t) rfl h)

/-- Settles O21: KNOWN's rule (`knownRule_spec`). -/
theorem knownCodeEmitsAndLearns : Obligations.KnownCodeEmitsAndLearns := by
  intro c s l hr h hl
  have hm := (classify_known (classify_of_row (x := codeCtx s) rfl h)).1
  obtain ⟨t, f, ht, hf, _, hstep, _⟩ := knownRule_spec hm hl
  exact ⟨t, f, (exec_eq_classRule (k := .known) hr rfl h).trans ht, hf, hstep⟩

/-- Settles O22: KWKWK's rule (`kwkwkRule_spec`); c is NEXT, and below 4096 as every code is, so slot c is
the new one. -/
theorem kwkwkCodeEmitsAndLearns : Obligations.KwkwkCodeEmitsAndLearns := by
  intro c s p hr h hp
  obtain ⟨hm, _, hnext, _⟩ := classify_kwkwk (classify_of_row (x := codeCtx s) rfl h)
  obtain ⟨t, f, ht, hf, _, hstep, _⟩ := kwkwkRule_spec (c := c) hm hp
  refine ⟨t, f, (exec_eq_classRule (k := .kwkwk) hr rfl h).trans ht, hf, hstep, ?_⟩
  rw [hnext]
  exact hstep.newEntry (hnext ▸ c.isLt)

/-- Settles O25: in each branch of the tests the row's condition holds, and the code step runs that row. -/
theorem codeStepRunsTheTestsInOrder : Obligations.CodeStepRunsTheTestsInOrder := by
  intro s t c hf hm
  obtain ⟨_, _, hle, hc, ht⟩ := fetchCode_eq_next.mp hf
  refine ⟨readBits_eq_some.mpr ⟨hle, hc, ht⟩, ?_⟩
  split
  · next he => exact exec_codeStep_of_classify (k := .endFrame) hf (classify_eq_some_iff.mpr ⟨hm, he⟩)
  · next he =>
    split
    · next hcl => exact exec_codeStep_of_classify (k := .clear) hf (classify_eq_some_iff.mpr ⟨hm, hcl⟩)
    · next hcl =>
      split
      · next hfirst => exact exec_codeStep_of_rowCondition hf ⟨hm, rfl, he, hcl, hfirst⟩
      · next hfirst =>
        split
        · next hinv => exact exec_codeStep_of_rowCondition hf ⟨hm, rfl, he, hcl, .inl hinv⟩
        · next hinv =>
          have ha : t.awaitFirst = false := by
            refine eq_false_of_ne_true fun ha => ?_
            rcases Nat.lt_or_ge c.toNat t.nextCode.toNat with hlt | hge
            · exact hfirst ⟨ha, hlt⟩
            · exact hinv ⟨ha, hge⟩
          split
          · next hlt => exact exec_codeStep_of_rowCondition hf ⟨hm, rfl, he, hcl, ha, hlt⟩
          · next hlt =>
            split
            · next heq => exact exec_codeStep_of_rowCondition hf ⟨hm, rfl, he, hcl, ha, heq⟩
            · next hne =>
              have hgt : t.nextCode.toNat < c.toNat := by omega
              exact exec_codeStep_of_rowCondition hf ⟨hm, rfl, he, hcl, .inr ⟨ha, hgt⟩⟩

/-- Settles O26: the laws of `createEntry`, with the two memory laws for its slot. -/
theorem addEntryWritesSlotNext : Obligations.AddEntryWritesSlotNext := by
  intro p x s
  constructor
  · intro hlt
    refine ⟨createEntry p x s, rfl, ?_, createEntry_read_new hlt, fun k hk => createEntry_read_other (.inl hk)⟩
    rw [createEntry, if_pos hlt]
  · intro hge
    exact congrArg Host.Outcome.next (if_neg (Nat.not_lt.mpr hge))

/-- Settles O27: GROW is its rule. -/
theorem growRaisesTheWidth : Obligations.GrowRaisesTheWidth := fun _ => rfl

theorem nextCode_dataCodeStep {s t : State} {c : Code} {l : List Byte} {f : Byte} {depth : Nat}
    (hs : DataCodeStep s t c l f depth) (hmax : s.nextCode.toNat ≤ 4096) :
    t.nextCode.toNat = min 4096 (s.nextCode.toNat + 1) := by
  have hnext := hs.nextCode
  split at hnext <;> omega

/-- Settles O50, by the class that ran: NEXT is in the range up to 4096, and a data code adds one to it below 4096. -/
theorem oneEntryPerDataCode : Obligations.OneEntryPerDataCode := by
  intro c s t h hr hx
  obtain ⟨_, _, _, _, _, hmax⟩ := h.ranges (m_ne_zero_of_run h hr)
  cases codeRan_of_runCode hx with
  | endFrame hk | first hk | invalid hk => simp [hk]
  | clear hk =>
    have hnext := (atFrameStart_clearCodes h hr).next
    rw [endc_congr (clearCodes_m s)] at hnext
    exact ⟨fun _ => hnext, by simp [hk], by simp [hk]⟩
  | known hk _ _ hs _ _ => simp [hk, nextCode_dataCodeStep hs hmax]
  | kwkwk hk _ _ hs _ _ => simp [hk, nextCode_dataCodeStep hs hmax]

/-! The sequences after a code (R151; 42_expander.md R170). -/

theorem liveSlot_iff (s : State) (k : Nat) : liveSlot s k = true ↔ endc s < k ∧ k < s.nextCode.toNat := by
  simp [liveSlot]

theorem seqWithin_literal {s : State} {c : Code} (h : c.toNat < clearc s) (n : Nat) :
    seqWithin s n c = some [c.setWidth 8] := by
  cases n <;> simp only [seqWithin, h, if_true]

theorem seqWithin_succ_of_read {s : State} {n : Nat} {c : Code} {slot : Slot} {l : List Byte}
    (hlit : ¬ c.toNat < clearc s) (hlive : liveSlot s c.toNat = true) (hread : Memory.read s.dict c.toNat = some slot)
    (hl : seqWithin s n slot.pfx = some l) : seqWithin s (n + 1) c = some (l ++ [slot.sfx]) := by
  simp only [seqWithin, hlit, if_false, hlive, if_true, hread, hl, Option.map_some]

theorem seqOf_congr {s t : State} (h : SameTable t s) (c : Code) : seqOf t c = seqOf s c := seqWithin_congr h _ c

/-- A data code writes slot NEXT only, so it changes no sequence that was defined. -/
theorem seqWithin_dataCodeStep {s t : State} {c k : Code} {l p : List Byte} {f : Byte} {depth n : Nat}
    (hs : DataCodeStep s t c l f depth) (h : seqWithin s n k = some p) : seqWithin t n k = some p := by
  have hclear := clearc_dataCodeStep hs
  induction n generalizing k p with
  | zero =>
    rcases seqWithin_cases h with ⟨hlit, rfl⟩ | ⟨_, _, _, _, h0, _⟩
    · exact seqWithin_literal (hclear ▸ hlit) _
    · omega
  | succ n ih =>
    rcases seqWithin_cases h with ⟨hlit, rfl⟩ | ⟨hlit, n', slot, q, hn, hlive, hread, hq, rfl⟩
    · exact seqWithin_literal (hclear ▸ hlit) _
    · obtain rfl : n' = n := by omega
      obtain ⟨hlo, hhi⟩ := (liveSlot_iff _ _).mp hlive
      have hother := hs.otherSlots k.toNat (.inl (by omega))
      have hlive' : liveSlot t k.toNat = true := by
        have hnext := hs.nextCode
        rw [liveSlot_iff, endc_dataCodeStep hs]
        split at hnext <;> omega
      exact seqWithin_succ_of_read (by rw [hclear]; exact hlit) hlive' (hother.trans hread) (ih hq)

theorem seqOf_dataCodeStep {s t : State} {c k : Code} {l p : List Byte} {f : Byte} {depth : Nat}
    (hs : DataCodeStep s t c l f depth) (h : seqOf s k = some p) : seqOf t k = some p :=
  seqWithin_dataCodeStep hs h

/-- The entry that a data code adds stands for SEQ(PREV) and the symbol stored. PREV is a 12-bit code and every link
goes to a smaller one, so its sequence leaves a link free. -/
theorem seqOf_newEntry {s t : State} {c k : Code} {l p : List Byte} {f : Byte} {depth : Nat} (h : s.FrameInv)
    (hm : s.m.toNat ≠ 0) (ha : s.awaitFirst = false) (hs : DataCodeStep s t c l f depth) (hp : seqOf s s.prev = some p)
    (hk : k.toNat = s.nextCode.toNat) : seqOf t k = some (p ++ [f]) := by
  obtain ⟨_, _, _, _, hlo, _⟩ := h.ranges hm
  have hfits : s.nextCode.toNat < 4096 := hk ▸ k.isLt
  have hprev := s.prev.isLt
  obtain ⟨q, hq⟩ := seqWithin_of_dictOk (n := 4095) (h.entriesOk hm) (by omega) (h.prevOk hm ha)
  obtain rfl : q = p := Option.some.inj ((seqWithin_mono hq (Nat.le_succ _)).symm.trans hp)
  have he := endc_eq s
  have hlit : ¬ k.toNat < clearc t := by rw [clearc_dataCodeStep hs]; omega
  have hlive : liveSlot t k.toNat = true := by
    have hnext := hs.nextCode
    rw [if_pos hfits] at hnext
    rw [liveSlot_iff, endc_dataCodeStep hs]
    omega
  exact seqWithin_succ_of_read (slot := ⟨s.prev, f⟩) hlit hlive (hk ▸ hs.newEntry hfits) (seqWithin_dataCodeStep hs hq)

/-- The first code of a frame is a literal: NEXT is ENDC + 1 while it is awaited. -/
theorem lt_clearc_of_first {s : State} {c : Code} (h : s.FrameInv) (hm : s.m.toNat ≠ 0)
    (hk : classify (codeCtx s) c = some .first) : c.toNat < clearc s := by
  obtain ⟨_, ha, hlt, hnc, hne⟩ := classify_first hk
  obtain ⟨hnext, _⟩ := h.awaiting hm ha
  have he := endc_eq s
  omega

/-- Settles O28, by the class: a literal; a code whose sequence the new entry leaves (`seqOf_dataCodeStep`); the new
entry itself (`seqOf_newEntry`). -/
theorem prevStandsForTheEmittedSequence : Obligations.PrevStandsForTheEmittedSequence := by
  intro s t c l h hr hrow hx hout
  have hm := m_ne_zero_of_run h hr
  have hdata : classify (codeCtx s) c = some .first ∨ classify (codeCtx s) c = some .known ∨
      classify (codeCtx s) c = some .kwkwk :=
    hrow.imp (classify_of_row rfl) (Or.imp (classify_of_row rfl) (classify_of_row rfl))
  cases codeRan_of_runCode hx with
  | endFrame hk | clear hk | invalid hk => simp [hk] at hdata
  | first hk =>
    have hlit := lt_clearc_of_first h hm hk
    obtain rfl : [c.setWidth 8] = l := List.append_cancel_left hout
    exact ⟨rfl, seqWithin_literal (s := rememberFirst c (emitSymbols [c.setWidth 8] s)) hlit _⟩
  | known _ hl _ hs _ _ =>
    obtain rfl := List.append_cancel_left (hs.out.symm.trans hout)
    exact ⟨hs.prev, seqOf_dataCodeStep hs hl⟩
  | kwkwk hk hp _ hs _ _ =>
    obtain ⟨_, ha, hnext, _⟩ := classify_kwkwk hk
    obtain rfl := List.append_cancel_left (hs.out.symm.trans hout)
    exact ⟨hs.prev, seqOf_newEntry h hm ha hs hp hnext⟩

/-! The abstract form (R150; 40_bit_code_reader.md R130): operations on registers only. -/

theorem queue_eq_bufferedBits {s : State} {a : AbsState} (h : StandsFor s a) : a.queue = bufferedBits s := h.queue

theorem queue_length {s : State} {a : AbsState} (h : StandsFor s a) : a.queue.length = s.bc.toNat := by
  rw [queue_eq_bufferedBits h, bufferedBits_length]

/-- Entries stand for SEQ of what SEQ reads, and of nothing else of the state. -/
theorem standsFor_entries_congr {s t : State} {a : AbsState} (h : StandsFor s a) (ht : SameTable t s) :
    t.m.toNat ≠ 0 → ∀ c : Code, hasEntry t c.toNat = true → Memory.read a.entries c.toNat = seqOf t c := by
  intro hm c hc
  rw [ht.m] at hm
  rw [hasEntry, clearc_congr ht.m, liveSlot_congr ht] at hc
  rw [seqOf_congr ht]
  exact h.entries hm c hc

theorem standsFor_last_congr {s t : State} {a : AbsState} (h : StandsFor s a) (ht : SameTable t s)
    (hp : t.prev = s.prev) (ha : t.awaitFirst = s.awaitFirst) :
    t.m.toNat ≠ 0 → t.awaitFirst = false → some a.last = seqOf t t.prev := by
  rw [ht.m, ha, hp, seqOf_congr ht]
  exact h.last

theorem standsFor_raiseFault {s : State} {a : AbsState} (h : StandsFor s a) (cause : RaisedCause) (info : BitVec 12) :
    StandsFor (raiseFault cause info s) (absFault cause info a) :=
  { h with
    st := rfl
    cause := rfl
    finfo := rfl
    entries := standsFor_entries_congr (s := s) (a := a) h ⟨rfl, rfl, rfl⟩
    last := standsFor_last_congr (s := s) (a := a) h ⟨rfl, rfl, rfl⟩ rfl rfl }

theorem standsFor_endRule {s : State} {a : AbsState} (h : StandsFor s a) :
    StandsFor { s with st := .done } { a with st := .done } :=
  { h with
    st := rfl
    entries := standsFor_entries_congr (s := s) (a := a) h ⟨rfl, rfl, rfl⟩
    last := standsFor_last_congr (s := s) (a := a) h ⟨rfl, rfl, rfl⟩ rfl rfl }

theorem standsFor_afterRead {s : State} {a : AbsState} (h : StandsFor s a) (hle : s.cw.toNat ≤ s.bc.toNat) :
    StandsFor (afterRead s.cw.toNat s) { a with queue := a.queue.drop a.cw } :=
  { h with
    queue := by
      change a.queue.drop a.cw = bufferedBits (afterRead s.cw.toNat s)
      rw [h.cw, queue_eq_bufferedBits h, bufferedBits_eq_append_afterRead hle, List.drop_left' (bitsOf_length _ _)]
    entries := standsFor_entries_congr (s := s) (a := a) h ⟨rfl, rfl, rfl⟩
    last := standsFor_last_congr (s := s) (a := a) h ⟨rfl, rfl, rfl⟩ rfl rfl }

theorem standsFor_shiftByte {s : State} {a : AbsState} {b : Byte} (h : StandsFor s a)
    (hbits : s.bb.toNat < 2 ^ s.bc.toNat) (hbc : s.bc.toNat ≤ 24) : StandsFor (shiftByte b s) (absShift b a) :=
  { h with
    queue := (congrArg (· ++ bitsOf 8 b.toNat) h.queue).trans (bufferedBits_shiftByte hbits hbc).symm
    entries := standsFor_entries_congr (s := s) (a := a) h ⟨rfl, rfl, rfl⟩
    last := standsFor_last_congr (s := s) (a := a) h ⟨rfl, rfl, rfl⟩ rfl rfl }

/-! The start of a frame and the Clear code. -/

theorem read_map_mk {α : Type} (f : Nat → α) {l : List Nat} {k : Nat} (h : k ∈ l) :
    Memory.read (l.map fun c => (c, f c)) k = some (f k) := by
  induction l with
  | nil => cases h
  | cons x l ih =>
    rw [List.map_cons, Memory.read]
    split
    · next hx => rw [hx]
    · next hx => exact ih ((List.mem_cons.mp h).resolve_left (Ne.symm hx))

theorem read_literalEntries {m : Nat} {c : Code} (h : c.toNat < clearCode m) :
    Memory.read (literalEntries m) c.toNat = some [c.setWidth 8] := by
  rw [literalEntries, read_map_mk (fun c => [BitVec.ofNat 8 c]) (List.mem_range.mpr h), BitVec.ofNat_toNat]

/-- At the start of a frame the entries are the literals (R150). -/
theorem standsFor_absClear {s : State} {a : AbsState} (hs : AtFrameStart s) (hst : a.st = .run)
    (hcause : a.cause = .none) (hfinfo : a.finfo = 0) (hm : a.m = s.m.toNat) (hqueue : a.queue = bufferedBits s)
    (hout : a.out = s.out) : StandsFor s (absClear s.m.toNat a) where
  st := hst.trans hs.st.symm
  cause := hcause.trans hs.cause.symm
  finfo := hfinfo.trans hs.finfo.symm
  m := hm
  cw := hs.cw.symm
  next := hs.next.symm
  awaitFirst := hs.awaitFirst.symm
  queue := hqueue
  out := hout
  entries := fun _ c hc => by
    have hnext := hs.next
    have he := endc_eq s
    have hlit : c.toNat < clearc s := by
      have := (hasEntry_iff _ _).mp hc
      omega
    exact (read_literalEntries hlit).trans (seqWithin_literal hlit _).symm
  last := fun _ ha => by simp [hs.awaitFirst] at ha

theorem standsFor_startFrame {m : Byte} (hm : frameSize m.toNat = true) (s : State) (a : AbsState) :
    StandsFor (startFrame m s) (absStart m a) := by
  have hle := ((frameSize_iff _).mp hm).2
  have hsize : (startFrame m s).m.toNat = m.toNat := by
    rw [startFrame_m, BitVec.toNat_setWidth]
    omega
  have h := standsFor_absClear (a := { a with
      st := .run, cause := .none, finfo := 0, m := m.toNat, queue := [], out := [] })
    (atFrameStart_startFrame (s := s) hm) rfl rfl rfl hsize.symm rfl rfl
  rw [hsize] at h
  rw [absStart, if_pos hm]
  exact h

theorem standsFor_illegalStart (cause : RaisedCause) (info : BitVec 12) (s : State) (a : AbsState) :
    StandsFor (raiseFault cause info (clearFrame s))
      (absFault cause info
        { a with
          m := 0, cw := 0, next := 0, awaitFirst := false, entries := [], last := [], queue := [], out := [] }) := by
  constructor
  case entries => exact fun hm => absurd rfl hm
  case last => exact fun hm => absurd rfl hm
  all_goals rfl

theorem standsFor_clearCodes {s : State} {a : AbsState} (h : StandsFor s a) (hinv : s.FrameInv) (hr : s.st = .run) :
    StandsFor (clearCodes s) (absClear a.m a) := by
  have hstart := atFrameStart_clearCodes hinv hr
  rw [h.m]
  exact standsFor_absClear hstart (h.st.trans hr) (h.cause.trans hstart.cause) (h.finfo.trans hstart.finfo) h.m h.queue
    h.out

/-! Data codes. -/

theorem absLearn_eq (e : List Byte) (a : AbsState) :
    absLearn e a =
      { a with
        out := a.out ++ e
        entries := if a.next < 4096 then Memory.write a.entries a.next (a.last ++ e.take 1) else a.entries
        next := if a.next < 4096 then a.next + 1 else a.next
        cw := if (if a.next < 4096 then a.next + 1 else a.next) = 2 ^ a.cw ∧ a.cw < 12 then a.cw + 1 else a.cw
        last := e } := by
  by_cases hroom : a.next < 4096
  · by_cases hgrow : a.next + 1 = 2 ^ a.cw ∧ a.cw < 12
    · simp only [absLearn, Config.dictSize, Config.cwMax, if_pos hroom, if_pos hgrow]
    · simp only [absLearn, Config.dictSize, Config.cwMax, if_pos hroom, if_neg hgrow]
  · by_cases hgrow : a.next = 2 ^ a.cw ∧ a.cw < 12
    · simp only [absLearn, Config.dictSize, Config.cwMax, if_neg hroom, if_pos hgrow]
    · simp only [absLearn, Config.dictSize, Config.cwMax, if_neg hroom, if_neg hgrow]

/-- The entries after a data code's step: the old ones, and slot NEXT where there was room. -/
theorem hasEntry_of_dataCodeStep {s t : State} {c : Code} {l : List Byte} {f : Byte} {depth k : Nat}
    (hs : DataCodeStep s t c l f depth) (hlo : endc s < s.nextCode.toNat) (hk : hasEntry t k = true) :
    (k = s.nextCode.toNat ∧ s.nextCode.toNat < 4096) ∨ (hasEntry s k = true ∧ k ≠ s.nextCode.toNat) := by
  have hnext := hs.nextCode
  have he := endc_eq s
  rw [hasEntry_iff, clearc_dataCodeStep hs, endc_dataCodeStep hs] at hk
  rw [hasEntry_iff]
  split at hnext <;> omega

/-- KNOWN and KWKWK: the abstract entry at NEXT is P and the first symbol of the emitted sequence (R150, R151). -/
theorem standsFor_absLearn {s t : State} {a : AbsState} {c : Code} {e : List Byte} {f : Byte} {depth : Nat}
    (h : StandsFor s a) (hinv : s.FrameInv) (hm : s.m.toNat ≠ 0) (ha : s.awaitFirst = false)
    (hs : DataCodeStep s t c e f depth) (hf : e.head? = some f) (hseq : seqOf t c = some e) :
    StandsFor t (absLearn e a) := by
  rw [absLearn_eq]
  constructor
  case st => exact h.st.trans hs.st.symm
  case cause => exact h.cause.trans hs.cause.symm
  case finfo => exact h.finfo.trans hs.finfo.symm
  case m => rw [hs.m]; exact h.m
  case cw => simp only [hs.cw, hs.nextCode, h.next, h.cw]
  case next => simp only [hs.nextCode, h.next]
  case awaitFirst => exact h.awaitFirst.trans hs.awaitFirst.symm
  case queue => rw [hs.bb, hs.bc]; exact h.queue
  case out => rw [hs.out, ← h.out]
  case last => intro _ _; rw [hs.prev]; exact hseq.symm
  case entries =>
    intro _ k hk
    obtain ⟨_, _, _, _, hlo, _⟩ := hinv.ranges hm
    rcases hasEntry_of_dataCodeStep hs hlo hk with ⟨hnew, hroom⟩ | ⟨hold, hother⟩
    · have hlast : seqOf s s.prev = some a.last := (h.last hm ha).symm
      have htake : e.take 1 = [f] := by rw [List.take_one, hf]; rfl
      rw [seqOf_newEntry hinv hm ha hs hlast hnew, hnew]
      simp only [h.next, hroom, if_true, htake]
      exact Memory.read_write_same _ _ _
    · obtain ⟨p, hp⟩ := seqOf_of_hasEntry (hinv.entriesOk hm) hold
      have hread : Memory.read a.entries k.toNat = some p := (h.entries hm k hold).trans hp
      rw [seqOf_dataCodeStep hs hp]
      simp only [h.next]
      split
      · rw [Memory.read_write_other _ _ hother]; exact hread
      · exact hread

theorem standsFor_first {s : State} {a : AbsState} {c : Code} {e : List Byte} (h : StandsFor s a)
    (he : seqOf s c = some e) (hlit : e = [c.setWidth 8]) :
    StandsFor (rememberFirst c (emitSymbols [c.setWidth 8] s))
      { a with out := a.out ++ e, last := e, awaitFirst := false } :=
  { h with
    awaitFirst := rfl
    out := by subst hlit; exact congrArg (· ++ [c.setWidth 8]) h.out
    entries := standsFor_entries_congr (s := s) (a := a) h ⟨rfl, rfl, rfl⟩
    last := fun _ _ => by
      have hsame := seqOf_congr (s := s) (t := rememberFirst c (emitSymbols [c.setWidth 8] s)) ⟨rfl, rfl, rfl⟩ c
      rw [rememberFirst_prev, hsame, he] }

/-! The class rules of the abstract form. -/

/-- The abstract rule of each class (R150). -/
def absClassRule (c : Code) (a : AbsState) : CodeClass → Option AbsState
  | .endFrame => some { a with st := .done }
  | .clear => some (absClear a.m a)
  | .first => (Memory.read a.entries c.toNat).map fun e => { a with out := a.out ++ e, last := e, awaitFirst := false }
  | .invalid => some (absFault .invalidLzwCode c a)
  | .known => (Memory.read a.entries c.toNat).map fun e => absLearn e a
  | .kwkwk => a.last.head?.map fun f => absLearn (a.last ++ [f]) a

/-- The abstract form puts a code in the same class. -/
theorem absRunCode_of_classify {s : State} {a : AbsState} {c : Code} {k : CodeClass} (h : StandsFor s a)
    (hk : classify (codeCtx s) c = some k) : absRunCode c.toNat a = absClassRule c a k := by
  obtain ⟨_, hk⟩ := classify_eq_some_iff.mp hk
  have hm : (codeCtx s).m.toNat = a.m := h.m.symm
  have ha : (codeCtx s).awaitFirst = a.awaitFirst := h.awaitFirst.symm
  have hn : (codeCtx s).nextCode.toNat = a.next := h.next.symm
  have hne := clearCode_ne_endCode a.m
  have hinfo : BitVec.ofNat 12 c.toNat = c := (BitVec.ofNat_toNat 12 c).trans (BitVec.setWidth_eq c)
  cases k <;> simp only [classCondition, hm, ha, hn] at hk
  case endFrame => exact if_pos hk
  case clear => rw [absRunCode, hk, if_neg hne, if_pos rfl, absClassRule]
  case first =>
    obtain ⟨he, hc, ha, hlt⟩ := hk
    rw [absRunCode, if_neg he, if_neg hc, if_pos ha, if_pos hlt, absClassRule]
  case invalid =>
    obtain ⟨he, hc, ⟨ha, hle⟩ | ⟨ha, hlt⟩⟩ := hk
    · rw [absRunCode, if_neg he, if_neg hc, if_pos ha, if_neg (by omega), hinfo, absClassRule]
    · rw [absRunCode, if_neg he, if_neg hc, if_neg (by simp [ha]), if_neg (by omega), if_neg (by omega), hinfo,
        absClassRule]
  case known =>
    obtain ⟨he, hc, ha, hlt⟩ := hk
    rw [absRunCode, if_neg he, if_neg hc, if_neg (by simp [ha]), if_pos hlt, absClassRule]
  case kwkwk =>
    obtain ⟨he, hc, ha, heq⟩ := hk
    rw [absRunCode, if_neg he, if_neg hc, if_neg (by simp [ha]), if_neg (by omega), if_pos heq, absClassRule]
    cases a.last <;> rfl

/-! The commuting diagram of each operation. -/

/-- The abstract outcome is a state, and the machine's state stands for it. -/
def Refines (t : State) (o : Option AbsState) : Prop := ∃ b, o = some b ∧ StandsFor t b

theorem refines_runCode {s t : State} {a : AbsState} {c : Code} (h : StandsFor s a) (hinv : s.FrameInv)
    (hr : s.st = .run) (hx : runCode c s = .next t) : Refines t (absRunCode c.toNat a) := by
  have hm := m_ne_zero_of_run hinv hr
  cases codeRan_of_runCode hx with
  | endFrame hk => exact ⟨_, absRunCode_of_classify h hk, standsFor_endRule h⟩
  | clear hk => exact ⟨_, absRunCode_of_classify h hk, standsFor_clearCodes h hinv hr⟩
  | invalid hk => exact ⟨_, absRunCode_of_classify h hk, standsFor_raiseFault h _ _⟩
  | first hk =>
    have hlit := lt_clearc_of_first hinv hm hk
    have hseq : seqOf s c = some [c.setWidth 8] := seqWithin_literal hlit _
    have hread := (h.entries hm c ((hasEntry_iff _ _).mpr (.inl hlit))).trans hseq
    exact ⟨_, by rw [absRunCode_of_classify h hk, absClassRule, hread, Option.map_some], standsFor_first h hseq rfl⟩
  | known hk hl hf hs _ _ =>
    obtain ⟨_, ha, hc⟩ := classify_known hk
    have hread := (h.entries hm c hc).trans hl
    exact ⟨_, by rw [absRunCode_of_classify h hk, absClassRule, hread, Option.map_some],
      standsFor_absLearn h hinv hm ha hs hf (seqOf_dataCodeStep hs hl)⟩
  | kwkwk hk hp hf hs _ _ =>
    obtain ⟨_, ha, hnext, _⟩ := classify_kwkwk hk
    obtain rfl := Option.some.inj ((h.last hm ha).trans hp)
    exact ⟨_, by rw [absRunCode_of_classify h hk, absClassRule, hf, Option.map_some],
      standsFor_absLearn h hinv hm ha hs (by rw [List.head?_append, hf]; rfl) (seqOf_newEntry hinv hm ha hs hp hnext)⟩

theorem refines_execCodeStep {s t : State} {a : AbsState} (h : StandsFor s a) (hinv : s.FrameInv)
    (hx : execCodeStep s = .next t) : Refines t (absCodeStep a) := by
  obtain ⟨⟨c, u⟩, hfetch, hrun⟩ := andThen_eq_next.mp hx
  obtain ⟨hr, hw, hle, rfl, rfl⟩ := fetchCode_eq_next.mp hfetch
  have hcode : valueOf (a.queue.take a.cw) = (BitVec.ofNat 12 (s.bb.toNat % 2 ^ s.cw.toNat)).toNat := by
    rw [queue_eq_bufferedBits h, h.cw]
    exact (fetchedCode_toNat ((widthOk_iff _).mp hw).2 hle).symm
  rw [absCodeStep, hcode]
  exact refines_runCode (standsFor_afterRead h hle) (frameInv_afterRead hinv (m_ne_zero_of_run hinv hr) hle) hr hrun

theorem refines_drainWithin {n : Nat} {s t : State} {a : AbsState} (h : StandsFor s a) (hinv : s.FrameInv)
    (hx : drainWithin n s = .next t) : Refines t (absDrainWithin n a) := by
  induction n generalizing s a with
  | zero => cases hx; exact ⟨a, rfl, h⟩
  | succ n ih =>
    rw [absDrainWithin, h.st, h.cw, queue_length h]
    by_cases hr : s.st = .run
    · have hw := widthOk_of_ne_zero hinv (m_ne_zero_of_run hinv hr)
      by_cases hle : s.cw.toNat ≤ s.bc.toNat
      · simp only [drainWithin, hr, hw, (hasBits_iff _ _).mpr hle, if_true] at hx
        obtain ⟨u, hu, hrest⟩ := andThen_eq_next.mp hx
        obtain ⟨b, hb, hub⟩ := refines_execCodeStep h hinv hu
        rw [if_pos ⟨hr, hle⟩, hb]
        exact ih hub (frameInv_execCodeStep hinv hu) hrest
      · simp only [drainWithin, hr, hw, hasBits, hle, decide_false, if_true] at hx
        cases hx
        exact ⟨a, if_neg fun hgo => hle hgo.2, h⟩
    · simp only [drainWithin, hr, if_false] at hx
      cases hx
      exact ⟨a, if_neg fun hgo => hr hgo.1, h⟩

theorem refines_execDrain {s t : State} {a : AbsState} (h : StandsFor s a) (hinv : s.FrameInv)
    (hx : execDrain s = .next t) : Refines t (absDrain a) := by
  rw [absDrain, queue_length h]
  exact refines_drainWithin h hinv hx

theorem refines_execStart {s t : State} (m : Byte) (a : AbsState) (hx : execStart m s = .next t) :
    Refines t (some (absStart m a)) := by
  by_cases hm : frameSize m.toNat = true
  · rw [execStart, if_pos hm] at hx
    cases hx
    exact ⟨_, rfl, standsFor_startFrame hm s a⟩
  · rw [execStart, if_neg hm] at hx
    cases hx
    rw [absStart, if_neg hm]
    exact ⟨_, rfl, standsFor_illegalStart _ _ s a⟩

theorem refines_execPush {s t : State} {a : AbsState} (h : StandsFor s a) (hinv : s.Inv) {b : Byte}
    (hx : execPush b s = .next t) : Refines t (absPush b a) := by
  rw [absPush, h.st]
  cases hst : s.st with
  | idle =>
    rw [execPush, hst] at hx
    cases hx
    exact ⟨_, rfl, standsFor_raiseFault h _ _⟩
  | run =>
    rw [execPush_run hinv hst] at hx
    have hbc := bc_le_of_inv hinv hst
    exact refines_execDrain (standsFor_shiftByte h hinv.frame.bitsAbove (by omega))
      (frameInv_shiftByte hinv.frame (m_ne_zero_of_run hinv.frame hst) hbc) hx
  | done | fault =>
    rw [execPush, hst] at hx
    cases hx
    exact ⟨a, rfl, h⟩

theorem refines_execEos {s t : State} {a : AbsState} (h : StandsFor s a) {arg : Byte} (hx : execEos arg s = .next t) :
    Refines t (some (absEos arg a)) := by
  rw [execEos] at hx
  rw [absEos, h.st]
  cases hst : s.st with
  | idle =>
    rw [hst] at hx
    cases hx
    exact ⟨_, rfl, standsFor_raiseFault h _ _⟩
  | run =>
    rw [hst] at hx
    cases hx
    refine ⟨_, rfl, ?_⟩
    simp only [queue_length h, BitVec.ofNat_toNat]
    exact standsFor_raiseFault h _ _
  | done | fault =>
    rw [hst] at hx
    cases hx
    exact ⟨a, rfl, h⟩

theorem refines_execRsvd {s t : State} {a : AbsState} (h : StandsFor s a) {arg : Byte} (hx : execRsvd arg s = .next t) :
    Refines t (some (absRsvd arg a)) := by
  have hbad := standsFor_raiseFault h .badCommand ((cmdWord 3 arg).setWidth 12)
  rw [execRsvd] at hx
  rw [absRsvd, h.st]
  cases hst : s.st with
  | idle | run | done =>
    rw [hst] at hx
    cases hx
    exact ⟨_, rfl, hbad⟩
  | fault =>
    rw [hst] at hx
    cases hx
    exact ⟨a, rfl, h⟩

theorem refines_execCommand {s t : State} {a : AbsState} (h : StandsFor s a) (hinv : s.Inv) {w : CmdWord}
    (hx : exec (decodeCmd w) s = .next t) : Refines t (absCommand w a) := by
  obtain ⟨op, arg, rfl, harg⟩ := eq_cmdWord w
  obtain ⟨hop, _⟩ := Laws.RowEncoding.cmdWord_fields op arg
  rw [decodeCmd, hop, harg] at hx
  rw [absCommand, hop, harg]
  rcases op_cases op with rfl | rfl | rfl | rfl
  · exact refines_execStart arg a hx
  · exact refines_execPush h hinv hx
  · exact refines_execEos h hx
  · exact refines_execRsvd h hx

/-- Settles O54: in a good state the command answers (`execCommand_answers`), and each command's diagram commutes
(`refines_execCommand`); for PUSH it is an induction over the code steps of the drain loop. -/
theorem blockRefinesTheAbstractForm : Obligations.BlockRefinesTheAbstractForm := by
  intro w s a hinv h
  obtain ⟨t, ht, _⟩ := execCommand_answers hinv w
  obtain ⟨b, hb, hstands⟩ := refines_execCommand h hinv ht
  exact ⟨t, b, ht, hb, hstands⟩

end Sys2Proof.Proofs

namespace Sys2Proof.Proofs

open Sys2Proof Sys2Proof.Machine

/-! The family 42_expander.md: EXPAND is Emit of the sequence (R174). -/

/-- EXPAND answers only where M is from 1 to 8 and SEQ is defined (R27, R170). -/
theorem frameSize_of_expandCode {c : Code} {s t : State} {f : Byte} (h : expandCode c s = .next (f, t)) :
    frameSize s.m.toNat = true := by
  unfold expandCode at h
  split at h
  · assumption
  · cases h

/-- Settles O29: `expandCode_spec` gives the next state where SEQ is defined, and an answer shows that M is legal and SEQ is
defined (`frameSize_of_expandCode`, `seqOf_of_expandCode`). -/
theorem expandEmitsTheSequence : Obligations.ExpandEmitsTheSequence := by
  intro c s
  constructor
  · intro l hm hl
    obtain ⟨f, t, ht, hf, ex⟩ := expandCode_spec hm hl
    have hsp : t.sp = 0 := BitVec.eq_of_toNat_eq ex.sp
    have hrest := ex.rest
    rw [ex.out, hsp] at hrest
    refine ⟨{ t with ret := .symbol f }, f, andThen_eq_next.mpr ⟨_, ht, rfl⟩, (firstSymWithin_eq_head hl).trans hf, ?_,
      ex.otherCells⟩
    rw [hrest]
  · rintro hstop t ht
    obtain ⟨_, he, _⟩ := andThen_eq_next.mp ht
    rcases hstop with hm | hnone
    · exact absurd (frameSize_of_expandCode he) (by simp [hm])
    · obtain ⟨l, hl⟩ := seqOf_of_expandCode he
      simp [hnone] at hl

/-! FIRST_SYM, LEN and the bound on LEN (R171 to R173, R176). -/

/-- SEQ of a slot is SEQ of PFX and then SFX (R170), where both are defined: the links allowed do not matter. -/
theorem seqOf_slot {s : State} {c : Code} {slot : Slot} {l p : List Byte} (h : seqOf s c = some l)
    (hlit : ¬ c.toNat < clearc s) (hread : Memory.read s.dict c.toNat = some slot) (hp : seqOf s slot.pfx = some p) :
    l = p ++ [slot.sfx] := by
  rcases seqWithin_cases h with ⟨hlt, _⟩ | ⟨_, n, slot', q, hn, _, hread', hq, rfl⟩
  · exact absurd hlt hlit
  · obtain rfl : slot' = slot := Option.some.inj (hread'.symm.trans hread)
    obtain rfl : q = p := Option.some.inj ((seqWithin_mono hq (by omega)).symm.trans hp)
    rfl

/-- Settles O30: the head is `firstSymWithin_eq_head`; a literal stands for itself, and a slot for one symbol more than the
code it links to (`seqOf_slot`). -/
theorem firstSymbolAndLengthOfASequence : Obligations.FirstSymbolAndLengthOfASequence := by
  intro s c l h
  refine ⟨seqWithin_ne_nil h, firstSymWithin_eq_head h, fun hlit => ?_, fun slot n hlit hread hn => ?_⟩
  · rw [lenOf, seqOf, seqWithin_literal hlit]
    rfl
  · obtain ⟨p, hp, rfl⟩ := Option.map_eq_some_iff.mp hn
    rw [lenOf, h, seqOf_slot h hlit hread hp]
    simp

/-- What holds of the literals, and of a slot where it holds of PFX, holds of every sequence (R170). -/
theorem seqWithin_induction {s : State} {P : Code → List Byte → Prop}
    (literal : ∀ c : Code, c.toNat < clearc s → P c [c.setWidth 8])
    (live : ∀ (c : Code) (slot : Slot) (p : List Byte), liveSlot s c.toNat = true →
      Memory.read s.dict c.toNat = some slot → P slot.pfx p → P c (p ++ [slot.sfx]))
    {n : Nat} {c : Code} {l : List Byte} (h : seqWithin s n c = some l) : P c l := by
  induction n generalizing c l with
  | zero =>
    rcases seqWithin_cases h with ⟨hlit, rfl⟩ | ⟨_, _, _, _, h0, _⟩
    · exact literal c hlit
    · omega
  | succ n ih =>
    rcases seqWithin_cases h with ⟨hlit, rfl⟩ | ⟨_, n', slot, p, hn, hlive, hread, hp, rfl⟩
    · exact literal c hlit
    · obtain rfl : n' = n := by omega
      exact live c slot p hlive hread (ih hp)

/-- The bound on LEN: a literal is one symbol, and a slot's sequence has no more symbols than there are codes from ENDC up to
the slot (R173). -/
def LengthBounded (s : State) (c : Code) (l : List Byte) : Prop :=
  (c.toNat < clearc s ∧ l.length = 1) ∨ (endc s < c.toNat ∧ l.length + endc s ≤ c.toNat + 1)

/-- In a good dictionary every link goes to a smaller code and adds one symbol. -/
theorem lengthBounded_of_seqWithin {s : State} (hd : dictOk s = true) {n : Nat} {c : Code} {l : List Byte}
    (h : seqWithin s n c = some l) : LengthBounded s c l := by
  refine seqWithin_induction (P := LengthBounded s) ?_ ?_ h
  · exact fun c hlit => .inl ⟨hlit, rfl⟩
  · intro c slot p hlive hread hprefix
    obtain ⟨slot', hread', hlink, _⟩ := (dictOk_iff s).mp hd _ hlive
    obtain rfl : slot' = slot := Option.some.inj (hread'.symm.trans hread)
    obtain ⟨hlo, _⟩ := (liveSlot_iff _ _).mp hlive
    rw [LengthBounded] at hprefix ⊢
    rw [List.length_append, List.length_singleton]
    omega

/-- Settles O31: the sequence exists (`seqOf_of_hasEntry`) and is bounded by its code (`lengthBounded_of_seqWithin`); a code is at
most 4095 and ENDC at least 3. -/
theorem sequencesAreBounded : Obligations.SequencesAreBounded := by
  intro s c h hm hc
  have hd := h.entriesOk hm
  obtain ⟨l, hl⟩ := seqOf_of_hasEntry hd hc
  have hbound := lengthBounded_of_seqWithin hd hl
  rw [LengthBounded] at hbound
  have hendc := endc_eq s
  have hclearc : 2 ^ 1 ≤ clearc s := Nat.pow_le_pow_right (by omega) (by omega)
  have hcode := c.isLt
  exact ⟨l, hl, by omega, by omega⟩

/-! What a command and the drain loop can do (43_host_commands.md R191 to R200). -/

/-- What carries through every code step carries through the drain loop (R194). -/
theorem drainWithin_induction {P : State → Prop} (hstep : ∀ u v, P u → execCodeStep u = .next v → P v) {n : Nat}
    {s t : State} (h : P s) (hx : drainWithin n s = .next t) : P t := by
  induction n generalizing s with
  | zero => cases hx; exact h
  | succ n ih =>
    rw [drainWithin] at hx
    split at hx
    · split at hx
      · split at hx
        · obtain ⟨u, hu, hrest⟩ := andThen_eq_next.mp hx
          exact ih (hstep s u h hu) hrest
        · cases hx; exact h
      · cases hx
    · cases hx; exact h

/-- The effects a command word can have, one constructor each, with the state it leaves: START with a legal or an illegal
operand, PUSH in RUN, a fault of EOS, RSVD or an early PUSH, or none. -/
inductive CommandRan (w : CmdWord) (s : State) : State → Prop
  | start {m : Byte} (hw : w = cmdWord 0 m) (hm : frameSize m.toNat = true) : CommandRan w s (startFrame m s)
  | illegalStart {m : Byte} (hw : w = cmdWord 0 m) :
      CommandRan w s (raiseFault .badMinCodeSize (m.setWidth 12) (clearFrame s))
  | pushInRun {b : Byte} {t : State} (hr : s.st = .run) (hx : execDrain (shiftByte b s) = .next t) : CommandRan w s t
  | fault (cause : RaisedCause) (info : BitVec 12) : CommandRan w s (raiseFault cause info s)
  | ignored : CommandRan w s s

theorem commandRan_of_execStart {m : Byte} {s t : State} (hx : execStart m s = .next t) : CommandRan (cmdWord 0 m) s t := by
  unfold execStart at hx
  split at hx
  · next hm => cases hx; exact .start rfl hm
  · cases hx; exact .illegalStart rfl

theorem commandRan_of_execPush {b : Byte} {w : CmdWord} {s t : State} (hx : execPush b s = .next t) : CommandRan w s t := by
  unfold execPush at hx
  split at hx
  · cases hx; exact .fault _ _
  · next hr =>
    obtain ⟨u, hu, hdrain⟩ := andThen_eq_next.mp hx
    unfold execShiftIn at hu
    split at hu
    · cases hu; exact .pushInRun hr hdrain
    · cases hu
  · cases hx; exact .ignored
  · cases hx; exact .ignored

theorem commandRan_of_execEos {arg : Byte} {w : CmdWord} {s t : State} (hx : execEos arg s = .next t) :
    CommandRan w s t := by
  unfold execEos at hx
  split at hx <;> cases hx
  · exact .fault _ _
  · exact .fault _ _
  · exact .ignored
  · exact .ignored

theorem commandRan_of_execRsvd {arg : Byte} {w : CmdWord} {s t : State} (hx : execRsvd arg s = .next t) :
    CommandRan w s t := by
  unfold execRsvd at hx
  split at hx <;> cases hx
  · exact .fault _ _
  · exact .fault _ _
  · exact .fault _ _
  · exact .ignored

theorem commandRan_of_exec {w : CmdWord} {s t : State} (hx : exec (decodeCmd w) s = .next t) : CommandRan w s t := by
  obtain ⟨op, arg, rfl, harg⟩ := eq_cmdWord w
  obtain ⟨hop, _⟩ := Laws.RowEncoding.cmdWord_fields op arg
  rw [decodeCmd, hop, harg] at hx
  rcases op_cases op with rfl | rfl | rfl | rfl
  · exact commandRan_of_execStart hx
  · exact commandRan_of_execPush hx
  · exact commandRan_of_execEos hx
  · exact commandRan_of_execRsvd hx

/-- A status read changes the port sr_data and the counter of free values only (R204). -/
theorem execStatusRead_eq_next {s t : State} {a : BitVec 4} (hx : exec (.statusRead a) s = .next t) :
    t = { s with srData := t.srData, fresh := t.fresh } := by
  change execStatusRead a s = .next t at hx
  unfold execStatusRead at hx
  split at hx <;> cases hx <;> rfl

/-! OUT only grows (R178). -/

theorem out_prefix_of_runCode {c : Code} {s t : State} (hx : runCode c s = .next t) : s.out <+: t.out := by
  cases codeRan_of_runCode hx with
  | endFrame _ | clear _ | invalid _ => exact List.prefix_rfl
  | first _ => exact List.prefix_append _ _
  | known _ _ _ hs _ _ | kwkwk _ _ _ hs _ _ => exact ⟨_, hs.out.symm⟩

theorem out_prefix_of_execCodeStep {s t : State} (hx : execCodeStep s = .next t) : s.out <+: t.out := by
  obtain ⟨_, _, _, hrun⟩ := execCodeStep_eq_next hx
  exact out_prefix_of_runCode (s := afterRead s.cw.toNat s) hrun

theorem out_prefix_of_execDrain {s t : State} (hx : execDrain s = .next t) : s.out <+: t.out :=
  drainWithin_induction (P := fun u => s.out <+: u.out) (fun _ _ h hu => h.trans (out_prefix_of_execCodeStep hu))
    List.prefix_rfl hx

/-- A command appends to OUT, or it is a START and empties it (43_host_commands.md R191, R192). -/
theorem out_of_commandRan {w : CmdWord} {s t : State} (h : CommandRan w s t) :
    s.out <+: t.out ∨ (t.out = [] ∧ ∃ m, w = cmdWord 0 m) := by
  cases h with
  | start hw _ | illegalStart hw => exact .inr ⟨rfl, _, hw⟩
  | @pushInRun b _ _ hx => exact .inl (out_prefix_of_execDrain (s := shiftByte b s) hx)
  | fault | ignored => exact .inl List.prefix_rfl

/-- Settles O32, by the cases of a step: a reset empties OUT, a code and a command do what their rules say
(`out_prefix_of_runCode`, `out_of_commandRan`), and a status read and idling leave OUT. -/
theorem outOnlyGrows : Obligations.OutOnlyGrows := by
  refine ⟨fun _ _ => rfl, fun s t hstep => ?_⟩
  rcases step_cases hstep with ⟨rest, hi, rfl⟩ | ⟨_, c, u, hf, hx⟩ | ⟨hp, w, rest, hi, hx⟩ | ⟨_, a, rest, _, hx⟩ |
    ⟨_, _, rfl⟩
  · exact .inr ⟨rfl, .inl (by rw [hi]; rfl)⟩
  · rw [runDecoded_eq_runCode (st_of_fetchCode hf)] at hx
    obtain ⟨_, _, _, _, rfl⟩ := fetchCode_eq_next.mp hf
    have hgrows := out_prefix_of_runCode (s := afterRead s.cw.toNat s) hx
    exact .inl (List.prefix_iff_exists_eq_append.mp hgrows)
  · rcases out_of_commandRan (commandRan_of_exec hx) with hgrows | ⟨hempty, m, rfl⟩
    · exact .inl (List.prefix_iff_exists_eq_append.mp hgrows)
    · exact .inr ⟨hempty, .inr ⟨m, hp, by rw [hi]; rfl⟩⟩
  · exact .inl ⟨[], by rw [execStatusRead_eq_next hx, List.append_nil]⟩
  · exact .inl ⟨[], (List.append_nil _).symm⟩

/-! Symbols stay below CLEARC (R176). -/

/-- Emitting symbols below CLEARC keeps the bound, in a state with the same live slots. -/
theorem symbolsBelow_append {s t : State} {l : List Byte} (h : s.SymbolsBelow) (ht : SameTable t s)
    (hout : t.out = s.out ++ l) (hl : ∀ x ∈ l, x.toNat < clearc s) : t.SymbolsBelow where
  emitted := by
    rw [hout, clearc_congr ht.m]
    exact List.forall_mem_append.mpr ⟨h.emitted, hl⟩
  stored := by
    intro k slot hlive hread
    rw [liveSlot_congr ht] at hlive
    rw [ht.dict] at hread
    rw [clearc_congr ht.m]
    exact h.stored k slot hlive hread

theorem symbolsBelow_congr {s t : State} (h : s.SymbolsBelow) (ht : SameTable t s) (hout : t.out = s.out) :
    t.SymbolsBelow :=
  symbolsBelow_append (l := []) h ht (hout.trans (List.append_nil _).symm) (List.forall_mem_nil _)

/-- Where no slot is live only the emitted symbols count. -/
theorem symbolsBelow_of_noSlot {s : State} (hout : ∀ x ∈ s.out, x.toNat < clearc s)
    (hnext : s.nextCode.toNat ≤ endc s + 1) : s.SymbolsBelow where
  emitted := hout
  stored := fun k _ hlive => absurd hlive (not_liveSlot_of_le hnext k)

theorem toNat_setWidth_le (c : Code) : (c.setWidth 8 : Byte).toNat ≤ c.toNat := by
  rw [BitVec.toNat_setWidth]
  exact Nat.mod_le _ _

/-- A sequence is a literal and symbols stored in live slots, so all of it is below CLEARC. -/
theorem seqWithin_below {s : State} (h : s.SymbolsBelow) {n : Nat} {c : Code} {l : List Byte}
    (hl : seqWithin s n c = some l) : ∀ x ∈ l, x.toNat < clearc s := by
  refine seqWithin_induction (P := fun _ l => ∀ x ∈ l, x.toNat < clearc s) ?_ ?_ hl
  · exact fun c hlit => List.forall_mem_singleton.mpr (Nat.lt_of_le_of_lt (toNat_setWidth_le c) hlit)
  · intro c slot p hlive hread hp
    exact List.forall_mem_append.mpr ⟨hp, List.forall_mem_singleton.mpr (h.stored _ _ hlive hread)⟩

/-- A data code stores the first symbol of a sequence, in slot NEXT, and emits the sequence. -/
theorem symbolsBelow_dataCodeStep {s t : State} {c : Code} {l : List Byte} {f : Byte} {depth : Nat} (h : s.SymbolsBelow)
    (hs : DataCodeStep s t c l f depth) (hl : ∀ x ∈ l, x.toNat < clearc s) (hf : f.toNat < clearc s) :
    t.SymbolsBelow where
  emitted := by
    rw [hs.out, clearc_dataCodeStep hs]
    exact List.forall_mem_append.mpr ⟨h.emitted, hl⟩
  stored := by
    intro k slot hlive hread
    rw [clearc_dataCodeStep hs]
    rcases liveSlot_dataCodeStep hs hlive with ⟨rfl, hlt⟩ | ⟨hold, hsame⟩
    · obtain rfl : ⟨s.prev, f⟩ = slot := Option.some.inj ((hs.newEntry hlt).symm.trans hread)
      exact hf
    · exact h.stored k slot hold (hsame.symm.trans hread)

theorem symbolsBelow_runCode {c : Code} {s t : State} (h : s.SymbolsBelow) (hinv : s.FrameInv) (hr : s.st = .run)
    (hx : runCode c s = .next t) : t.SymbolsBelow := by
  cases codeRan_of_runCode hx with
  | endFrame _ | invalid _ => exact symbolsBelow_congr h ⟨rfl, rfl, rfl⟩ rfl
  | clear _ => exact symbolsBelow_of_noSlot h.emitted (Nat.le_of_eq (atFrameStart_clearCodes hinv hr).next)
  | first hk =>
    have hlit := lt_clearc_of_first hinv (m_ne_zero_of_run hinv hr) hk
    exact symbolsBelow_append h ⟨rfl, rfl, rfl⟩ rfl
      (List.forall_mem_singleton.mpr (Nat.lt_of_le_of_lt (toNat_setWidth_le c) hlit))
  | known _ hl hf hs _ _ =>
    have hbelow := seqWithin_below h hl
    exact symbolsBelow_dataCodeStep h hs hbelow (hbelow _ (List.mem_of_head? hf))
  | kwkwk _ hp hf hs _ _ =>
    have hbelow := seqWithin_below h hp
    have hfirst := hbelow _ (List.mem_of_head? hf)
    exact symbolsBelow_dataCodeStep h hs
      (List.forall_mem_append.mpr ⟨hbelow, List.forall_mem_singleton.mpr hfirst⟩) hfirst

theorem symbolsBelow_execCodeStep {s t : State} (h : s.SymbolsBelow) (hinv : s.FrameInv) (hx : execCodeStep s = .next t) :
    t.SymbolsBelow := by
  obtain ⟨hr, hle, _, hrun⟩ := execCodeStep_eq_next hx
  have hread := frameInv_afterRead hinv (m_ne_zero_of_run hinv hr) hle
  exact symbolsBelow_runCode (s := afterRead s.cw.toNat s) (symbolsBelow_congr h ⟨rfl, rfl, rfl⟩ rfl) hread hr hrun

theorem symbolsBelow_execDrain {s t : State} (h : s.SymbolsBelow) (hinv : s.FrameInv) (hx : execDrain s = .next t) :
    t.SymbolsBelow :=
  (drainWithin_induction (P := fun u => u.FrameInv ∧ u.SymbolsBelow)
    (fun _ _ ⟨hu, hbelow⟩ hv => ⟨frameInv_execCodeStep hu hv, symbolsBelow_execCodeStep hbelow hu hv⟩) ⟨hinv, h⟩ hx).2

theorem symbolsBelow_commandRan {w : CmdWord} {s t : State} (h : s.SymbolsBelow) (hinv : s.Inv) (hx : CommandRan w s t) :
    t.SymbolsBelow := by
  cases hx with
  | start _ hm => exact symbolsBelow_of_noSlot (List.forall_mem_nil _) (Nat.le_of_eq (atFrameStart_startFrame hm).next)
  | illegalStart _ => exact symbolsBelow_of_noSlot (List.forall_mem_nil _) (Nat.zero_le _)
  | @pushInRun b _ hr hx =>
    have hshift := frameInv_shiftByte (b := b) hinv.frame (m_ne_zero_of_run hinv.frame hr) (bc_le_of_inv hinv hr)
    exact symbolsBelow_execDrain (s := shiftByte b s) (symbolsBelow_congr h ⟨rfl, rfl, rfl⟩ rfl) hshift hx
  | fault => exact symbolsBelow_congr h ⟨rfl, rfl, rfl⟩ rfl
  | ignored => exact h

/-- Settles O49, by the cases of a step: no code is buffered at a command boundary; after a reset and a START no symbol is
left to bound, and every other command keeps the bound (`symbolsBelow_commandRan`). -/
theorem symbolsStayBelowClearc : Obligations.SymbolsStayBelowClearc := by
  intro s t hinv h hstep
  rcases step_cases hstep with ⟨rest, _, rfl⟩ | ⟨hp, _⟩ | ⟨_, w, rest, _, hx⟩ | ⟨_, a, rest, _, hx⟩ | ⟨_, _, rfl⟩
  · exact symbolsBelow_of_noSlot (List.forall_mem_nil _) (Nat.zero_le _)
  · rw [codePending_of_inv hinv] at hp
    cases hp
  · exact symbolsBelow_commandRan (s := { s with input := rest }) (symbolsBelow_congr h ⟨rfl, rfl, rfl⟩ rfl)
      (inv_withPorts hinv rest s.srData s.fresh) (commandRan_of_exec hx)
  · rw [execStatusRead_eq_next hx]
    exact symbolsBelow_congr h ⟨rfl, rfl, rfl⟩ rfl
  · exact h

end Sys2Proof.Proofs

namespace Sys2Proof.Proofs

open Sys2Proof Sys2Proof.Machine

/-! The family 43_host_commands.md: runs of the machine from a START (R205). -/

/-- A run of one more step is its first step and a run from there. -/
theorem run_succ_eq_next {M : Host.Core} {n : Nat} {s t : M.State} :
    M.run (n + 1) s = .next t ↔ ∃ u, M.step s = .next u ∧ M.run n u = .next t := by
  rw [Host.Core.run]
  cases M.step s with
  | next u => simp
  | fault r | refused r => simp

theorem core_run_succ_eq_next {n : Nat} {s t : State} :
    core.run (n + 1) s = .next t ↔ ∃ u : State, step s = .next u ∧ core.run n u = .next t :=
  run_succ_eq_next (M := core)

/-- A run of one more step is also a run and its last step. -/
theorem core_run_succ_last {n : Nat} {s t : State} :
    core.run (n + 1) s = .next t ↔ ∃ u : State, core.run n s = .next u ∧ step u = .next t := by
  induction n generalizing s with
  | zero =>
    rw [core_run_succ_eq_next]
    constructor
    · rintro ⟨u, hu, hrun⟩
      cases hrun
      exact ⟨s, rfl, hu⟩
    · rintro ⟨u, hrun, hu⟩
      cases hrun
      exact ⟨t, hu, rfl⟩
  | succ n ih =>
    rw [core_run_succ_eq_next]
    constructor
    · rintro ⟨v, hv, hrun⟩
      obtain ⟨u, hu, hlast⟩ := ih.mp hrun
      exact ⟨u, core_run_succ_eq_next.mpr ⟨v, hv, hu⟩, hlast⟩
    · rintro ⟨u, hrun, hlast⟩
      obtain ⟨v, hv, hu⟩ := core_run_succ_eq_next.mp hrun
      exact ⟨v, hv, ih.mpr ⟨u, hu, hlast⟩⟩

theorem core_run_keeps_inv {n : Nat} {s t : State} (h : s.Inv) (hx : core.run n s = .next t) : t.Inv := by
  induction n generalizing s with
  | zero => cases hx; exact h
  | succ n ih =>
    obtain ⟨u, hu, hrun⟩ := core_run_succ_eq_next.mp hx
    exact ih (stepKeepsTheInvariant s u h hu) hrun

/-- Two good states that agree on the frame have runs that agree on it, by R45 at every step. -/
theorem follows_core_run {s t : State} (hs : s.Inv) (ht : t.Inv) (h : SameFrame s t) (n : Nat) :
    Follows (core.run n s) (core.run n t) := by
  induction n generalizing s t with
  | zero => exact follows_next h
  | succ n ih =>
    intro s' hx
    obtain ⟨u, hu, hrun⟩ := core_run_succ_eq_next.mp hx
    obtain ⟨v, hv, huv, _⟩ := staleContentIsInvisible s t u hs ht h hu
    obtain ⟨t', ht', hst⟩ := ih (stepKeepsTheInvariant s u hs hu) (stepKeepsTheInvariant t v ht hv) huv s' hrun
    exact ⟨t', core_run_succ_eq_next.mpr ⟨v, hv, ht'⟩, hst⟩

theorem exec_start_legal {m : Byte} (hm : frameSize m.toNat = true) (s : State) :
    exec (.start m) s = .next (startFrame m s) := if_pos hm

theorem exec_start_illegal {m : Byte} (hm : ¬ frameSize m.toNat = true) (s : State) :
    exec (.start m) s = .next (raiseFault .badMinCodeSize (m.setWidth 12) (clearFrame s)) := if_neg hm

/-- The step of a good state that takes a legal START. -/
theorem step_legalStart {m : Byte} {s : State} {rest : List HostInput} (h : s.Inv) (hm : frameSize m.toNat = true)
    (hin : s.input = .cmd (cmdWord 0 m) :: rest) : step s = .next (startFrame m { s with input := rest }) := by
  rw [stepRunsTheDecodedCommand s _ rest hin (codePending_of_inv h), Laws.RowEncoding.start m]
  exact exec_start_legal hm _

/-- Settles O53: after the START the two blocks agree on the frame (`sameFrame_startFrame`), so their runs do
(`follows_core_run`), and the last step of the two shows the same status (R45 once more). -/
theorem framesAreIndependentOfHistory : Obligations.FramesAreIndependentOfHistory := by
  intro n m rest s s' h hm hin hx
  have hreset : ({ State.reset with input := s.input } : State).Inv :=
    inv_withPorts resetMeetsInvariant s.input 0 0
  have hs := step_legalStart h hm hin
  have ht := step_legalStart hreset hm hin
  have hframe : SameFrame (startFrame m { s with input := rest })
      (startFrame m { ({ State.reset with input := s.input } : State) with input := rest }) :=
    sameFrame_startFrame hm rfl
  have hsinv := stepKeepsTheInvariant _ _ h hs
  have htinv := stepKeepsTheInvariant _ _ hreset ht
  rw [core_run_succ hs] at hx
  rw [core_run_succ ht]
  cases n with
  | zero =>
    cases hx
    refine ⟨_, rfl, hframe, fun u a more hu hread => ?_⟩
    cases hu
    simp [hin] at hread
  | succ n =>
    obtain ⟨u, hu, hlast⟩ := core_run_succ_last.mp hx
    obtain ⟨v, hv, huv⟩ := follows_core_run hsinv htinv hframe n u hu
    obtain ⟨t', ht', hst, hread⟩ :=
      staleContentIsInvisible u v s' (core_run_keeps_inv hsinv hu) (core_run_keeps_inv htinv hv) huv hlast
    refine ⟨t', core_run_succ_last.mpr ⟨v, hv, ht'⟩, hst, fun w a more hw => ?_⟩
    rw [core_run_succ hs, hu] at hw
    cases hw
    exact hread a more

/-! START, PUSH, EOS and RSVD by the state they are accepted in (R191 to R200). -/

/-- Settles O35: the operand is legal, and `startFrame` is the state written out. -/
theorem startMakesAFreshFrame : Obligations.StartMakesAFreshFrame :=
  fun _ s hlo hhi => exec_start_legal ((frameSize_iff _).mpr ⟨hlo, hhi⟩) s

/-- Settles O36: the operand is not legal, and the fault is raised on the cleared frame. -/
theorem illegalStartFaults : Obligations.IllegalStartFaults := by
  intro m s h
  have hm : ¬ frameSize m.toNat = true := by
    rw [frameSize_iff]
    omega
  exact exec_start_illegal hm s

/-- Settles O52, by the two kinds of operand: what START leaves of two states differs in stale slots only
(`sameFrame_startFrame`, `sameFrame_illegalStart`). -/
theorem startForgetsEarlierFrames : Obligations.StartForgetsEarlierFrames := by
  intro m s t hin
  by_cases hm : frameSize m.toNat = true
  · exact ⟨_, _, exec_start_legal hm s, exec_start_legal hm t, sameFrame_startFrame hm hin⟩
  · exact ⟨_, _, exec_start_illegal hm s, exec_start_illegal hm t, sameFrame_illegalStart _ _ hin⟩

/-- Settles O38, by the arms of PUSH. -/
theorem pushOutsideRun : Obligations.PushOutsideRun := by
  intro b s
  refine ⟨?_, fun hst => ?_⟩
  · rintro (hst | hst)
    · simp only [exec, execPush, hst]
    · simp only [exec, execPush, hst]
  · simp only [exec, execPush, hst]
    rfl

/-- Settles O39, by the arms of EOS. -/
theorem eosInEveryState : Obligations.EosInEveryState := by
  intro arg s
  refine ⟨fun hst => ?_, ?_, fun hst => ?_⟩
  · simp only [exec, execEos, hst]
    rfl
  · rintro (hst | hst)
    · simp only [exec, execEos, hst]
    · simp only [exec, execEos, hst]
  · simp only [exec, execEos, hst]
    rfl

/-- Settles O40, by the arms of RSVD. -/
theorem reservedCommandInEveryState : Obligations.ReservedCommandInEveryState := by
  intro arg s
  refine ⟨fun hst => ?_, fun hst => ?_⟩
  · cases h : s.st with
    | idle | run | done => simp only [exec, execRsvd, h]; rfl
    | fault => exact absurd h hst
  · simp only [exec, execRsvd, hst]

/-! The drain loop (R194, R202). -/

/-- One turn of the loop, and the loop again. -/
theorem execDrain_eq {s : State} (hw : s.st = .run → widthOk s.cw.toNat = true) :
    execDrain s =
      if s.st = .run ∧ s.cw.toNat ≤ s.bc.toNat then andThen (execCodeStep s) execDrain else .next s := by
  by_cases hr : s.st = .run
  · by_cases hle : s.cw.toNat ≤ s.bc.toNat
    · have hturn : execDrain s = andThen (execCodeStep s) (drainWithin s.bc.toNat) := by
        simp only [execDrain, drainWithin, hr, hw hr, (hasBits_iff _ _).mpr hle, if_true]
      rw [hturn, if_pos ⟨hr, hle⟩]
      cases hu : execCodeStep s with
      | next u =>
        have hbc := execCodeStep_bc hu
        exact drainWithin_enough (by omega)
      | fault r | refused r => rfl
    · rw [if_neg fun hgo => hle hgo.2]
      simp [execDrain, drainWithin, hr, hw hr, hasBits, hle]
  · rw [if_neg fun hgo => hr hgo.1]
    simp [execDrain, drainWithin, hr]

/-- With a turn for every buffered bit the loop ends at its exit only. -/
theorem drainWithin_exit {n : Nat} {s t : State} (hn : s.bc.toNat < n) (hx : drainWithin n s = .next t) :
    t.st ≠ .run ∨ t.bc.toNat < t.cw.toNat := by
  induction n generalizing s with
  | zero => omega
  | succ n ih =>
    rw [drainWithin] at hx
    split at hx
    · split at hx
      · split at hx
        · obtain ⟨u, hu, hrest⟩ := andThen_eq_next.mp hx
          have hbc := execCodeStep_bc hu
          exact ih (by omega) hrest
        · next hbits =>
          cases hx
          exact .inr (Nat.not_le.mp fun hle => hbits ((hasBits_iff _ _).mpr hle))
      · cases hx
    · next hr =>
      cases hx
      exact .inl hr

/-- Settles O42: one turn of the loop (`execDrain_eq`), and its exit (`drainWithin_exit`). -/
theorem drainIsTheLoop : Obligations.DrainIsTheLoop :=
  ⟨fun _ hw => execDrain_eq hw, fun _ _ hx => drainWithin_exit (Nat.lt_succ_self _) hx⟩

theorem execDrain_of_pending {s : State} (h : s.FrameInv) (hr : s.st = .run) (hle : s.cw.toNat ≤ s.bc.toNat) :
    execDrain s = andThen (execCodeStep s) execDrain :=
  (execDrain_eq fun _ => widthOk_of_ne_zero h (m_ne_zero_of_run h hr)).trans (if_pos ⟨hr, hle⟩)

theorem execDrain_of_not_pending {s : State} (h : s.FrameInv) (hlt : s.bc.toNat < s.cw.toNat) :
    execDrain s = .next s :=
  (execDrain_eq fun hr => widthOk_of_ne_zero h (m_ne_zero_of_run h hr)).trans
    (if_neg fun hgo => Nat.not_le.mpr hlt hgo.2)

/-- Every code of a frame has at least two bits (R25), so a drain fetches at most one code for two buffered bits. -/
theorem ncodes_of_execDrain {s t : State} (h : s.FrameInv) (hx : execDrain s = .next t) :
    2 * t.ncodes + t.bc.toNat ≤ 2 * s.ncodes + s.bc.toNat := by
  refine (drainWithin_induction
    (P := fun u => u.FrameInv ∧ 2 * u.ncodes + u.bc.toNat ≤ 2 * s.ncodes + s.bc.toNat) ?_ ⟨h, Nat.le_refl _⟩ hx).2
  intro u v ⟨hu, hle⟩ hv
  obtain ⟨hr, _⟩ := execCodeStep_eq_next hv
  have hm := m_ne_zero_of_run hu hr
  obtain ⟨_, _, hcw, _⟩ := hu.ranges hm
  obtain ⟨_, hbc⟩ := execCodeStep_bc hv
  obtain ⟨hncodes, _⟩ := execCodeStep_inputSide hv
  exact ⟨frameInv_execCodeStep hu hv, by omega⟩

theorem frameInv_pushed {s : State} (h : s.Inv) (hr : s.st = .run) (b : Byte) : (shiftByte b s).FrameInv :=
  frameInv_shiftByte h.frame (m_ne_zero_of_run h.frame hr) (bc_le_of_inv h hr)

/-- The first code takes CW bits of fewer than CW + 8, and leaves bits for at most three (R202). -/
theorem ncodes_of_push {s t : State} {b : Byte} (h : s.Inv) (hr : s.st = .run) (hx : execPush b s = .next t) :
    t.ncodes ≤ s.ncodes + 4 := by
  have hbc := bc_le_of_inv h hr
  have hdrained := h.drained hr
  have hshift := frameInv_pushed h hr b
  have hcount : (shiftByte b s).bc.toNat = s.bc.toNat + 8 := shiftByte_bc_toNat (by omega)
  rw [execPush_run h hr] at hx
  by_cases hle : (shiftByte b s).cw.toNat ≤ (shiftByte b s).bc.toNat
  · rw [execDrain_of_pending hshift hr hle] at hx
    obtain ⟨u, hu, hrest⟩ := andThen_eq_next.mp hx
    obtain ⟨_, hubc⟩ := execCodeStep_bc hu
    obtain ⟨huncodes, _⟩ := execCodeStep_inputSide hu
    have hmore := ncodes_of_execDrain (frameInv_execCodeStep hshift hu) hrest
    simp only [shiftByte_cw, shiftByte_ncodes] at hubc huncodes
    omega
  · rw [execDrain_of_not_pending hshift (Nat.not_le.mp hle)] at hx
    cases hx
    exact Nat.le_add_right _ _

/-- Settles O43: the loop answers (`execDrain_answers`); the codes of a PUSH are counted by their bits
(`ncodes_of_push`). -/
theorem drainCompletes : Obligations.DrainCompletes := by
  refine ⟨fun s h => ?_, fun s t b h hr hx => ncodes_of_push h hr hx⟩
  obtain ⟨t, ht, hinv⟩ := execDrain_answers h
  exact ⟨t, ht, hinv.frame, hinv.drained⟩

theorem nbytes_of_execDrain {s t : State} (hx : execDrain s = .next t) : t.nbytes = s.nbytes := by
  refine drainWithin_induction (P := fun u => u.nbytes = s.nbytes) (fun u v h hv => ?_) rfl hx
  obtain ⟨_, hnbytes, _⟩ := execCodeStep_inputSide hv
  exact hnbytes.trans h

/-- Settles O37: SHIFT_IN fits (`bc_le_of_inv`), PUSH is then the loop (`execPush_run`), it answers a good state
(`execPush_answers`), and no code step counts a byte. -/
theorem pushInRunShiftsAndDrains : Obligations.PushInRunShiftsAndDrains := by
  intro b s h hr
  have hbc := bc_le_of_inv h hr
  have hrun := execPush_run (b := b) h hr
  obtain ⟨t, ht, hinv⟩ := execPush_answers h b
  exact ⟨by omega, hrun, t, ht, hinv, nbytes_of_execDrain (hrun.symm.trans ht)⟩

/-! The table of next states and causes (R203). -/

/-- How a PUSH in RUN can leave ST and CAUSE (R203). -/
def PushEnded (s : State) : Prop :=
  (s.st = .run ∧ s.cause = .none) ∨ (s.st = .done ∧ s.cause = .none) ∨ (s.st = .fault ∧ s.cause = .invalidLzwCode)

theorem pushEnded_of_runCode {c : Code} {s t : State} (hr : s.st = .run) (hc : s.cause = .none)
    (hx : runCode c s = .next t) : PushEnded t := by
  cases codeRan_of_runCode hx with
  | endFrame _ => exact .inr (.inl ⟨rfl, hc⟩)
  | clear _ | first _ => exact .inl ⟨hr, hc⟩
  | invalid _ => exact .inr (.inr ⟨rfl, rfl⟩)
  | known _ _ _ hs _ _ | kwkwk _ _ _ hs _ _ => exact .inl ⟨hs.st.trans hr, hs.cause.trans hc⟩

/-- A code step starts in RUN, where CAUSE is 0. -/
theorem pushEnded_of_execCodeStep {s t : State} (h : s.FrameInv) (hx : execCodeStep s = .next t) : PushEnded t := by
  obtain ⟨hr, _, _, hrun⟩ := execCodeStep_eq_next hx
  exact pushEnded_of_runCode (s := afterRead s.cw.toNat s) hr (cause_eq_none_of_ne_fault (s := s) h (by simp [hr])) hrun

theorem pushEnded_of_push {s t : State} {b : Byte} (h : s.Inv) (hr : s.st = .run) (hx : execPush b s = .next t) :
    PushEnded t := by
  rw [execPush_run h hr] at hx
  refine (drainWithin_induction (P := fun u => u.FrameInv ∧ PushEnded u)
    (fun u v ⟨hu, _⟩ hv => ⟨frameInv_execCodeStep hu hv, pushEnded_of_execCodeStep hu hv⟩)
    ⟨frameInv_pushed h hr b, ?_⟩ hx).2
  exact .inl ⟨hr, cause_eq_none_of_ne_fault (s := s) h.frame (by simp [hr])⟩

/-- Settles O41: the states written out by `pushOutsideRun`, `eosInEveryState` and `reservedCommandInEveryState`, and for a
PUSH in RUN how its code steps can end (`pushEnded_of_push`). -/
theorem commandTable : Obligations.CommandTable := by
  intro s arg h
  obtain ⟨hpush, hpushIdle⟩ := pushOutsideRun arg s
  obtain ⟨heosRun, heos, heosIdle⟩ := eosInEveryState arg s
  obtain ⟨hrsvd, hrsvdFault⟩ := reservedCommandInEveryState arg s
  refine ⟨?_, ?_, ?_, ?_⟩
  · by_cases hm : frameSize arg.toNat = true
    · exact ⟨_, exec_start_legal hm s, by rw [if_pos hm]; exact ⟨rfl, rfl⟩⟩
    · exact ⟨_, exec_start_illegal hm s, by rw [if_neg hm]; exact ⟨rfl, rfl⟩⟩
  · cases hst : s.st with
    | idle => exact ⟨_, hpushIdle hst, rfl, rfl⟩
    | run =>
      obtain ⟨t, ht, _⟩ := execPush_answers h arg
      exact ⟨t, ht, pushEnded_of_push h hst ht⟩
    | done => exact ⟨s, hpush (.inl hst), rfl⟩
    | fault => exact ⟨s, hpush (.inr hst), rfl⟩
  · cases hst : s.st with
    | idle => exact ⟨_, heosIdle hst, rfl, rfl⟩
    | run => exact ⟨_, heosRun hst, rfl, rfl⟩
    | done => exact ⟨s, heos (.inl hst), rfl⟩
    | fault => exact ⟨s, heos (.inr hst), rfl⟩
  · cases hst : s.st with
    | idle | run | done => exact ⟨_, hrsvd (by simp [hst]), rfl, rfl⟩
    | fault => exact ⟨s, hrsvdFault hst, rfl⟩

/-! The abstract form's queue (40_bit_code_reader.md R130) and its drain loop. -/

/-- The abstract state with another queue. -/
def withQueue (q : List Bool) (a : AbsState) : AbsState := { a with queue := q }

@[simp] theorem withQueue_cw (q : List Bool) (a : AbsState) : (withQueue q a).cw = a.cw := rfl
@[simp] theorem withQueue_entries (q : List Bool) (a : AbsState) : (withQueue q a).entries = a.entries := rfl
@[simp] theorem withQueue_last (q : List Bool) (a : AbsState) : (withQueue q a).last = a.last := rfl
@[simp] theorem withQueue_queue (q : List Bool) (a : AbsState) : (withQueue q a).queue = q := rfl

theorem absLearn_withQueue (q : List Bool) (e : List Byte) (a : AbsState) :
    absLearn e (withQueue q a) = withQueue q (absLearn e a) := by
  rw [absLearn_eq, absLearn_eq]
  rfl

/-- A choice commutes with a function on its outcome where each branch does. -/
theorem ite_eq_map {α β : Type} {p : Prop} [Decidable p] {f : α → β} {x y : Option α} {x' y' : Option β}
    (hx : x' = x.map f) (hy : y' = y.map f) : (if p then x' else y') = (if p then x else y).map f := by
  subst hx hy
  exact (apply_ite (Option.map f) p x y).symm

/-- The class rules do not look at the queue. -/
theorem absRunCode_withQueue (q : List Bool) (c : Nat) (a : AbsState) :
    absRunCode c (withQueue q a) = (absRunCode c a).map (withQueue q) := by
  unfold absRunCode
  refine ite_eq_map rfl (ite_eq_map rfl (ite_eq_map (ite_eq_map ?_ rfl) (ite_eq_map ?_ (ite_eq_map ?_ rfl))))
  · rw [Option.map_map]
    rfl
  · simp only [withQueue_entries, absLearn_withQueue, Option.map_map, Function.comp_def]
  · simp only [withQueue_last, absLearn_withQueue]
    cases a.last <;> rfl

theorem queue_of_absRunCode {c : Nat} {a b : AbsState} (h : absRunCode c a = some b) : b.queue = a.queue := by
  have hsame : absRunCode c a = (absRunCode c a).map (withQueue a.queue) := absRunCode_withQueue a.queue c a
  rw [h] at hsame
  have heq : b = withQueue a.queue b := Option.some.inj hsame
  rw [heq, withQueue_queue]

/-- What every abstract code step keeps: a frame has been started, and its codes have at least one bit. -/
structure AbsStarted (a : AbsState) : Prop where
  st : a.st ≠ .idle
  cw : 1 ≤ a.cw

theorem absStarted_absLearn {a : AbsState} (h : AbsStarted a) (e : List Byte) : AbsStarted (absLearn e a) := by
  rw [absLearn_eq]
  exact ⟨h.st, Nat.le_trans h.cw (le_ite_succ _ _)⟩

theorem absStarted_absFault {a : AbsState} (h : AbsStarted a) (cause : RaisedCause) (info : BitVec 12) :
    AbsStarted (absFault cause info a) := ⟨by simp [absFault], h.cw⟩

theorem absStarted_absRunCode {c : Nat} {a b : AbsState} (h : AbsStarted a) (hx : absRunCode c a = some b) :
    AbsStarted b := by
  unfold absRunCode at hx
  split at hx
  · cases hx; exact ⟨by simp, h.cw⟩
  · split at hx
    · cases hx; exact ⟨h.st, Nat.le_add_left _ _⟩
    · split at hx
      · split at hx
        · obtain ⟨_, _, rfl⟩ := Option.map_eq_some_iff.mp hx
          exact ⟨h.st, h.cw⟩
        · cases hx; exact absStarted_absFault h _ _
      · split at hx
        · obtain ⟨_, _, rfl⟩ := Option.map_eq_some_iff.mp hx
          exact absStarted_absLearn h _
        · split at hx
          · split at hx
            · cases hx
            · cases hx; exact absStarted_absLearn h _
          · cases hx; exact absStarted_absFault h _ _

/-- A code step keeps the frame started and takes CW bits. -/
theorem absCodeStep_eq_some {a b : AbsState} (h : AbsStarted a) (hx : absCodeStep a = some b) :
    AbsStarted b ∧ b.queue = a.queue.drop a.cw :=
  ⟨absStarted_absRunCode (a := withQueue (a.queue.drop a.cw) a) ⟨h.st, h.cw⟩ hx, queue_of_absRunCode hx⟩

/-- A whole code is in the queue of a block in RUN. -/
def AbsPending (a : AbsState) : Prop := a.st = .run ∧ a.cw ≤ a.queue.length

/-- Every turn takes at least one bit, so more turns than bits change nothing. -/
theorem absDrainWithin_enough {n k : Nat} {a : AbsState} (h : AbsStarted a) (hn : a.queue.length < n)
    (hk : a.queue.length < k) : absDrainWithin n a = absDrainWithin k a := by
  induction n generalizing k a with
  | zero => omega
  | succ n ih =>
    obtain ⟨k, rfl⟩ : ∃ j, k = j + 1 := ⟨k - 1, by omega⟩
    rw [absDrainWithin, absDrainWithin]
    split
    · next hgo =>
      cases hu : absCodeStep a with
      | none => rfl
      | some u =>
        obtain ⟨hstarted, hqueue⟩ := absCodeStep_eq_some h hu
        have hlen := List.length_drop (i := a.cw) (l := a.queue)
        have hcw := h.cw
        rw [← hqueue] at hlen
        exact ih hstarted (by omega) (by omega)
    · rfl

/-- One turn of the loop, and the loop again (R194). -/
theorem absDrain_of_pending {a : AbsState} (h : AbsStarted a) (hp : AbsPending a) :
    absDrain a = (absCodeStep a).bind absDrain := by
  have hturn : absDrain a = (absCodeStep a).bind (absDrainWithin a.queue.length) := if_pos hp
  rw [hturn]
  cases hu : absCodeStep a with
  | none => rfl
  | some u =>
    obtain ⟨hstarted, hqueue⟩ := absCodeStep_eq_some h hu
    have hlen := List.length_drop (i := a.cw) (l := a.queue)
    have hcw := h.cw
    have hle := hp.2
    rw [← hqueue] at hlen
    exact absDrainWithin_enough hstarted (by omega) (Nat.lt_succ_self _)

theorem absDrain_of_not_pending {a : AbsState} (hp : ¬ AbsPending a) : absDrain a = some a := if_neg hp

/-- Induction over the turns of a drain. -/
theorem absDrain_induction {P : AbsState → AbsState → Prop}
    (stop : ∀ a, AbsStarted a → ¬ AbsPending a → P a a)
    (turn : ∀ a u b, AbsStarted a → AbsPending a → absCodeStep a = some u → P u b → P a b)
    {a b : AbsState} (h : AbsStarted a) (hx : absDrain a = some b) : P a b := by
  by_cases hp : AbsPending a
  · rw [absDrain_of_pending h hp] at hx
    obtain ⟨u, hu, hrest⟩ := Option.bind_eq_some_iff.mp hx
    obtain ⟨hstarted, hqueue⟩ := absCodeStep_eq_some h hu
    exact turn a u b h hp hu (absDrain_induction stop turn hstarted hrest)
  · rw [absDrain_of_not_pending hp] at hx
    cases hx
    exact stop a h hp
termination_by a.queue.length
decreasing_by
  have hcw := h.cw
  have hle := hp.2
  rw [hqueue, List.length_drop]
  omega

/-- The loop ends at its exit, with the frame started. -/
theorem absDrain_exit {a b : AbsState} (h : AbsStarted a) (hx : absDrain a = some b) :
    AbsStarted b ∧ ¬ AbsPending b :=
  absDrain_induction (P := fun _ b => AbsStarted b ∧ ¬ AbsPending b) (fun _ => And.intro)
    (fun _ _ _ _ _ _ hb => hb) h hx

/-! The eager and the lazy schedule (R201). -/

/-- More bits at the end of the queue. -/
def absAppend (x : List Bool) (a : AbsState) : AbsState := withQueue (a.queue ++ x) a

/-- A code step takes its bits from the front, so bits behind them wait. -/
theorem absCodeStep_absAppend {a u : AbsState} (hle : a.cw ≤ a.queue.length) (hx : absCodeStep a = some u)
    (x : List Bool) : absCodeStep (absAppend x a) = some (absAppend x u) := by
  have hqueue : u.queue = a.queue.drop a.cw := queue_of_absRunCode hx
  have htake : (a.queue ++ x).take a.cw = a.queue.take a.cw := List.take_append_of_le_length hle
  have hdrop : (a.queue ++ x).drop a.cw = u.queue ++ x := by rw [List.drop_append_of_le_length hle, hqueue]
  calc absCodeStep (absAppend x a)
      = absRunCode (valueOf ((a.queue ++ x).take a.cw)) (withQueue ((a.queue ++ x).drop a.cw) a) := rfl
    _ = absRunCode (valueOf (a.queue.take a.cw)) (withQueue (u.queue ++ x) (withQueue (a.queue.drop a.cw) a)) := by
      rw [htake, hdrop]; rfl
    _ = (absCodeStep a).map (withQueue (u.queue ++ x)) := absRunCode_withQueue _ _ _
    _ = some (absAppend x u) := by rw [hx]; rfl

/-- To drain first and append bits then, or to append them at once, is the same. -/
theorem absDrain_absAppend {a b : AbsState} (h : AbsStarted a) (hx : absDrain a = some b) (x : List Bool) :
    absDrain (absAppend x a) = absDrain (absAppend x b) := by
  refine absDrain_induction (P := fun a b => absDrain (absAppend x a) = absDrain (absAppend x b)) (fun _ _ _ => rfl) ?_
    h hx
  intro a u b hstarted hp hu ih
  have hmore : AbsPending (absAppend x a) := ⟨hp.1, by
    have hle := hp.2
    simp only [absAppend, withQueue_cw, withQueue_queue, List.length_append]
    omega⟩
  rw [absDrain_of_pending (a := absAppend x a) ⟨hstarted.st, hstarted.cw⟩ hmore, absCodeStep_absAppend hp.2 hu]
  exact ih

theorem absLazy_eq (bytes : List Byte) (a : AbsState) : absLazy bytes a = absDrain (absAppend (streamBits bytes) a) := by
  have hfold : bytes.foldl (fun x b => absShift b x) a = absAppend (streamBits bytes) a := by
    induction bytes generalizing a with
    | nil => simp [absAppend, withQueue, streamBits]
    | cons b rest ih =>
      rw [List.foldl_cons, ih, streamBits_cons]
      simp [absAppend, withQueue, absShift]
  rw [absLazy, hfold]

theorem absLazy_cons (b : Byte) (rest : List Byte) (a : AbsState) :
    absLazy (b :: rest) a = absLazy rest (absShift b a) := rfl

/-- A block that has left RUN discards the bytes (R195). -/
theorem absEager_of_stopped {a : AbsState} (h : AbsStarted a) (hr : a.st ≠ .run) (bytes : List Byte) :
    absEager bytes a = some a := by
  induction bytes with
  | nil => rfl
  | cons b rest ih =>
    have hpush : absPush b a = some a := by
      unfold absPush
      split
      · next hst => exact absurd hst h.st
      · next hst => exact absurd hst hr
      · rfl
      · rfl
    rw [absEager, hpush]
    exact ih

/-- The lazy schedule ends as the eager one, but for the bits that a stopped block leaves in the queue. -/
theorem absLazy_of_absEager {bytes : List Byte} {a e : AbsState} (h : AbsStarted a) (hp : ¬ AbsPending a)
    (hx : absEager bytes a = some e) :
    ∃ q, absLazy bytes a = some (withQueue q e) ∧ (e.st = .run → q = e.queue) := by
  induction bytes generalizing a with
  | nil =>
    cases hx
    exact ⟨e.queue, absDrain_of_not_pending hp, fun _ => rfl⟩
  | cons b rest ih =>
    by_cases hr : a.st = .run
    · obtain ⟨u, hu, hrest⟩ := Option.bind_eq_some_iff.mp hx
      have hdrain : absDrain (absShift b a) = some u := by rw [absPush, hr] at hu; exact hu
      have hshift : AbsStarted (absShift b a) := ⟨h.st, h.cw⟩
      obtain ⟨hstarted, hexit⟩ := absDrain_exit hshift hdrain
      rw [absLazy_cons, absLazy_eq, absDrain_absAppend hshift hdrain, ← absLazy_eq]
      exact ih hstarted hexit hrest
    · rw [absEager_of_stopped h hr] at hx
      cases hx
      refine ⟨e.queue ++ streamBits (b :: rest), ?_, fun hrun => absurd hrun hr⟩
      rw [absLazy_eq]
      exact absDrain_of_not_pending fun hgo => hr hgo.1

/-! The block against the lazy schedule (R201). -/

theorem m_of_runCode {c : Code} {s t : State} (hx : runCode c s = .next t) : t.m = s.m := by
  cases codeRan_of_runCode hx with
  | endFrame _ | clear _ | first _ | invalid _ => rfl
  | known _ _ _ hs _ _ | kwkwk _ _ _ hs _ _ => exact hs.m

/-- Only START and reset configure a frame. -/
theorem m_of_execPush {b : Byte} {s t : State} (hx : execPush b s = .next t) : t.m = s.m := by
  unfold execPush at hx
  split at hx
  · cases hx; rfl
  · obtain ⟨u, hu, hdrain⟩ := andThen_eq_next.mp hx
    unfold execShiftIn at hu
    split at hu
    · cases hu
      refine drainWithin_induction (P := fun v => v.m = s.m) (s := shiftByte b s) (fun v w hv hw => ?_) rfl hdrain
      obtain ⟨_, _, _, hrun⟩ := execCodeStep_eq_next hw
      exact (m_of_runCode hrun).trans hv
    · cases hu
  · cases hx; rfl
  · cases hx; rfl

theorem standsFor_withInput {s : State} {a : AbsState} (h : StandsFor s a) (l : List HostInput) :
    StandsFor (withInput l s) a :=
  { h with
    entries := standsFor_entries_congr (s := s) (a := a) h ⟨rfl, rfl, rfl⟩
    last := standsFor_last_congr (s := s) (a := a) h ⟨rfl, rfl, rfl⟩ rfl rfl }

theorem inv_withInput {s : State} (h : s.Inv) (l : List HostInput) : (withInput l s).Inv :=
  inv_withPorts h l s.srData s.fresh

/-- A command issued at the head of the inputs, in a good state. -/
theorem step_withInput_cmd {s t : State} {w : CmdWord} (h : s.Inv) (hx : exec (decodeCmd w) s = .next t)
    (more : List HostInput) : step (withInput (.cmd w :: more) s) = .next (withInput more t) := by
  have hstep := step_command (codePending_of_inv h) w more
  rw [hx] at hstep
  exact hstep

/-- The block with every byte pushed runs as the eager schedule. -/
theorem core_run_pushAll {s : State} {a : AbsState} (h : s.Inv) (ha : StandsFor s a) (bytes : List Byte) :
    ∃ (t : State) (e : AbsState), core.run bytes.length (withInput (pushAll bytes) s) = .next t ∧
      absEager bytes a = some e ∧ StandsFor t e ∧ t.m = s.m := by
  induction bytes generalizing s a with
  | nil => exact ⟨_, a, rfl, rfl, standsFor_withInput ha _, rfl⟩
  | cons b rest ih =>
    obtain ⟨u, hu, hinv⟩ := execPush_answers h b
    obtain ⟨a', ha', hua⟩ := refines_execPush ha h hu
    obtain ⟨t, e, hrun, heager, hte, hm⟩ := ih hinv hua
    have hpush : exec (decodeCmd (cmdWord 1 b)) s = .next u := by rw [Laws.RowEncoding.push b]; exact hu
    refine ⟨t, e, core_run_succ_eq_next.mpr ⟨_, step_withInput_cmd h hpush _, hrun⟩, ?_, hte,
      hm.trans (m_of_execPush hu)⟩
    rw [absEager, ha']
    exact heager

/-- Settles O55: on the abstract form `absLazy_of_absEager`; the block runs as the eager schedule (`core_run_pushAll`). -/
theorem lazyScheduleAgrees : Obligations.LazyScheduleAgrees := by
  have hlazy : ∀ {bytes : List Byte} {a e : AbsState}, a.st = .run → a.queue.length < a.cw →
      absEager bytes a = some e → ∃ q, absLazy bytes a = some (withQueue q e) ∧ (e.st = .run → q = e.queue) :=
    fun hr hlt => absLazy_of_absEager ⟨by simp [hr], by omega⟩ fun hgo => Nat.not_le.mpr hlt hgo.2
  constructor
  · intro bytes a e hr hlt hx
    obtain ⟨q, hq, hqueue⟩ := hlazy hr hlt hx
    exact ⟨_, hq, rfl, rfl, rfl, rfl, rfl, rfl, rfl, rfl, rfl, hqueue⟩
  · intro bytes s a h ha hr
    obtain ⟨t, e, hrun, heager, hte, hm⟩ := core_run_pushAll h ha bytes
    have hlt : a.queue.length < a.cw := by rw [queue_length ha, ha.cw]; exact h.drained hr
    obtain ⟨q, hq, hqueue⟩ := hlazy (ha.st.trans hr) hlt heager
    have hframe : t.m.toNat ≠ 0 := by rw [hm]; exact m_ne_zero_of_run h.frame hr
    exact ⟨t, _, hrun, hq, hte.out, hte.st, hte.cause, hte.finfo, hte.cw, hte.next, hte.awaitFirst, hte.last hframe,
      hte.entries hframe, fun hrun => (hqueue (hte.st.trans hrun)).trans hte.queue⟩

/-! The host's feed of a framed image (R206, R207; 30_encoding.md R98). -/

theorem frameSubBlocks_cons (c : List Byte) (chunks : List (List Byte)) :
    frameSubBlocks (c :: chunks) = BitVec.ofNat 8 c.length :: (c ++ frameSubBlocks chunks) := by
  simp [frameSubBlocks]

theorem length_le_frameSubBlocks (chunks : List (List Byte)) : chunks.length ≤ (frameSubBlocks chunks).length := by
  induction chunks with
  | nil => exact Nat.zero_le _
  | cons c chunks ih =>
    rw [frameSubBlocks_cons, List.length_cons, List.length_cons, List.length_append]
    omega

theorem pushAll_append (l k : List Byte) : pushAll (l ++ k) = pushAll l ++ pushAll k := List.map_append

/-- A whole sub-block of 1 to 255 bytes is pushed, and the loop goes on behind it. -/
theorem feedWithin_chunk {c : List Byte} (hlo : 1 ≤ c.length) (hhi : c.length ≤ 255) (n : Nat) (buf : List Byte) :
    feedWithin (n + 1) (BitVec.ofNat 8 c.length :: (c ++ buf)) =
      { feedWithin n buf with inputs := pushAll c ++ (feedWithin n buf).inputs } := by
  have hlen : (BitVec.ofNat 8 c.length).toNat = c.length := Nat.mod_eq_of_lt (by omega)
  have hfits : ¬ (c ++ buf).length < c.length := by rw [List.length_append]; omega
  rw [feedWithin, hlen, if_neg (by omega), if_neg hfits, List.take_left' rfl, List.drop_left' rfl]

theorem feedWithin_frameSubBlocks {chunks : List (List Byte)} (h : ∀ c ∈ chunks, 1 ≤ c.length ∧ c.length ≤ 255)
    {n : Nat} (hn : chunks.length < n) (rest : List Byte) :
    feedWithin n (frameSubBlocks chunks ++ rest) =
      ⟨pushAll chunks.flatten ++ [.cmd (cmdWord 2 0)], .endOfStream, rest⟩ := by
  induction chunks generalizing n with
  | nil =>
    obtain ⟨n, rfl⟩ : ∃ k, n = k + 1 := ⟨n - 1, by omega⟩
    rfl
  | cons c chunks ih =>
    obtain ⟨n, rfl⟩ : ∃ k, n = k + 1 := ⟨n - 1, by omega⟩
    obtain ⟨⟨hlo, hhi⟩, hmore⟩ := List.forall_mem_cons.mp h
    rw [frameSubBlocks_cons, List.cons_append, List.append_assoc, feedWithin_chunk hlo hhi,
      ih hmore (by simpa using hn), List.flatten_cons, pushAll_append, List.append_assoc]

/-- Settles O57: START for the first byte, and then the sub-block loop, which has a turn for every byte of the buffer
(`feedWithin_frameSubBlocks`). -/
theorem feedOfAFramedImage : Obligations.FeedOfAFramedImage := by
  intro m chunks rest h
  have hturns : chunks.length < (frameSubBlocks chunks ++ rest).length + 1 := by
    have hlen := length_le_frameSubBlocks chunks
    rw [List.length_append]
    omega
  rw [List.cons_append, feedImage, feedSubBlocks, feedWithin_frameSubBlocks h hturns]
  rfl

/-! The host against the block (R209). -/

/-- What the sub-block loop issues: one PUSH per byte and EOS. -/
def IsPushOrEos (i : HostInput) : Prop := (∃ b, i = .cmd (cmdWord 1 b)) ∨ i = .cmd (cmdWord 2 0)

theorem isPushOrEos_of_feedWithin (n : Nat) (buf : List Byte) : ∀ i ∈ (feedWithin n buf).inputs, IsPushOrEos i := by
  induction n generalizing buf with
  | zero => exact List.forall_mem_nil _
  | succ n ih =>
    cases buf with
    | nil => exact List.forall_mem_nil _
    | cons len rest =>
      rw [feedWithin]
      split
      · exact List.forall_mem_singleton.mpr (.inr rfl)
      · split
        · exact List.forall_mem_nil _
        · refine List.forall_mem_append.mpr ⟨fun i hi => ?_, ih _⟩
          obtain ⟨b, _, rfl⟩ := List.mem_map.mp hi
          exact .inl ⟨b, rfl⟩

/-- The block has a frame that it is decoding or has finished. -/
def InFrame (s : State) : Prop := s.st = .run ∨ s.st = .done

/-- The block is in FAULT with a cause that a host can meet (R209, log entry 22). -/
def InHostFault (s : State) : Prop :=
  s.st = .fault ∧ (s.cause = .invalidLzwCode ∨ s.cause = .truncatedLzwStream ∨ s.cause = .badMinCodeSize)

/-- The command `i` completes on the block `s` in state `t`, which is good, and is a frame or a fault that stops the host. -/
structure Completes (i : HostInput) (s t : State) : Prop where
  answers : ∃ w, i = .cmd w ∧ exec (decodeCmd w) s = .next t
  inv : t.Inv
  left : InFrame t ∨ InHostFault t

theorem completes_start {s : State} (h : s.Inv) (m : Byte) : ∃ t, Completes (.cmd (cmdWord 0 m)) s t := by
  have hdec : decodeCmd (cmdWord 0 m) = .start m := Laws.RowEncoding.start m
  by_cases hm : frameSize m.toNat = true
  · exact ⟨_, ⟨_, rfl, by rw [hdec]; exact exec_start_legal hm s⟩, inv_startFrame h.frame hm, .inl (.inl rfl)⟩
  · exact ⟨_, ⟨_, rfl, by rw [hdec]; exact exec_start_illegal hm s⟩, inv_illegalStart h.frame _,
      .inr ⟨rfl, .inr (.inr rfl)⟩⟩

theorem completes_push {s : State} (h : s.Inv) (hs : InFrame s) (b : Byte) :
    ∃ t, Completes (.cmd (cmdWord 1 b)) s t := by
  have hdec : decodeCmd (cmdWord 1 b) = .push b := Laws.RowEncoding.push b
  rcases hs with hr | hd
  · obtain ⟨t, ht, hinv⟩ := execPush_answers h b
    refine ⟨t, ⟨_, rfl, by rw [hdec]; exact ht⟩, hinv, ?_⟩
    rcases pushEnded_of_push h hr ht with ⟨hst, _⟩ | ⟨hst, _⟩ | ⟨hst, hcause⟩
    · exact .inl (.inl hst)
    · exact .inl (.inr hst)
    · exact .inr ⟨hst, .inl hcause⟩
  · obtain ⟨hdiscard, _⟩ := pushOutsideRun b s
    exact ⟨s, ⟨_, rfl, by rw [hdec]; exact hdiscard (.inl hd)⟩, h, .inl (.inr hd)⟩

theorem completes_eos {s : State} (h : s.Inv) (hs : InFrame s) : ∃ t, Completes (.cmd (cmdWord 2 0)) s t := by
  have hdec : decodeCmd (cmdWord 2 0) = .eos 0 := Laws.RowEncoding.eos 0
  obtain ⟨hrun, hother, _⟩ := eosInEveryState 0 s
  rcases hs with hr | hd
  · exact ⟨_, ⟨_, rfl, by rw [hdec]; exact hrun hr⟩,
      inv_raiseFault h.frame .truncatedLzwStream _ fun h0 => absurd h0 (m_ne_zero_of_run h.frame hr),
      .inr ⟨rfl, .inr (.inl rfl)⟩⟩
  · exact ⟨s, ⟨_, rfl, by rw [hdec]; exact hother (.inl hd)⟩, h, .inl (.inr hd)⟩

theorem completes_pushOrEos {s : State} (h : s.Inv) (hs : InFrame s) {i : HostInput} (hi : IsPushOrEos i) :
    ∃ t, Completes i s t := by
  rcases hi with ⟨b, rfl⟩ | rfl
  · exact completes_push h hs b
  · exact completes_eos h hs

/-- A command of the host is one step of the block, whatever is pending behind it. -/
theorem step_of_completes {i : HostInput} {s t : State} (h : s.Inv) (hx : Completes i s t) (more : List HostInput) :
    step (withInput (i :: more) s) = .next (withInput more t) := by
  obtain ⟨w, rfl, hexec⟩ := hx.answers
  exact step_withInput_cmd h hexec more

/-- How the host's work on the commands of a feed went: the commands it issued, as a run of the block; no fault before the
last; and then a fault that stopped it, or the feed's own end (R209). -/
structure IssuedOn (s : State) (f : Feed) (r : HostRun) : Prop where
  run : core.run r.issued.length (withInput r.issued s) = .next (withInput [] r.block)
  earlier : ∀ (k : Nat) (u : State), 1 ≤ k → k < r.issued.length → core.run k (withInput r.issued s) = .next u →
    u.st ≠ .fault
  ended :
    (r.issued ≠ [] ∧ (∃ more, f.inputs = r.issued ++ more) ∧ InHostFault r.block ∧
        r.ending = .blockFault r.block.cause ∧ r.rest = []) ∨
      (r.issued = f.inputs ∧ r.ending = f.ending ∧ r.rest = f.rest ∧
        (r.issued ≠ [] ∨ s.st ≠ .fault → r.block.st ≠ .fault))

theorem issuedOn_nil (s : State) (ending : FeedEnd) (rest : List Byte) :
    IssuedOn s ⟨[], ending, rest⟩ ⟨s, [], ending, rest⟩ where
  run := rfl
  earlier := fun k _ _ hk => absurd hk (Nat.not_lt_zero k)
  ended := .inr ⟨rfl, rfl, rfl, fun h => h.resolve_left fun hne => hne rfl⟩

/-- A command that leaves the block in FAULT is the last. -/
theorem issuedOn_fault {i : HostInput} {s t : State} (h : s.Inv) (hx : Completes i s t) (hf : InHostFault t)
    (more : List HostInput) (ending : FeedEnd) (rest : List Byte) :
    IssuedOn s ⟨i :: more, ending, rest⟩ ⟨withInput [] t, [i], .blockFault t.cause, []⟩ where
  run := core_run_succ_eq_next.mpr ⟨_, step_of_completes h hx [], rfl⟩
  earlier := fun _ _ hlo hhi => absurd hhi (Nat.not_lt.mpr hlo)
  ended := .inl ⟨List.cons_ne_nil _ _, ⟨more, rfl⟩, hf, rfl, rfl⟩

/-- A command that leaves the block in a frame comes before those issued then. -/
theorem issuedOn_cons {i : HostInput} {s t : State} (h : s.Inv) (hx : Completes i s t) (hst : t.st ≠ .fault)
    {more : List HostInput} {ending : FeedEnd} {rest : List Byte} {r : HostRun}
    (hr : IssuedOn (withInput [] t) ⟨more, ending, rest⟩ r) :
    IssuedOn s ⟨i :: more, ending, rest⟩ { r with issued := i :: r.issued } where
  run := core_run_succ_eq_next.mpr ⟨_, step_of_completes h hx r.issued, hr.run⟩
  earlier := by
    intro k u hlo hhi hrun
    obtain ⟨k, rfl⟩ : ∃ j, k = j + 1 := ⟨k - 1, by omega⟩
    rw [core_run_succ (step_of_completes h hx r.issued)] at hrun
    cases k with
    | zero => cases hrun; exact hst
    | succ k => exact hr.earlier (k + 1) u (Nat.le_add_left _ _) (Nat.lt_of_succ_lt_succ hhi) hrun
  ended := by
    rcases hr.ended with ⟨_, ⟨more', hmore⟩, hend⟩ | ⟨hissued, hending, hrest, hblock⟩
    · exact .inl ⟨List.cons_ne_nil _ _, ⟨more', congrArg (i :: ·) hmore⟩, hend⟩
    · exact .inr ⟨congrArg (i :: ·) hissued, hending, hrest, fun _ => hblock (.inr hst)⟩

/-- The host issues a command that completes, and then, where the block is in a frame, the others. -/
theorem issueUntilFault_cons {i : HostInput} {s t : State} (h : s.Inv) (hx : Completes i s t) {more : List HostInput}
    {ending : FeedEnd} {rest : List Byte}
    (hmore : InFrame t → ∃ r, issueUntilFault ending rest more (withInput [] t) = .next r ∧
      IssuedOn (withInput [] t) ⟨more, ending, rest⟩ r) :
    ∃ r, issueUntilFault ending rest (i :: more) s = .next r ∧ IssuedOn s ⟨i :: more, ending, rest⟩ r := by
  have hissue : issueCommand i s = .next (withInput [] t) := step_of_completes h hx []
  rcases hx.left with hframe | ⟨hst, hcause⟩
  · have hst : t.st ≠ .fault := by rcases hframe with hst | hst <;> simp [hst]
    obtain ⟨r, hr, hissued⟩ := hmore hframe
    refine ⟨_, ?_, issuedOn_cons h hx hst hissued⟩
    simp only [issueUntilFault, hissue, andThen, faultLine, withInput_st, beq_iff_eq, hst, if_false, hr]
  · refine ⟨_, ?_, issuedOn_fault h hx ⟨hst, hcause⟩ more ending rest⟩
    simp only [issueUntilFault, hissue, andThen, faultLine, withInput_st, hst, beq_self_eq_true, if_true]
    rfl

/-- The commands behind START: each completes in a frame, which is what the one before it left. -/
theorem issueUntilFault_inFrame {s : State} (h : s.Inv) (hs : InFrame s) (ending : FeedEnd) (rest : List Byte)
    {inputs : List HostInput} (hin : ∀ i ∈ inputs, IsPushOrEos i) :
    ∃ r, issueUntilFault ending rest inputs s = .next r ∧ IssuedOn s ⟨inputs, ending, rest⟩ r := by
  induction inputs generalizing s with
  | nil => exact ⟨_, rfl, issuedOn_nil s ending rest⟩
  | cons i more ih =>
    obtain ⟨hi, hmore⟩ := List.forall_mem_cons.mp hin
    obtain ⟨t, ht⟩ := completes_pushOrEos h hs hi
    exact issueUntilFault_cons h ht fun hframe => ih (inv_withInput ht.inv []) hframe hmore

theorem decodeImage_answers {s : State} (h : s.Inv) (buf : List Byte) :
    ∃ r, decodeImage buf s = .next r ∧ IssuedOn s (feedImage buf) r := by
  cases buf with
  | nil => exact ⟨_, rfl, issuedOn_nil s _ _⟩
  | cons m rest =>
    obtain ⟨t, ht⟩ := completes_start h m
    exact issueUntilFault_cons h ht fun hframe =>
      issueUntilFault_inFrame (inv_withInput ht.inv []) hframe _ _ (isPushOrEos_of_feedWithin _ rest)

/-- Settles O59: the feed is START and then PUSH and EOS commands; each completes in a frame or in a fault that stops the host
(`completes_start`, `completes_pushOrEos`), and the run is put together command by command (`issueUntilFault_cons`). -/
theorem hostStopsAtTheFirstFault : Obligations.HostStopsAtTheFirstFault := by
  intro buf s h
  obtain ⟨r, hr, hissued⟩ := decodeImage_answers h buf
  refine ⟨r, hr, hissued.run, hissued.earlier, ?_⟩
  rcases hissued.ended with ⟨hne, hprefix, ⟨hst, hcause⟩, hend⟩ | ⟨hall, hending, hrest, hblock⟩
  · exact .inl ⟨hne, hprefix, hst, hcause, hend⟩
  · exact .inr ⟨hall, hending, hrest, fun hne => hblock (.inl hne)⟩

end Sys2Proof.Proofs

namespace Sys2Proof.Proofs

open Sys2Proof Sys2Proof.Machine

/-! The family 60_exceptions.md: FAULT and how it is left (R226, R229). -/

/-- With ST = FAULT no code is pending, whatever bits were frozen in the buffer. -/
theorem codePending_of_fault {s : State} (hst : s.st = .fault) : codePending s = false := by
  simp [codePending, hst]

/-- Settles O33: the state is `raiseFault` written out, and with ST = FAULT no code is pending. -/
theorem faultEntryFreezesTheRest : Obligations.FaultEntryFreezesTheRest :=
  fun _ _ _ => ⟨rfl, rfl, by rw [cmdReady, codePending_of_fault rfl]; rfl⟩

/-- In FAULT only START has an effect: PUSH, EOS and RSVD are discarded (R195, R198, R200). -/
theorem execCommand_inFault {w : CmdWord} {s t : State} (hst : s.st = .fault) (hx : exec (decodeCmd w) s = .next t) :
    t = s ∨ ∃ m, w = cmdWord 0 m ∧ exec (.start m) s = .next t := by
  obtain ⟨op, arg, rfl, _⟩ := eq_cmdWord w
  rcases op_cases op with rfl | rfl | rfl | rfl
  · rw [decodeCmd_of_encode (i := .start arg) rfl] at hx
    exact .inr ⟨arg, rfl, hx⟩
  · obtain ⟨hpush, _⟩ := pushOutsideRun arg s
    rw [decodeCmd_of_encode (i := .push arg) rfl, hpush (.inr hst)] at hx
    cases hx
    exact .inl rfl
  · obtain ⟨_, heos, _⟩ := eosInEveryState arg s
    rw [decodeCmd_of_encode (i := .eos arg) rfl, heos (.inr hst)] at hx
    cases hx
    exact .inl rfl
  · obtain ⟨_, hrsvd⟩ := reservedCommandInEveryState arg s
    rw [decodeCmd_of_encode (i := .rsvd arg) rfl, hrsvd hst] at hx
    cases hx
    exact .inl rfl

/-- What START leaves in ST, CAUSE and FINFO, in every state (R191, R192). -/
theorem faultRegisters_of_start {m : Byte} {s t : State} (hx : exec (.start m) s = .next t) :
    if frameSize m.toNat then t.st = .run ∧ t.cause = .none ∧ t.finfo = 0
    else t.st = .fault ∧ t.cause = .badMinCodeSize ∧ t.finfo = m.setWidth 12 := by
  split
  · next hm =>
    rw [exec_start_legal hm] at hx
    cases hx
    exact ⟨rfl, rfl, rfl⟩
  · next hm =>
    rw [exec_start_illegal hm] at hx
    cases hx
    exact ⟨rfl, rfl, rfl⟩

/-- Settles O34, by the cases of a step: a reset; a code step, which FAULT excludes; a command, which is discarded or a START
(`execCommand_inFault`); a status read, which only shows a register; idling. -/
theorem faultIsLeftOnlyByStartOrReset : Obligations.FaultIsLeftOnlyByStartOrReset := by
  intro s t hst hstep
  rcases step_cases hstep with ⟨rest, hin, rfl⟩ | ⟨hp, _⟩ | ⟨_, w, rest, hin, hx⟩ | ⟨hp, a, rest, _, hx⟩ | ⟨_, _, rfl⟩
  · exact .inr (.inl ⟨by rw [hin]; rfl, rfl, rfl, rfl⟩)
  · rw [codePending_of_fault hst] at hp
    cases hp
  · rcases execCommand_inFault (s := { s with input := rest }) hst hx with rfl | ⟨m, rfl, hstart⟩
    · exact .inl rfl
    · exact .inr (.inr ⟨m, by rw [hin]; rfl, faultRegisters_of_start hstart⟩)
  · have hready : cmdReady { s with input := rest } = true := congrArg (!·) hp
    rw [execStatusRead_ready hready a] at hx
    cases hx
    exact .inl rfl
  · exact .inl rfl

end Sys2Proof.Proofs

namespace Sys2Proof.Proofs

open Sys2Proof Sys2Proof.Machine

/-! The family 70_reset_and_hazards.md: what a step takes (R250, R238), and progress (R268). -/

/-- Settles O8: the laws of a step on a status read, on a reset and on no input; each case of the inputs is one of them. -/
theorem stepTakesReadsResetsAndIdles : Obligations.StepTakesReadsResetsAndIdles :=
  ⟨fun _ _ _ hin hp => step_statusRead hin hp, fun _ _ hin => step_rst hin, fun _ hin hp => step_idle hin hp⟩

/-- A good state is at a command boundary, so its step is that of the next host input, and every input completes. -/
theorem step_answers {s : State} (h : s.Inv) : ∃ t, step s = .next t := by
  have hp := codePending_of_inv h
  cases hin : s.input with
  | nil => exact ⟨s, step_idle hin hp⟩
  | cons i rest =>
    cases i with
    | rst => exact ⟨_, step_rst hin⟩
    | cmd w =>
      obtain ⟨t, ht, _⟩ := execCommand_answers (inv_withInput h rest) w
      exact ⟨t, (stepRunsTheDecodedCommand s w rest hin hp).trans ht⟩
    | statusRead a =>
      have hready : cmdReady (withInput rest s) = true := congrArg (!·) hp
      exact ⟨_, (step_statusRead hin hp).trans (execStatusRead_ready hready a)⟩

/-- Settles O48: the step answers (`step_answers`), and its answer is a good state (`stepKeepsTheInvariant`). -/
theorem stepAlwaysAnswers : Obligations.StepAlwaysAnswers := by
  intro s h
  obtain ⟨t, ht⟩ := step_answers h
  exact ⟨t, ht, stepKeepsTheInvariant s t h ht⟩

end Sys2Proof.Proofs
